-- ==== Sys2Proof/Word.lean ====
section
/-!
DEFINITION. The byte and the 16-bit word of the block (00_scope.md R7), nothing else.
-/

namespace Sys2Proof

/-- One byte: "Bytes are naturals in 0..255" (00_scope.md R7). -/
abbrev Byte := BitVec 8

/-- A 16-bit register address (42_register_access.md R230, REG_ADDR_W of 00_scope.md R6). -/
abbrev Word16 := BitVec 16

/-- A slot handle (10_state.md R30). -/
abbrev Handle := Nat

end Sys2Proof
end

