-- ==== Sys2Proof/Syntax/Kinds.lean ====
section
/-!
DEFINITION. The names the spec fixes: the 28 command kinds, the enumerations and their members, the named bitfield
fields, and the shape of a bitfield type. Codes, widths and bit positions stand in Sys2Proof/Machine/.
-/

namespace Sys2Proof

/-- The command kinds, exactly the 28 of the opcode table (10_state.md R31, 30_encoding.md R110), in its order. -/
inductive Kind where
  | resetStats | clearIrqStatus | setStandby | setRx | setTx | setSleep | setRfFrequency | setPacketType
  | setModulationParamsLora | setPacketParams | setTxParams | setBufferBaseAddress | writeRegister | writeBuffer
  | getStatus | getPacketType | getIrqStatus | getRxBufferStatus | getPacketStatusLora | getDeviceErrors
  | readRegister | readBuffer | clearDeviceErrors | setDioIrqParams | getStatsLora | setLoraSymbNumTimeout
  | setDio2AsRfSwitchCtrl | setDio3AsTcxoCtrl
  deriving DecidableEq, Repr

/-! ## Enumerations (40_bitfield_codec.md R171 to R181)

A `reserved` member carries its code: "reserved codes as members in their own right" (R169). Where the default width
leaves no reserved code, the constructor serves a wider `ENUM_W` (00_scope.md R6). -/

/-- 40_bitfield_codec.md R171. -/
inductive StandbyConfig where
  | stdbyRc | stdbyXosc | reserved (code : Byte)
  deriving DecidableEq, Repr

/-- 40_bitfield_codec.md R172. -/
inductive PacketType where
  | gfsk | loRa | reserved2 | code3 | reserved (code : Byte)
  deriving DecidableEq, Repr

/-- 40_bitfield_codec.md R173; `reserved k` is the spec's `SfReserved<k>`. -/
inductive SpreadingFactor where
  | sf5 | sf6 | sf7 | sf8 | sf9 | sf10 | sf11 | sf12 | reserved (code : Byte)
  deriving DecidableEq, Repr

/-- 40_bitfield_codec.md R174; `reserved k` is the spec's `BwReserved<k>`. -/
inductive Bandwidth where
  | bw7 | bw10 | bw15 | bw20 | bw31 | bw41 | bw62 | bw125 | bw250 | bw500 | reserved (code : Byte)
  deriving DecidableEq, Repr

/-- 40_bitfield_codec.md R175. -/
inductive CodingRate where
  | cr4_5 | cr4_6 | cr4_7 | cr4_8 | reserved (code : Byte)
  deriving DecidableEq, Repr

/-- 40_bitfield_codec.md R176. -/
inductive HeaderType where
  | explicit | implicit | reserved (code : Byte)
  deriving DecidableEq, Repr

/-- 40_bitfield_codec.md R177. -/
inductive InvertIq where
  | standard | inverted | reserved (code : Byte)
  deriving DecidableEq, Repr

/-- 40_bitfield_codec.md R178. -/
inductive RampTime where
  | ramp10us | ramp20us | ramp40us | ramp80us | ramp200us | ramp800us | ramp1700us | ramp3400us
  | reserved (code : Byte)
  deriving DecidableEq, Repr

/-- 40_bitfield_codec.md R179. -/
inductive TcxoVoltage where
  | v1_6 | v1_7 | v1_8 | v2_2 | v2_4 | v2_7 | v3_0 | v3_3 | reserved (code : Byte)
  deriving DecidableEq, Repr

/-- 40_bitfield_codec.md R180: all eight 3-bit codes. -/
inductive ChipMode where
  | unused | rfu1 | stbyRc | stbyXosc | fs | rx | tx | rfu7
  deriving DecidableEq, Repr

/-- 40_bitfield_codec.md R181: all eight 3-bit codes. -/
inductive CommandStatus where
  | reserved0 | rfu1 | dataAvailable | commandTimeout | commandProcessingError | failureToExecute | commandTxDone
  | rfu7
  deriving DecidableEq, Repr

/-- The enumerations of 40_bitfield_codec.md R170. -/
inductive EnumId where
  | standbyConfig | packetType | spreadingFactor | bandwidth | codingRate | headerType | invertIq | rampTime
  | tcxoVoltage | chipMode | commandStatus
  deriving DecidableEq, Repr

/-- A member of some enumeration. -/
inductive Member where
  | standbyConfig (m : StandbyConfig) | packetType (m : PacketType) | spreadingFactor (m : SpreadingFactor)
  | bandwidth (m : Bandwidth) | codingRate (m : CodingRate) | headerType (m : HeaderType) | invertIq (m : InvertIq)
  | rampTime (m : RampTime) | tcxoVoltage (m : TcxoVoltage) | chipMode (m : ChipMode)
  | commandStatus (m : CommandStatus)
  deriving DecidableEq, Repr

/-! ## Bitfield types (40_bitfield_codec.md R141) -/

/-- The order convention of a bitfield type (40_bitfield_codec.md R141, R142). -/
inductive BitOrder where
  | msbFirst | lsbFirst
  deriving DecidableEq, Repr

/-- The type of a bitfield field (40_bitfield_codec.md R141). -/
inductive FieldType where
  | bool | uint
  deriving DecidableEq, Repr

/-- Field names: those of the concrete types (40_bitfield_codec.md R160 to R164), and `other` for any type a host declares. -/
inductive FieldName where
  | rtcWakeup | warmStart
  | commandStatus | chipMode
  | txDone | rxDone | preambleDetected | syncWordValid | headerValid | headerErr | crcErr | cadDone | cadDetected
  | timeout | lrFhssHop
  | rc64kCalibErr | rc13mCalibErr | pllCalibErr | adcCalibErr | imgCalibErr | xoscStartErr | pllLockErr | paRampErr
  | other (id : Nat)
  deriving DecidableEq, Repr

/-- One entry of a declaration list (40_bitfield_codec.md R141). -/
inductive BFEntry where
  | field (name : FieldName) (width : Nat) (ty : FieldType)
  | reserved (width : Nat)
  deriving DecidableEq, Repr

/-- A bitfield type: the triple `(W, ORD, DECL)` of 40_bitfield_codec.md R141. -/
structure BFType where
  width : Nat
  order : BitOrder
  decl  : List BFEntry
  deriving DecidableEq, Repr

/-- The value of one field: a Boolean or a natural (40_bitfield_codec.md R144, R145). -/
inductive FieldVal where
  | flag (b : Bool)
  | uint (n : Nat)
  deriving DecidableEq, Repr

/-! ## Register types (42_register_access.md R230) -/

/-- The two conversions of a register type (42_register_access.md R230, R231). `plain`: the value type is a byte.
`bits T`: it is the 8-bit bitfield type `T`. `table`: any other value type, its values numbered from 0; entry `v` of
`enc` is the byte of value `v`, entry `b` of `dec` the value of byte `b`. Since `dec (enc v) = v` a value type has at
most 256 values, so `table` is no restriction. -/
inductive RegConv where
  | plain
  | bits (T : BFType)
  | table (enc : List Byte) (dec : List Nat)
  deriving DecidableEq, Repr

/-- A register type: a fixed 16-bit address and its conversions (42_register_access.md R230). -/
structure RegType where
  addr : Word16
  conv : RegConv
  deriving DecidableEq, Repr

end Sys2Proof
end

