-- ==== Sys2Proof/Syntax.lean ====
section
/-!
DEFINITION. The instructions of the block: the 28 command kinds with the typed operands of their constructors
(30_encoding.md R110). An unsigned operand is any natural and the power any integer: the meaning narrows them
(30_encoding.md R102, R103). A bitfield operand is the natural of 40_bitfield_codec.md R141.
-/

namespace Sys2Proof

/-- One constructor per row of spec/opcode_table.json, in the table's order. The docstrings name each row's rule. -/
inductive Instr where
  /-- 43_fixed_commands.md R263 -/
  | resetStats
  /-- 43_fixed_commands.md R264 -/
  | clearIrqStatus (mask : Nat)
  /-- 43_fixed_commands.md R265 -/
  | setStandby (config : StandbyConfig)
  /-- 43_fixed_commands.md R266 -/
  | setRx (timeout : Nat)
  /-- 43_fixed_commands.md R267 -/
  | setTx (timeout : Nat)
  /-- 43_fixed_commands.md R268 -/
  | setSleep (config : Nat)
  /-- 43_fixed_commands.md R269 -/
  | setRfFrequency (freqWord : Nat)
  /-- 43_fixed_commands.md R270 -/
  | setPacketType (packetType : PacketType)
  /-- 43_fixed_commands.md R271 -/
  | setModulationParamsLora (sf : SpreadingFactor) (bw : Bandwidth) (cr : CodingRate) (lowDataRateOptimize : Bool)
  /-- 43_fixed_commands.md R272 -/
  | setPacketParams (preambleLength : Nat) (headerType : HeaderType) (payloadLength : Nat) (crcOn : Bool)
      (invertIq : InvertIq)
  /-- 43_fixed_commands.md R273 -/
  | setTxParams (power : Int) (rampTime : RampTime)
  /-- 43_fixed_commands.md R274 -/
  | setBufferBaseAddress (txBase rxBase : Nat)
  /-- 42_register_access.md R233, in the datapath form of R232 -/
  | writeRegister (addr : Nat) (byte : Byte)
  /-- 44_variable_commands.md R331 -/
  | writeBuffer (cap offset : Nat) (data : List Byte)
  /-- 43_fixed_commands.md R275 -/
  | getStatus
  /-- 43_fixed_commands.md R276 -/
  | getPacketType
  /-- 43_fixed_commands.md R277 -/
  | getIrqStatus
  /-- 43_fixed_commands.md R278 -/
  | getRxBufferStatus
  /-- 43_fixed_commands.md R279 -/
  | getPacketStatusLora
  /-- 43_fixed_commands.md R280 -/
  | getDeviceErrors
  /-- 42_register_access.md R235, in the datapath form of R232 -/
  | readRegister (addr : Nat)
  /-- 44_variable_commands.md R340 -/
  | readBuffer (cap offset : Nat)
  /-- 43_fixed_commands.md R281 -/
  | clearDeviceErrors
  /-- 43_fixed_commands.md R282 -/
  | setDioIrqParams (irqMask dio1Mask dio2Mask dio3Mask : Nat)
  /-- 43_fixed_commands.md R283 -/
  | getStatsLora
  /-- 43_fixed_commands.md R284 -/
  | setLoraSymbNumTimeout (symbNum : Nat)
  /-- 43_fixed_commands.md R285 -/
  | setDio2AsRfSwitchCtrl (enable : Bool)
  /-- 43_fixed_commands.md R286 -/
  | setDio3AsTcxoCtrl (voltage : TcxoVoltage) (delay : Nat)
  deriving DecidableEq, Repr

end Sys2Proof
end

