-- ==== Sys2Proof/Syntax/Requests.lean ====
section
/-!
DEFINITION. The host operation set of 30_encoding.md R130 as an inductive operation type ("A model represents them as the
constructors of an operation type"), and the events of the two ports (00_scope.md R5).
-/

namespace Sys2Proof

/-- The accessors of slots: read-backs of OUT (43_fixed_commands.md R262, 42_register_access.md R237,
44_variable_commands.md R334, R344) and decoders of IN (45_decoders.md R375 to R381, 42_register_access.md R236,
44_variable_commands.md R345). `config`, `timeout`, `packetType`, `address`, `offset` and `dataLength` each serve two kinds. -/
inductive Accessor where
  | mask | config | timeout | freqWord | packetType | sf | bw | cr | lowDataRateOptimize
  | preambleLength | headerType | payloadLength | crcOn | invertIq | power | rampTime | txBase | rxBase
  | irqMask | dio1Mask | dio2Mask | dio3Mask | symbNum | enable | voltage | delay
  | address | rawValue | value | valueAs (reg : RegType)
  | dataLength | offset | payload | data
  | status | chipMode | commandStatus | irqStatus | payloadLengthRx | rxStartBufferPointer
  | rssiPkt | snrPkt | signalRssiPkt | opError | nbPktReceived | nbPktCrcError | nbPktHeaderErr
  deriving DecidableEq, Repr

/-- The pure functions of the port: no slot, no state (30_encoding.md R130, last rows). -/
inductive PureCall where
  /-- 40_bitfield_codec.md R143 -/
  | bfZero (T : BFType)
  /-- 40_bitfield_codec.md R144 -/
  | bfWith (T : BFType) (v : Nat) (f : FieldName) (x : FieldVal)
  /-- 40_bitfield_codec.md R145 -/
  | bfGet (T : BFType) (v : Nat) (f : FieldName)
  /-- 40_bitfield_codec.md R146 -/
  | bfToRaw (T : BFType) (v : Nat)
  /-- 40_bitfield_codec.md R147 -/
  | bfFromRaw (T : BFType) (r : Nat)
  /-- 40_bitfield_codec.md R168 -/
  | encEnum (m : Member)
  /-- 40_bitfield_codec.md R169 -/
  | decEnum (E : EnumId) (b : Byte)
  /-- 42_register_access.md R230 -/
  | regEnc (reg : RegType) (v : Nat)
  /-- 42_register_access.md R230 -/
  | regDec (reg : RegType) (b : Byte)
  deriving DecidableEq, Repr

/-- The operations of the host request port (30_encoding.md R130), and the two the model adds (log entry 29). -/
inductive HostOp where
  /-- `<Kind>(...)`: construct a slot (each kind's rule) -/
  | construct (i : Instr)
  /-- construct a slot from a frame through the frame decoder (30_encoding.md R112, R117). DESIGN CHOICE: R130 lists no such
  operation; the model adds it to load a program (log entry 29) -/
  | constructFrame (frame : List Byte)
  /-- `WriteRegister(reg, value)` in its typed form (42_register_access.md R232, R233) -/
  | writeRegisterOf (reg : RegType) (v : Nat)
  /-- `ReadRegister(reg)` in its typed form (42_register_access.md R232, R235) -/
  | readRegisterOf (reg : RegType)
  /-- 41_command_contract.md R200 -/
  | opcode (s : Handle)
  /-- 41_command_contract.md R201 -/
  | outbound (s : Handle)
  /-- 41_command_contract.md R202 -/
  | inbound (s : Handle)
  /-- 41_command_contract.md R203 -/
  | tlen (s : Handle)
  /-- 41_command_contract.md R210 -/
  | submit (s : Handle)
  /-- 44_variable_commands.md R333, R343 -/
  | setDlen (s : Handle) (n : Nat)
  /-- `s.<accessor>()` -/
  | access (s : Handle) (a : Accessor)
  /-- 70_reset_and_hazards.md R464 -/
  | drop (s : Handle)
  /-- a pure function -/
  | pure (f : PureCall)
  /-- the frame classifier (30_encoding.md R112). DESIGN CHOICE: R130 lists no such operation; the model adds it as one that
  returns the kind (log entry 29) -/
  | classify (b : Byte)
  deriving DecidableEq, Repr

/-- What happens next at one of the block's two ports (00_scope.md R5). -/
inductive Event where
  /-- a host operation -/
  | host (op : HostOp)
  /-- `COMPLETE s bytes`, the transport's step; the bytes are any reply (41_command_contract.md R211) -/
  | complete (s : Handle) (bytes : List Byte)
  deriving DecidableEq, Repr

end Sys2Proof
end

