-- ==== Sys2Proof/Config.lean ====
section
/-!
DEFINITION. The configuration: the open parameters of 00_scope.md R6 that are constants of a run
(10_state.md R46, 70_reset_and_hazards.md R467), and the values the spec leaves unstated. The capacities CAP_WB and CAP_RB
are operands of their constructors. The default values stand in Sys2Proof/Machine/Layout.lean and Enums.lean.
-/

namespace Sys2Proof

/-- `ENUM_W`, one width for each enumeration whose width is open (40_bitfield_codec.md R170). -/
structure EnumWidths where
  standbyConfig   : Nat
  packetType      : Nat
  spreadingFactor : Nat
  bandwidth       : Nat
  codingRate      : Nat
  headerType      : Nat
  invertIq        : Nat
  rampTime        : Nat
  tcxoVoltage     : Nat
  deriving DecidableEq, Repr

/-- `CMD_LAYOUT` (00_scope.md R6; 92_eei_decisions.md D7 and D8): the first byte of every field whose place in its frame is
open, and the bitfield types. A field that its frame has room for at one place only, or that a source vector pins, has no entry
(log entry 3). -/
structure CmdLayout where
  -- Positions in OUT: SetModulationParamsLora, SetPacketParams, SetTxParams, SetBufferBaseAddress, SetDioIrqParams,
  -- SetDio3AsTcxoCtrl.
  sf                  : Nat
  bw                  : Nat
  cr                  : Nat
  lowDataRateOptimize : Nat
  preambleLength      : Nat
  headerType          : Nat
  payloadLength       : Nat
  crcOn               : Nat
  invertIq            : Nat
  power               : Nat
  rampTime            : Nat
  txBase              : Nat
  rxBase              : Nat
  irqMask             : Nat
  dio1Mask            : Nat
  dio2Mask            : Nat
  dio3Mask            : Nat
  voltage             : Nat
  delay               : Nat
  -- Positions in IN: GetPacketType, GetIrqStatus, GetRxBufferStatus, GetDeviceErrors, GetStatsLora.
  packetType           : Nat
  irqStatus            : Nat
  payloadLengthRx      : Nat
  rxStartBufferPointer : Nat
  opError              : Nat
  nbPktReceived        : Nat
  nbPktCrcError        : Nat
  nbPktHeaderErr       : Nat
  -- The bitfield types; `Irq` with bit 14 reserved, and with it named (40_bitfield_codec.md R163).
  sleepConfigType : BFType
  statusType      : BFType
  irqType         : BFType
  irqTypeBit14    : BFType
  opErrorType     : BFType
  deriving DecidableEq, Repr

/-- The configuration of a run. -/
structure Config where
  /-- `IRQ_BIT14_NAMED` (40_bitfield_codec.md R163). -/
  irqBit14Named : Bool
  /-- `ENUM_W` (40_bitfield_codec.md R170). -/
  enumWidths    : EnumWidths
  /-- `CMD_LAYOUT` (43_fixed_commands.md, 45_decoders.md). -/
  layout        : CmdLayout
  /-- `REG_SET` (42_register_access.md R230). -/
  regSet        : List RegType
  deriving DecidableEq, Repr

/-! ## Unstated values

None has a body, so nothing is known of its values. Those that stand in pure functions are functions of the operands
(40_bitfield_codec.md R140, 42_register_access.md R230; log entries 16 and 27). -/

/-- The XLEN of a slot right after construction, before it is cut to CAP: "unspecified" (10_state.md R43,
70_reset_and_hazards.md R462). One value for each handle, and no handle is given out twice (log entry 9). -/
opaque Config.freeXlen : Handle → Nat

/-- The byte of a term that is no member at the width `ENUM_W`. -/
opaque Config.freeCode : EnumWidths → Member → Byte

/-- What a bitfield function gives on operands that are no type, value or field. -/
opaque Config.freeBits : PureCall → Nat

/-- The byte a register type outside REG_SET, or a value outside its value type, encodes to. -/
opaque Config.freeRegByte : List RegType → RegType → Nat → Byte

/-- The value a byte decodes to under a register type outside REG_SET. -/
opaque Config.freeRegValue : List RegType → RegType → Byte → Nat

end Sys2Proof
end

