-- ==== Sys2Proof/Machine/Operands.lean ====
section
/-!
DEFINITION. The operand forms of 30_encoding.md section 2, each direction once: narrowing and byte order (00_scope.md
R8, R9; 20_memory.md R74, R75), signed and Boolean bytes.
-/

namespace Sys2Proof.Machine

/-- `mask(w) = 2^w - 1` (00_scope.md R8). -/
def maskBits (w : Nat) : Nat := 2 ^ w - 1

/-- `trunc_w(v) = v mod 2^w`, the silent narrowing of 00_scope.md R8 and 30_encoding.md R102. -/
def trunc (w v : Nat) : Nat := v % 2 ^ w

/-- `~m` at width `w` (00_scope.md R8). -/
def complBits (w m : Nat) : Nat := maskBits w ^^^ trunc w m

/-- `trunc_8(v)` as a byte: the 8-bit form of 30_encoding.md R102. -/
def byteOf (v : Nat) : Byte := BitVec.ofNat 8 v

/-- `BE16` (00_scope.md R9). -/
def be16 (v : Nat) : List Byte := [byteOf (v >>> 8), byteOf v]

/-- `BE24` (00_scope.md R9). -/
def be24 (v : Nat) : List Byte := [byteOf (v >>> 16), byteOf (v >>> 8), byteOf v]

/-- `BE32` (00_scope.md R9). -/
def be32 (v : Nat) : List Byte := [byteOf (v >>> 24), byteOf (v >>> 16), byteOf (v >>> 8), byteOf v]

/-- The big-endian natural of bytes: the first is the most significant (20_memory.md R75, 30_encoding.md R102). On two
bytes it is `unBE16` of 00_scope.md R9. -/
def beNat (bs : List Byte) : Nat := bs.foldl (fun acc b => acc * 256 + b.toNat) 0

/-- The byte of a one-byte field. -/
def theByte (bs : List Byte) : Byte := byteOf (beNat bs)

/-- `sext_8` (00_scope.md R8). -/
def sext8 (b : Byte) : Int := if b.toNat < 128 then (b.toNat : Int) else (b.toNat : Int) - 256

/-- The two's-complement byte `x mod 256` (30_encoding.md R103). -/
def signedByte (x : Int) : Byte := BitVec.ofNat 8 (x % 256).toNat

/-- `quot`: division truncated toward zero (00_scope.md R8). -/
def quotInt (a b : Int) : Int := Int.tdiv a b

/-- A Boolean byte, outbound (30_encoding.md R107). -/
def boolByte (b : Bool) : Byte := if b then 0x01#8 else 0x00#8

/-- A Boolean byte, read back: bit 0 (30_encoding.md R107). -/
def byteBool (b : Byte) : Bool := b.toNat % 2 == 1

/-- The dummy, NOP or placeholder byte (30_encoding.md R104). -/
def dummyByte : Byte := 0x00#8

/-- `n` dummy bytes (30_encoding.md R104). -/
def dummies (n : Nat) : List Byte := List.replicate n dummyByte

end Sys2Proof.Machine
end

