-- ==== Sys2Proof/Machine/Bitfield.lean ====
section
/-!
DEFINITION. The bitfield codec (40_bitfield_codec.md R140 to R151), generic in the bitfield type. Everything here is a total
pure function (R140). The concrete types stand in Machine/Layout.lean.
-/

namespace Sys2Proof.Machine

/-- The declared width of an entry. -/
def entryWidth : BFEntry → Nat
  | .field _ w _ => w
  | .reserved w => w

/-- An entry is legal: `wd >= 1`, and 1 for a Boolean (40_bitfield_codec.md R141). -/
def entryOk : BFEntry → Bool
  | .field _ w .bool => w == 1
  | .field _ w .uint => decide (1 ≤ w)
  | .reserved w => decide (1 ≤ w)

/-- The field names of a declaration list, in order. -/
def fieldNames (decl : List BFEntry) : List FieldName :=
  decl.filterMap fun
    | .field n _ _ => some n
    | .reserved _ => none

/-- A legal bitfield type (40_bitfield_codec.md R141): width 8 or 16, legal entries, distinct names, widths that sum to `W`. -/
def bfTypeOk (T : BFType) : Bool :=
  (T.width == 8 || T.width == 16) && T.decl.all entryOk && decide (fieldNames T.decl).Nodup &&
    (T.decl.map entryWidth).sum == T.width

/-- Entries with their offsets, first entry lowest: `off(e_i) = sum_{j<i} wd(e_j)` (40_bitfield_codec.md R142). -/
def placeLsb : Nat → List BFEntry → List (BFEntry × Nat)
  | _, [] => []
  | lo, e :: es => (e, lo) :: placeLsb (lo + entryWidth e) es

/-- Entries with their offsets, first entry highest: `off(e_i) = W - sum_{j<=i} wd(e_j)` (40_bitfield_codec.md R142). -/
def placeMsb : Nat → List BFEntry → List (BFEntry × Nat)
  | _, [] => []
  | hi, e :: es => (e, hi - entryWidth e) :: placeMsb (hi - entryWidth e) es

/-- The entries of a type with their offsets (40_bitfield_codec.md R142). -/
def placed (T : BFType) : List (BFEntry × Nat) :=
  match T.order with
  | .lsbFirst => placeLsb 0 T.decl
  | .msbFirst => placeMsb T.width T.decl

/-- `fmask = mask(wd) << off` (40_bitfield_codec.md R142). -/
def fieldMask (wd off : Nat) : Nat := maskBits wd <<< off

/-- `RMASK(T)`: the union of the masks of the reserved entries (40_bitfield_codec.md R142). -/
def reservedMask (T : BFType) : Nat :=
  (placed T).foldr (fun p acc =>
    match p with
    | (.reserved w, off) => fieldMask w off ||| acc
    | (.field _ _ _, _) => acc) 0

/-- Where a field lies: width, type and offset. -/
structure FieldPlace where
  width  : Nat
  ty     : FieldType
  offset : Nat
  deriving DecidableEq, Repr

/-- The place of field `f` in a placed declaration list. -/
def findField (f : FieldName) : List (BFEntry × Nat) → Option FieldPlace
  | [] => none
  | (.field n w ty, off) :: ps => if n = f then some ⟨w, ty, off⟩ else findField f ps
  | (.reserved _, _) :: ps => findField f ps

/-- The place of field `f` of `T`; none where `T` has no such field. -/
def fieldPlace (T : BFType) (f : FieldName) : Option FieldPlace := findField f (placed T)

/-- `v` is a value of type `T`: below `2^W`, reserved bits 0 (40_bitfield_codec.md R141, R148). -/
def isBFValue (T : BFType) (v : Nat) : Bool := decide (v < 2 ^ T.width) && v &&& reservedMask T == 0

/-- The natural written for a field value: 1 or 0 for a Boolean (40_bitfield_codec.md R144). -/
def fieldValNat : FieldVal → Nat
  | .flag b => if b then 1 else 0
  | .uint n => n

/-- The field value of the bits read (40_bitfield_codec.md R145). -/
def natFieldVal : FieldType → Nat → FieldVal
  | .bool, r => .flag (r == 1)
  | .uint, r => .uint r

/-- A field value of the field's type (40_bitfield_codec.md R144). -/
def fieldValOk : FieldType → FieldVal → Bool
  | .bool, .flag _ => true
  | .uint, .uint _ => true
  | .bool, .uint _ => false
  | .uint, .flag _ => false

/-- `BF.ZERO(T)` (40_bitfield_codec.md R143). -/
def bfZero (_ : BFType) : Nat := 0

/-- `BF.WITH(v, f, x)` at a known place (40_bitfield_codec.md R144). -/
def setBits (W : Nat) (v : Nat) (p : FieldPlace) (x : Nat) : Nat :=
  (v &&& complBits W (fieldMask p.width p.offset)) ||| (trunc p.width x <<< p.offset)

/-- `(v >> off) & mask(wd)`, the bits read by `BF.GET` (40_bitfield_codec.md R145). -/
def getBits (v : Nat) (p : FieldPlace) : Nat := (v >>> p.offset) &&& maskBits p.width

/-- `BF.WITH(v, f, x)` (40_bitfield_codec.md R144). A name that is no field of `T` has no mutator: the value stays. -/
def bfWith (T : BFType) (v : Nat) (f : FieldName) (x : FieldVal) : Nat :=
  match fieldPlace T f with
  | some p => setBits T.width v p (fieldValNat x)
  | none => v

/-- `BF.GET(v, f)` (40_bitfield_codec.md R145); none where `T` has no field `f`. -/
def bfGet (T : BFType) (v : Nat) (f : FieldName) : Option FieldVal :=
  (fieldPlace T f).map fun p => natFieldVal p.ty (getBits v p)

/-- `BF.TO_RAW(v) = v` (40_bitfield_codec.md R146). -/
def bfToRaw (_ : BFType) (v : Nat) : Nat := v

/-- `BF.FROM_RAW(r) = trunc_W(r) & ~RMASK(T)` (40_bitfield_codec.md R147). -/
def bfFromRaw (T : BFType) (r : Nat) : Nat := trunc T.width r &&& complBits T.width (reservedMask T)

/-- The integer serialized for a bitfield operand (30_encoding.md R105): `BF.TO_RAW` of the operand "truncated or masked
to its field" (70_reset_and_hazards.md R463). On a value of the type it is `BF.TO_RAW(v)` (log entry 18). -/
def bfOperand (T : BFType) (v : Nat) : Nat := bfToRaw T (bfFromRaw T v)

end Sys2Proof.Machine
end

