-- ==== Sys2Proof/Machine/Layout.lean ====
section
/-!
DEFINITION. CMD_LAYOUT (00_scope.md R6; 43_fixed_commands.md, 45_decoders.md, 40_bitfield_codec.md section 2): the frames and
fields it places, the legal layouts, and the default one.
-/

namespace Sys2Proof.Machine

/-! ## The concrete bitfield types, at the default layout -/

/-- A Boolean field entry. -/
def flagEntry (f : FieldName) : BFEntry := .field f 1 .bool

/-- `SleepConfig` (40_bitfield_codec.md R160). -/
def sleepConfigType : BFType :=
  ⟨8, .lsbFirst, [flagEntry .rtcWakeup, .reserved 1, flagEntry .warmStart, .reserved 5]⟩

/-- `Status` (40_bitfield_codec.md R161). -/
def statusType : BFType :=
  ⟨8, .lsbFirst, [.reserved 1, .field .commandStatus 3 .uint, .field .chipMode 3 .uint, .reserved 1]⟩

/-- `Irq` (40_bitfield_codec.md R162); `bit14Named` is IRQ_BIT14_NAMED (R163). -/
def irqType (bit14Named : Bool) : BFType :=
  ⟨16, .lsbFirst,
    [flagEntry .txDone, flagEntry .rxDone, flagEntry .preambleDetected, flagEntry .syncWordValid,
      flagEntry .headerValid, flagEntry .headerErr, flagEntry .crcErr, flagEntry .cadDone, flagEntry .cadDetected,
      flagEntry .timeout, .reserved 4, if bit14Named then flagEntry .lrFhssHop else .reserved 1, .reserved 1]⟩

/-- `OpError` (40_bitfield_codec.md R164). -/
def opErrorType : BFType :=
  ⟨16, .lsbFirst,
    [flagEntry .rc64kCalibErr, flagEntry .rc13mCalibErr, flagEntry .pllCalibErr, flagEntry .adcCalibErr,
      flagEntry .imgCalibErr, flagEntry .xoscStartErr, flagEntry .pllLockErr, .reserved 1, flagEntry .paRampErr,
      .reserved 7]⟩

/-- `Irq` under the configuration (40_bitfield_codec.md R162, R163). -/
def irqTypeOf (cfg : Config) : BFType := if cfg.irqBit14Named then cfg.layout.irqTypeBit14 else cfg.layout.irqType

/-- The default layout: 43_fixed_commands.md R271 to R274, R282, R286; 45_decoders.md R376 to R378, R380, R381; the types of
40_bitfield_codec.md R160 to R164. -/
def defaultLayout : CmdLayout :=
  { sf := 1, bw := 2, cr := 3, lowDataRateOptimize := 4
    preambleLength := 1, headerType := 3, payloadLength := 4, crcOn := 5, invertIq := 6
    power := 1, rampTime := 2
    txBase := 1, rxBase := 2
    irqMask := 1, dio1Mask := 3, dio2Mask := 5, dio3Mask := 7
    voltage := 1, delay := 2
    packetType := 2, irqStatus := 2, payloadLengthRx := 2, rxStartBufferPointer := 3, opError := 2
    nbPktReceived := 2, nbPktCrcError := 4, nbPktHeaderErr := 6
    sleepConfigType := sleepConfigType, statusType := statusType, irqType := irqType false, irqTypeBit14 := irqType true
    opErrorType := opErrorType }

/-! ## Placing fields -/

/-- Consecutive bytes written from an index on; bytes beyond the end fall away. -/
def putBytes (body : List Byte) (i : Nat) : List Byte → List Byte
  | [] => body
  | b :: bs => putBytes (body.set i b) (i + 1) bs

/-- The bytes after the opcode: each field (position in OUT, bytes) written into dummies (30_encoding.md R104). -/
def layBody (cap : Nat) (fields : List (Nat × List Byte)) : List Byte :=
  fields.foldl (fun body f => putBytes body (f.1 - 1) f.2) (dummies (cap - 1))

/-- A frame of `cap` bytes: the opcode, and the fields at their positions (30_encoding.md R100, R101). -/
def layFrame (op : Byte) (cap : Nat) (fields : List (Nat × List Byte)) : List Byte := op :: layBody cap fields

/-- The `w` bytes at position `p` of OUT, from the bytes after the opcode. -/
def fieldAt (body : List Byte) (p w : Nat) : List Byte := (body.drop (p - 1)).take w

/-! ## Legal layouts -/

/-- The fields (position, width) lie in 1..cap-1 and share no byte. -/
def fieldsFit (cap : Nat) (fields : List (Nat × Nat)) : Bool :=
  fields.all (fun f => decide (1 ≤ f.1) && decide (f.1 + f.2 ≤ cap)) &&
    decide (fields.Pairwise fun f g => f.1 + f.2 ≤ g.1 ∨ g.1 + g.2 ≤ f.1)

/-- `T` is a legal type of width `w` whose fields are exactly `fields`, in any order, at any offsets. -/
def typeHas (T : BFType) (w : Nat) (fields : List (FieldName × Nat × FieldType)) : Bool :=
  bfTypeOk T && T.width == w &&
    fields.all (fun f => (fieldPlace T f.1).any fun p => p.width == f.2.1 && p.ty == f.2.2) &&
    (fieldNames T.decl).all fun n => (fields.map Prod.fst).contains n

/-- The ten named bits of `Irq` (40_bitfield_codec.md R162). -/
def irqFields : List (FieldName × Nat × FieldType) :=
  [(.txDone, 1, .bool), (.rxDone, 1, .bool), (.preambleDetected, 1, .bool), (.syncWordValid, 1, .bool),
    (.headerValid, 1, .bool), (.headerErr, 1, .bool), (.crcErr, 1, .bool), (.cadDone, 1, .bool), (.cadDetected, 1, .bool),
    (.timeout, 1, .bool)]

/-- The eight named bits of `OpError` (40_bitfield_codec.md R164). -/
def opErrorFields : List (FieldName × Nat × FieldType) :=
  [(.rc64kCalibErr, 1, .bool), (.rc13mCalibErr, 1, .bool), (.pllCalibErr, 1, .bool), (.adcCalibErr, 1, .bool),
    (.imgCalibErr, 1, .bool), (.xoscStartErr, 1, .bool), (.pllLockErr, 1, .bool), (.paRampErr, 1, .bool)]

/-- The bit layouts are legal. Warm start is bit 2 (R160, pinned); bit 14 of `Irq` is as R163 says. -/
def typesOk (L : CmdLayout) : Bool :=
  typeHas L.sleepConfigType 8 [(.rtcWakeup, 1, .bool), (.warmStart, 1, .bool)] &&
    decide (fieldPlace L.sleepConfigType .warmStart = some ⟨1, .bool, 2⟩) &&
    typeHas L.statusType 8 [(.commandStatus, 3, .uint), (.chipMode, 3, .uint)] &&
    typeHas L.irqType 16 irqFields && (reservedMask L.irqType).testBit 14 &&
    typeHas L.irqTypeBit14 16 (irqFields ++ [(.lrFhssHop, 1, .bool)]) &&
    decide (fieldPlace L.irqTypeBit14 .lrFhssHop = some ⟨1, .bool, 14⟩) &&
    typeHas L.opErrorType 16 opErrorFields

/-- A legal CMD_LAYOUT: in every frame the fields lie within the length of R110 at indices from 1 on, apart from each other. -/
def layoutOk (L : CmdLayout) : Bool :=
  fieldsFit 5 [(L.sf, 1), (L.bw, 1), (L.cr, 1), (L.lowDataRateOptimize, 1)] &&
    fieldsFit 7 [(L.preambleLength, 2), (L.headerType, 1), (L.payloadLength, 1), (L.crcOn, 1), (L.invertIq, 1)] &&
    fieldsFit 3 [(L.power, 1), (L.rampTime, 1)] &&
    fieldsFit 3 [(L.txBase, 1), (L.rxBase, 1)] &&
    fieldsFit 9 [(L.irqMask, 2), (L.dio1Mask, 2), (L.dio2Mask, 2), (L.dio3Mask, 2)] &&
    fieldsFit 5 [(L.voltage, 1), (L.delay, 3)] &&
    fieldsFit 3 [(L.packetType, 1)] && fieldsFit 4 [(L.irqStatus, 2)] &&
    fieldsFit 4 [(L.payloadLengthRx, 1), (L.rxStartBufferPointer, 1)] && fieldsFit 4 [(L.opError, 2)] &&
    fieldsFit 8 [(L.nbPktReceived, 2), (L.nbPktCrcError, 2), (L.nbPktHeaderErr, 2)] && typesOk L

end Sys2Proof.Machine
end

