-- ==== Sys2Proof/Machine/Enums.lean ====
section
/-!
DEFINITION. The enumeration codec (40_bitfield_codec.md R168, R169), the code tables (R171 to R181) and the default
configuration (00_scope.md R6). A code table is total: a code the table does not name is a `reserved` member.
-/

namespace Sys2Proof.Machine

/-! ## Code tables -/

/-- 40_bitfield_codec.md R171. -/
def codeStandbyConfig : StandbyConfig → Byte
  | .stdbyRc => 0x00#8
  | .stdbyXosc => 0x01#8
  | .reserved c => c

/-- 40_bitfield_codec.md R171. -/
def ofCodeStandbyConfig (c : Byte) : StandbyConfig :=
  match c.toNat with
  | 0 => .stdbyRc
  | 1 => .stdbyXosc
  | _ => .reserved c

/-- 40_bitfield_codec.md R172. -/
def codePacketType : PacketType → Byte
  | .gfsk => 0x00#8
  | .loRa => 0x01#8
  | .reserved2 => 0x02#8
  | .code3 => 0x03#8
  | .reserved c => c

/-- 40_bitfield_codec.md R172. -/
def ofCodePacketType (c : Byte) : PacketType :=
  match c.toNat with
  | 0 => .gfsk
  | 1 => .loRa
  | 2 => .reserved2
  | 3 => .code3
  | _ => .reserved c

/-- 40_bitfield_codec.md R173. -/
def codeSpreadingFactor : SpreadingFactor → Byte
  | .sf5 => 0x05#8
  | .sf6 => 0x06#8
  | .sf7 => 0x07#8
  | .sf8 => 0x08#8
  | .sf9 => 0x09#8
  | .sf10 => 0x0A#8
  | .sf11 => 0x0B#8
  | .sf12 => 0x0C#8
  | .reserved c => c

/-- 40_bitfield_codec.md R173. -/
def ofCodeSpreadingFactor (c : Byte) : SpreadingFactor :=
  match c.toNat with
  | 5 => .sf5
  | 6 => .sf6
  | 7 => .sf7
  | 8 => .sf8
  | 9 => .sf9
  | 10 => .sf10
  | 11 => .sf11
  | 12 => .sf12
  | _ => .reserved c

/-- 40_bitfield_codec.md R174. -/
def codeBandwidth : Bandwidth → Byte
  | .bw7 => 0x00#8
  | .bw10 => 0x08#8
  | .bw15 => 0x01#8
  | .bw20 => 0x09#8
  | .bw31 => 0x02#8
  | .bw41 => 0x0A#8
  | .bw62 => 0x03#8
  | .bw125 => 0x04#8
  | .bw250 => 0x05#8
  | .bw500 => 0x06#8
  | .reserved c => c

/-- 40_bitfield_codec.md R174. -/
def ofCodeBandwidth (c : Byte) : Bandwidth :=
  match c.toNat with
  | 0x00 => .bw7
  | 0x08 => .bw10
  | 0x01 => .bw15
  | 0x09 => .bw20
  | 0x02 => .bw31
  | 0x0A => .bw41
  | 0x03 => .bw62
  | 0x04 => .bw125
  | 0x05 => .bw250
  | 0x06 => .bw500
  | _ => .reserved c

/-- 40_bitfield_codec.md R175. -/
def codeCodingRate : CodingRate → Byte
  | .cr4_5 => 0x01#8
  | .cr4_6 => 0x02#8
  | .cr4_7 => 0x03#8
  | .cr4_8 => 0x04#8
  | .reserved c => c

/-- 40_bitfield_codec.md R175. -/
def ofCodeCodingRate (c : Byte) : CodingRate :=
  match c.toNat with
  | 1 => .cr4_5
  | 2 => .cr4_6
  | 3 => .cr4_7
  | 4 => .cr4_8
  | _ => .reserved c

/-- 40_bitfield_codec.md R176. -/
def codeHeaderType : HeaderType → Byte
  | .explicit => 0x00#8
  | .implicit => 0x01#8
  | .reserved c => c

/-- 40_bitfield_codec.md R176. -/
def ofCodeHeaderType (c : Byte) : HeaderType :=
  match c.toNat with
  | 0 => .explicit
  | 1 => .implicit
  | _ => .reserved c

/-- 40_bitfield_codec.md R177. -/
def codeInvertIq : InvertIq → Byte
  | .standard => 0x00#8
  | .inverted => 0x01#8
  | .reserved c => c

/-- 40_bitfield_codec.md R177. -/
def ofCodeInvertIq (c : Byte) : InvertIq :=
  match c.toNat with
  | 0 => .standard
  | 1 => .inverted
  | _ => .reserved c

/-- 40_bitfield_codec.md R178. -/
def codeRampTime : RampTime → Byte
  | .ramp10us => 0x00#8
  | .ramp20us => 0x01#8
  | .ramp40us => 0x02#8
  | .ramp80us => 0x03#8
  | .ramp200us => 0x04#8
  | .ramp800us => 0x05#8
  | .ramp1700us => 0x06#8
  | .ramp3400us => 0x07#8
  | .reserved c => c

/-- 40_bitfield_codec.md R178. -/
def ofCodeRampTime (c : Byte) : RampTime :=
  match c.toNat with
  | 0 => .ramp10us
  | 1 => .ramp20us
  | 2 => .ramp40us
  | 3 => .ramp80us
  | 4 => .ramp200us
  | 5 => .ramp800us
  | 6 => .ramp1700us
  | 7 => .ramp3400us
  | _ => .reserved c

/-- 40_bitfield_codec.md R179. -/
def codeTcxoVoltage : TcxoVoltage → Byte
  | .v1_6 => 0x00#8
  | .v1_7 => 0x01#8
  | .v1_8 => 0x02#8
  | .v2_2 => 0x03#8
  | .v2_4 => 0x04#8
  | .v2_7 => 0x05#8
  | .v3_0 => 0x06#8
  | .v3_3 => 0x07#8
  | .reserved c => c

/-- 40_bitfield_codec.md R179. -/
def ofCodeTcxoVoltage (c : Byte) : TcxoVoltage :=
  match c.toNat with
  | 0 => .v1_6
  | 1 => .v1_7
  | 2 => .v1_8
  | 3 => .v2_2
  | 4 => .v2_4
  | 5 => .v2_7
  | 6 => .v3_0
  | 7 => .v3_3
  | _ => .reserved c

/-- 40_bitfield_codec.md R180. -/
def codeChipMode : ChipMode → Byte
  | .unused => 0x00#8
  | .rfu1 => 0x01#8
  | .stbyRc => 0x02#8
  | .stbyXosc => 0x03#8
  | .fs => 0x04#8
  | .rx => 0x05#8
  | .tx => 0x06#8
  | .rfu7 => 0x07#8

/-- 40_bitfield_codec.md R180, on the low three bits of the code. -/
def ofCodeChipMode (c : Byte) : ChipMode :=
  match c.toNat % 8 with
  | 0 => .unused
  | 1 => .rfu1
  | 2 => .stbyRc
  | 3 => .stbyXosc
  | 4 => .fs
  | 5 => .rx
  | 6 => .tx
  | _ => .rfu7

/-- 40_bitfield_codec.md R181. -/
def codeCommandStatus : CommandStatus → Byte
  | .reserved0 => 0x00#8
  | .rfu1 => 0x01#8
  | .dataAvailable => 0x02#8
  | .commandTimeout => 0x03#8
  | .commandProcessingError => 0x04#8
  | .failureToExecute => 0x05#8
  | .commandTxDone => 0x06#8
  | .rfu7 => 0x07#8

/-- 40_bitfield_codec.md R181, on the low three bits of the code. -/
def ofCodeCommandStatus (c : Byte) : CommandStatus :=
  match c.toNat % 8 with
  | 0 => .reserved0
  | 1 => .rfu1
  | 2 => .dataAvailable
  | 3 => .commandTimeout
  | 4 => .commandProcessingError
  | 5 => .failureToExecute
  | 6 => .commandTxDone
  | _ => .rfu7

/-! ## The codec -/

/-- `ENUM_W(E)`; ChipMode and CommandStatus are fixed at 3 (40_bitfield_codec.md R170). -/
def enumWidth (ws : EnumWidths) : EnumId → Nat
  | .standbyConfig => ws.standbyConfig
  | .packetType => ws.packetType
  | .spreadingFactor => ws.spreadingFactor
  | .bandwidth => ws.bandwidth
  | .codingRate => ws.codingRate
  | .headerType => ws.headerType
  | .invertIq => ws.invertIq
  | .rampTime => ws.rampTime
  | .tcxoVoltage => ws.tcxoVoltage
  | .chipMode => 3
  | .commandStatus => 3

/-- The least width that holds every named code (40_bitfield_codec.md R168, R171 to R181). -/
def minEnumWidth : EnumId → Nat
  | .standbyConfig => 1
  | .packetType => 2
  | .spreadingFactor => 4
  | .bandwidth => 4
  | .codingRate => 3
  | .headerType => 1
  | .invertIq => 1
  | .rampTime => 3
  | .tcxoVoltage => 3
  | .chipMode => 3
  | .commandStatus => 3

/-- `b & mask(w)` on a byte (40_bitfield_codec.md R169). -/
def maskByte (w : Nat) (b : Byte) : Byte := byteOf (b.toNat &&& maskBits w)

/-- The enumeration a member belongs to. -/
def memberEnum : Member → EnumId
  | .standbyConfig _ => .standbyConfig
  | .packetType _ => .packetType
  | .spreadingFactor _ => .spreadingFactor
  | .bandwidth _ => .bandwidth
  | .codingRate _ => .codingRate
  | .headerType _ => .headerType
  | .invertIq _ => .invertIq
  | .rampTime _ => .rampTime
  | .tcxoVoltage _ => .tcxoVoltage
  | .chipMode _ => .chipMode
  | .commandStatus _ => .commandStatus

/-- `ENC_ENUM(E, e)`: the member's code (40_bitfield_codec.md R168). -/
def encEnum : Member → Byte
  | .standbyConfig m => codeStandbyConfig m
  | .packetType m => codePacketType m
  | .spreadingFactor m => codeSpreadingFactor m
  | .bandwidth m => codeBandwidth m
  | .codingRate m => codeCodingRate m
  | .headerType m => codeHeaderType m
  | .invertIq m => codeInvertIq m
  | .rampTime m => codeRampTime m
  | .tcxoVoltage m => codeTcxoVoltage m
  | .chipMode m => codeChipMode m
  | .commandStatus m => codeCommandStatus m

/-- The member of `E` with a given code. -/
def memberOfCode (E : EnumId) (c : Byte) : Member :=
  match E with
  | .standbyConfig => .standbyConfig (ofCodeStandbyConfig c)
  | .packetType => .packetType (ofCodePacketType c)
  | .spreadingFactor => .spreadingFactor (ofCodeSpreadingFactor c)
  | .bandwidth => .bandwidth (ofCodeBandwidth c)
  | .codingRate => .codingRate (ofCodeCodingRate c)
  | .headerType => .headerType (ofCodeHeaderType c)
  | .invertIq => .invertIq (ofCodeInvertIq c)
  | .rampTime => .rampTime (ofCodeRampTime c)
  | .tcxoVoltage => .tcxoVoltage (ofCodeTcxoVoltage c)
  | .chipMode => .chipMode (ofCodeChipMode c)
  | .commandStatus => .commandStatus (ofCodeCommandStatus c)

/-- `DEC_ENUM(E, b)`: the member whose code is `b & mask(ENUM_W(E))` (40_bitfield_codec.md R169). Never fails. -/
def decEnum (ws : EnumWidths) (E : EnumId) (b : Byte) : Member := memberOfCode E (maskByte (enumWidth ws E) b)

/-- `m` is a member of its enumeration at the configured width: its code names it back and fits the width
(40_bitfield_codec.md R168, R169). -/
def memberOk (ws : EnumWidths) (m : Member) : Bool :=
  decide (decEnum ws (memberEnum m) (encEnum m) = m)

/-- The byte emitted for a member (30_encoding.md R106). A term that is no member at its width has no stated byte: it is free
(log entry 27). -/
def encByte (ws : EnumWidths) (m : Member) : Byte := if memberOk ws m then encEnum m else Config.freeCode ws m

/-- Every enumeration, for checks that go over all of them. -/
def allEnums : List EnumId :=
  [.standbyConfig, .packetType, .spreadingFactor, .bandwidth, .codingRate, .headerType, .invertIq, .rampTime,
    .tcxoVoltage, .chipMode, .commandStatus]

/-- Legal widths: every named code fits, and a code is one byte (40_bitfield_codec.md R168, R169). -/
def enumWidthsOk (ws : EnumWidths) : Bool :=
  allEnums.all fun E => decide (minEnumWidth E ≤ enumWidth ws E) && decide (enumWidth ws E ≤ 8)

/-- The default widths of 40_bitfield_codec.md R170. -/
def defaultEnumWidths : EnumWidths :=
  { standbyConfig := 1, packetType := 2, spreadingFactor := 4, bandwidth := 4, codingRate := 3, headerType := 1,
    invertIq := 1, rampTime := 3, tcxoVoltage := 3 }

/-- The default configuration (00_scope.md R6; 40_bitfield_codec.md R163, R170); REG_SET is open and taken empty (log entries
2, 3 and 7). -/
def defaultConfig : Config :=
  { irqBit14Named := false, enumWidths := defaultEnumWidths, layout := defaultLayout, regSet := [] }

end Sys2Proof.Machine
end

