-- ==== Sys2Proof/Machine/Flags.lean ====
section
/-!
DEFINITION. The block has no flags (10_state.md R42): the device's status byte is data. This file holds what is
computed from telemetry bytes: RSSI and SNR (45_decoders.md R371, R372) and the status sub-fields (R373).
-/

namespace Sys2Proof.Machine

/-- `RSSI(raw) = - (raw div 2)` (45_decoders.md R371). -/
def rssi (raw : Byte) : Int := -((raw.toNat / 2 : Nat) : Int)

/-- `SNR(raw) = quot(sext_8(raw), 4)` (45_decoders.md R372). -/
def snr (raw : Byte) : Int := quotInt (sext8 raw) 4

/-- The bits `BF.GET` reads of a `Status` field, as a byte (45_decoders.md R373, 40_bitfield_codec.md R161). A legal layout
has the field. -/
def statusBits (cfg : Config) (f : FieldName) (raw : Byte) : Byte :=
  match fieldPlace cfg.layout.statusType f with
  | some p => byteOf (getBits (bfFromRaw cfg.layout.statusType raw.toNat) p)
  | none => 0x00#8

/-- `chip_mode(b)` (45_decoders.md R373). -/
def chipModeOf (cfg : Config) (raw : Byte) : Member := decEnum cfg.enumWidths .chipMode (statusBits cfg .chipMode raw)

/-- `command_status(b)` (45_decoders.md R373). -/
def commandStatusOf (cfg : Config) (raw : Byte) : Member :=
  decEnum cfg.enumWidths .commandStatus (statusBits cfg .commandStatus raw)

end Sys2Proof.Machine
end

