-- ==== Sys2Proof/WellFormed.lean ====
section
/-!
DEFINITION. Well-formed instructions: every operand lies in its field, so that the frame carries it whole
(30_encoding.md section 2). An instruction that is not well-formed still has its meaning: an operand too wide is
narrowed (30_encoding.md R102), an ill-sized variable command is refused by the block (60_exceptions.md R423).
-/

namespace Sys2Proof

/-- An unsigned operand fits `w` bits (30_encoding.md R102). -/
def fitsBits (w v : Nat) : Bool := decide (v < 2 ^ w)

/-- A signed operand fits 8 bits (30_encoding.md R103). -/
def fitsSigned8 (x : Int) : Bool := decide (-128 ≤ x) && decide (x ≤ 127)

/-- The well-formed instructions under a configuration. -/
def Instr.wellFormed (cfg : Config) : Instr → Bool
  | .resetStats => true
  | .clearIrqStatus mask => Machine.isBFValue (Machine.irqTypeOf cfg) mask
  | .setStandby config => Machine.memberOk cfg.enumWidths (.standbyConfig config)
  | .setRx timeout => fitsBits 24 timeout
  | .setTx timeout => fitsBits 24 timeout
  | .setSleep config => Machine.isBFValue cfg.layout.sleepConfigType config
  | .setRfFrequency freqWord => fitsBits 32 freqWord
  | .setPacketType packetType => Machine.memberOk cfg.enumWidths (.packetType packetType)
  | .setModulationParamsLora sf bw cr _ =>
    Machine.memberOk cfg.enumWidths (.spreadingFactor sf) && Machine.memberOk cfg.enumWidths (.bandwidth bw) &&
      Machine.memberOk cfg.enumWidths (.codingRate cr)
  | .setPacketParams preambleLength headerType payloadLength _ invertIq =>
    fitsBits 16 preambleLength && Machine.memberOk cfg.enumWidths (.headerType headerType) &&
      fitsBits 8 payloadLength && Machine.memberOk cfg.enumWidths (.invertIq invertIq)
  | .setTxParams power rampTime => fitsSigned8 power && Machine.memberOk cfg.enumWidths (.rampTime rampTime)
  | .setBufferBaseAddress txBase rxBase => fitsBits 8 txBase && fitsBits 8 rxBase
  | .writeRegister addr _ => fitsBits 16 addr
  | .writeBuffer cap offset data => decide (2 ≤ cap) && fitsBits 8 offset && decide (data.length = cap - 2)
  | .getStatus => true
  | .getPacketType => true
  | .getIrqStatus => true
  | .getRxBufferStatus => true
  | .getPacketStatusLora => true
  | .getDeviceErrors => true
  | .readRegister addr => fitsBits 16 addr
  | .readBuffer cap offset => decide (3 ≤ cap) && fitsBits 8 offset
  | .clearDeviceErrors => true
  | .setDioIrqParams irqMask dio1Mask dio2Mask dio3Mask =>
    Machine.isBFValue (Machine.irqTypeOf cfg) irqMask &&
      Machine.isBFValue (Machine.irqTypeOf cfg) dio1Mask &&
      Machine.isBFValue (Machine.irqTypeOf cfg) dio2Mask &&
      Machine.isBFValue (Machine.irqTypeOf cfg) dio3Mask
  | .getStatsLora => true
  | .setLoraSymbNumTimeout symbNum => fitsBits 8 symbNum
  | .setDio2AsRfSwitchCtrl _ => true
  | .setDio3AsTcxoCtrl voltage delay => Machine.memberOk cfg.enumWidths (.tcxoVoltage voltage) && fitsBits 24 delay

end Sys2Proof
end

