-- ==== Sys2Proof/Decode.lean ====
section
/-!
DEFINITION. The opcode table (30_encoding.md R110), the frame decoder (R112, R117), the frames of the 28 kinds and the
encoder. Decoding is total on any bytes and rejects by name. A field decodes by the inverse of its placement rule
(43_fixed_commands.md R262) at its place in CMD_LAYOUT; dummy bytes carry nothing and are not read (log entry 13).
-/

namespace Sys2Proof

open Sys2Proof.Machine

/-! ## The opcode table -/

/-- `OPCODE(k)` (30_encoding.md R110). -/
def opcodeOf : Kind → Byte
  | .resetStats => 0x00#8
  | .clearIrqStatus => 0x02#8
  | .setStandby => 0x80#8
  | .setRx => 0x82#8
  | .setTx => 0x83#8
  | .setSleep => 0x84#8
  | .setRfFrequency => 0x86#8
  | .setPacketType => 0x8A#8
  | .setModulationParamsLora => 0x8B#8
  | .setPacketParams => 0x8C#8
  | .setTxParams => 0x8E#8
  | .setBufferBaseAddress => 0x8F#8
  | .writeRegister => 0x0D#8
  | .writeBuffer => 0x0E#8
  | .getStatus => 0xC0#8
  | .getPacketType => 0x11#8
  | .getIrqStatus => 0x12#8
  | .getRxBufferStatus => 0x13#8
  | .getPacketStatusLora => 0x14#8
  | .getDeviceErrors => 0x17#8
  | .readRegister => 0x1D#8
  | .readBuffer => 0x1E#8
  | .clearDeviceErrors => 0x07#8
  | .setDioIrqParams => 0x08#8
  | .getStatsLora => 0x10#8
  | .setLoraSymbNumTimeout => 0xA0#8
  | .setDio2AsRfSwitchCtrl => 0x9D#8
  | .setDio3AsTcxoCtrl => 0x97#8

/-- The kind whose opcode a byte is; none for the 228 other bytes (30_encoding.md R112). -/
def kindOfOpcode (b : Byte) : Option Kind :=
  match b.toNat with
  | 0x00 => some .resetStats
  | 0x02 => some .clearIrqStatus
  | 0x07 => some .clearDeviceErrors
  | 0x08 => some .setDioIrqParams
  | 0x0D => some .writeRegister
  | 0x0E => some .writeBuffer
  | 0x10 => some .getStatsLora
  | 0x11 => some .getPacketType
  | 0x12 => some .getIrqStatus
  | 0x13 => some .getRxBufferStatus
  | 0x14 => some .getPacketStatusLora
  | 0x17 => some .getDeviceErrors
  | 0x1D => some .readRegister
  | 0x1E => some .readBuffer
  | 0x80 => some .setStandby
  | 0x82 => some .setRx
  | 0x83 => some .setTx
  | 0x84 => some .setSleep
  | 0x86 => some .setRfFrequency
  | 0x8A => some .setPacketType
  | 0x8B => some .setModulationParamsLora
  | 0x8C => some .setPacketParams
  | 0x8E => some .setTxParams
  | 0x8F => some .setBufferBaseAddress
  | 0x97 => some .setDio3AsTcxoCtrl
  | 0x9D => some .setDio2AsRfSwitchCtrl
  | 0xA0 => some .setLoraSymbNumTimeout
  | 0xC0 => some .getStatus
  | _ => none

/-- `CAPF(k)` of a fixed kind, the "Outbound length" column (30_encoding.md R110); none for the two variable kinds. -/
def fixedCap : Kind → Option Nat
  | .resetStats => some 7
  | .clearIrqStatus => some 3
  | .setStandby => some 2
  | .setRx => some 4
  | .setTx => some 4
  | .setSleep => some 2
  | .setRfFrequency => some 5
  | .setPacketType => some 2
  | .setModulationParamsLora => some 5
  | .setPacketParams => some 7
  | .setTxParams => some 3
  | .setBufferBaseAddress => some 3
  | .writeRegister => some 4
  | .writeBuffer => none
  | .getStatus => some 2
  | .getPacketType => some 3
  | .getIrqStatus => some 4
  | .getRxBufferStatus => some 4
  | .getPacketStatusLora => some 5
  | .getDeviceErrors => some 4
  | .readRegister => some 5
  | .readBuffer => none
  | .clearDeviceErrors => some 3
  | .setDioIrqParams => some 9
  | .getStatsLora => some 8
  | .setLoraSymbNumTimeout => some 2
  | .setDio2AsRfSwitchCtrl => some 2
  | .setDio3AsTcxoCtrl => some 5

/-- `HDR(k)` of a variable kind (44_variable_commands.md R330); none for the fixed kinds. -/
def headerBytes : Kind → Option Nat
  | .writeBuffer => some 2
  | .readBuffer => some 3
  | .resetStats | .clearIrqStatus | .setStandby | .setRx | .setTx | .setSleep | .setRfFrequency | .setPacketType
  | .setModulationParamsLora | .setPacketParams | .setTxParams | .setBufferBaseAddress | .writeRegister | .getStatus
  | .getPacketType | .getIrqStatus | .getRxBufferStatus | .getPacketStatusLora | .getDeviceErrors | .readRegister
  | .clearDeviceErrors | .setDioIrqParams | .getStatsLora | .setLoraSymbNumTimeout | .setDio2AsRfSwitchCtrl
  | .setDio3AsTcxoCtrl => none

/-- The kind an instruction constructs. -/
def kindOf : Instr → Kind
  | .resetStats => .resetStats
  | .clearIrqStatus _ => .clearIrqStatus
  | .setStandby _ => .setStandby
  | .setRx _ => .setRx
  | .setTx _ => .setTx
  | .setSleep _ => .setSleep
  | .setRfFrequency _ => .setRfFrequency
  | .setPacketType _ => .setPacketType
  | .setModulationParamsLora _ _ _ _ => .setModulationParamsLora
  | .setPacketParams _ _ _ _ _ => .setPacketParams
  | .setTxParams _ _ => .setTxParams
  | .setBufferBaseAddress _ _ => .setBufferBaseAddress
  | .writeRegister _ _ => .writeRegister
  | .writeBuffer _ _ _ => .writeBuffer
  | .getStatus => .getStatus
  | .getPacketType => .getPacketType
  | .getIrqStatus => .getIrqStatus
  | .getRxBufferStatus => .getRxBufferStatus
  | .getPacketStatusLora => .getPacketStatusLora
  | .getDeviceErrors => .getDeviceErrors
  | .readRegister _ => .readRegister
  | .readBuffer _ _ => .readBuffer
  | .clearDeviceErrors => .clearDeviceErrors
  | .setDioIrqParams _ _ _ _ => .setDioIrqParams
  | .getStatsLora => .getStatsLora
  | .setLoraSymbNumTimeout _ => .setLoraSymbNumTimeout
  | .setDio2AsRfSwitchCtrl _ => .setDio2AsRfSwitchCtrl
  | .setDio3AsTcxoCtrl _ _ => .setDio3AsTcxoCtrl

/-! ## Decoding a frame -/

/-- Why a byte sequence is no frame of the block. -/
inductive DecodeError where
  /-- no byte at all -/
  | emptyFrame
  /-- the first byte is not in the opcode table (30_encoding.md R112, R113) -/
  | unknownOpcode (b : Byte)
  /-- the frame does not have the length of its kind (30_encoding.md R101, R117) -/
  | badLength (k : Kind) (length : Nat)
  deriving DecidableEq, Repr

/-- An enumeration field read from its byte (30_encoding.md R106), at the width of one enumeration. -/
def enumByte (w : Nat) (b : Byte) : Byte := maskByte w b

/-- The operands of a frame of a known kind, from the bytes after the opcode. A frame of a variable kind is all there is of its
slot, so the capacity of a slot captured from it is its number of bytes (log entry 30). -/
def decodeBody (cfg : Config) (k : Kind) (rest : List Byte) : Except DecodeError Instr :=
  let bad : Except DecodeError Instr := .error (.badLength k (rest.length + 1))
  let irq := fun bs => bfFromRaw (irqTypeOf cfg) (beNat bs)
  let ws := cfg.enumWidths
  let L := cfg.layout
  let at1 := fun p => theByte (fieldAt rest p 1)
  match k with
  | .resetStats => if rest.length = 6 then .ok .resetStats else bad
  | .clearIrqStatus =>
    match rest with
    | [m1, m0] => .ok (.clearIrqStatus (irq [m1, m0]))
    | _ => bad
  | .setStandby =>
    match rest with
    | [c] => .ok (.setStandby (ofCodeStandbyConfig (enumByte ws.standbyConfig c)))
    | _ => bad
  | .setRx =>
    match rest with
    | [t2, t1, t0] => .ok (.setRx (beNat [t2, t1, t0]))
    | _ => bad
  | .setTx =>
    match rest with
    | [t2, t1, t0] => .ok (.setTx (beNat [t2, t1, t0]))
    | _ => bad
  | .setSleep =>
    match rest with
    | [c] => .ok (.setSleep (bfFromRaw L.sleepConfigType c.toNat))
    | _ => bad
  | .setRfFrequency =>
    match rest with
    | [f3, f2, f1, f0] => .ok (.setRfFrequency (beNat [f3, f2, f1, f0]))
    | _ => bad
  | .setPacketType =>
    match rest with
    | [p] => .ok (.setPacketType (ofCodePacketType (enumByte ws.packetType p)))
    | _ => bad
  | .setModulationParamsLora =>
    if rest.length = 4 then
      .ok (.setModulationParamsLora (ofCodeSpreadingFactor (enumByte ws.spreadingFactor (at1 L.sf)))
        (ofCodeBandwidth (enumByte ws.bandwidth (at1 L.bw))) (ofCodeCodingRate (enumByte ws.codingRate (at1 L.cr)))
        (byteBool (at1 L.lowDataRateOptimize)))
    else bad
  | .setPacketParams =>
    if rest.length = 6 then
      .ok (.setPacketParams (beNat (fieldAt rest L.preambleLength 2))
        (ofCodeHeaderType (enumByte ws.headerType (at1 L.headerType))) (at1 L.payloadLength).toNat (byteBool (at1 L.crcOn))
        (ofCodeInvertIq (enumByte ws.invertIq (at1 L.invertIq))))
    else bad
  | .setTxParams =>
    if rest.length = 2 then
      .ok (.setTxParams (sext8 (at1 L.power)) (ofCodeRampTime (enumByte ws.rampTime (at1 L.rampTime))))
    else bad
  | .setBufferBaseAddress =>
    if rest.length = 2 then .ok (.setBufferBaseAddress (at1 L.txBase).toNat (at1 L.rxBase).toNat) else bad
  | .writeRegister =>
    match rest with
    | [a1, a0, v] => .ok (.writeRegister (beNat [a1, a0]) v)
    | _ => bad
  | .writeBuffer =>
    match rest with
    | off :: data => .ok (.writeBuffer (data.length + 2) off.toNat data)
    | [] => bad
  | .getStatus => if rest.length = 1 then .ok .getStatus else bad
  | .getPacketType => if rest.length = 2 then .ok .getPacketType else bad
  | .getIrqStatus => if rest.length = 3 then .ok .getIrqStatus else bad
  | .getRxBufferStatus => if rest.length = 3 then .ok .getRxBufferStatus else bad
  | .getPacketStatusLora => if rest.length = 4 then .ok .getPacketStatusLora else bad
  | .getDeviceErrors => if rest.length = 3 then .ok .getDeviceErrors else bad
  | .readRegister =>
    match rest with
    | [a1, a0, _, _] => .ok (.readRegister (beNat [a1, a0]))
    | _ => bad
  | .readBuffer =>
    match rest with
    | off :: _ :: space => .ok (.readBuffer (space.length + 3) off.toNat)
    | _ => bad
  | .clearDeviceErrors => if rest.length = 2 then .ok .clearDeviceErrors else bad
  | .setDioIrqParams =>
    if rest.length = 8 then
      .ok (.setDioIrqParams (irq (fieldAt rest L.irqMask 2)) (irq (fieldAt rest L.dio1Mask 2))
        (irq (fieldAt rest L.dio2Mask 2)) (irq (fieldAt rest L.dio3Mask 2)))
    else bad
  | .getStatsLora => if rest.length = 7 then .ok .getStatsLora else bad
  | .setLoraSymbNumTimeout =>
    match rest with
    | [n] => .ok (.setLoraSymbNumTimeout n.toNat)
    | _ => bad
  | .setDio2AsRfSwitchCtrl =>
    match rest with
    | [e] => .ok (.setDio2AsRfSwitchCtrl (byteBool e))
    | _ => bad
  | .setDio3AsTcxoCtrl =>
    if rest.length = 4 then
      .ok (.setDio3AsTcxoCtrl (ofCodeTcxoVoltage (enumByte ws.tcxoVoltage (at1 L.voltage))) (beNat (fieldAt rest L.delay 3)))
    else bad

/-- The frame decoder: a frame's bytes, whose length comes from outside (30_encoding.md R112, R117). -/
def decode (cfg : Config) (frame : List Byte) : Except DecodeError Instr :=
  match frame with
  | [] => .error .emptyFrame
  | op :: rest =>
    match kindOfOpcode op with
    | none => .error (.unknownOpcode op)
    | some k => decodeBody cfg k rest

/-! ## The frames

A kind whose fields CMD_LAYOUT places takes the configuration; the others have one possible layout, or a pinned one (log entry 3). -/

/-- 43_fixed_commands.md R263. -/
def frameResetStats : List Byte := 0x00#8 :: dummies 6

/-- 43_fixed_commands.md R264. -/
def frameClearIrqStatus (cfg : Config) (mask : Nat) : List Byte := 0x02#8 :: be16 (bfOperand (irqTypeOf cfg) mask)

/-- 43_fixed_commands.md R265. -/
def frameSetStandby (cfg : Config) (config : StandbyConfig) : List Byte :=
  [0x80#8, encByte cfg.enumWidths (.standbyConfig config)]

/-- 43_fixed_commands.md R266. -/
def frameSetRx (timeout : Nat) : List Byte := 0x82#8 :: be24 (trunc 24 timeout)

/-- 43_fixed_commands.md R267. -/
def frameSetTx (timeout : Nat) : List Byte := 0x83#8 :: be24 (trunc 24 timeout)

/-- 43_fixed_commands.md R268. -/
def frameSetSleep (cfg : Config) (config : Nat) : List Byte :=
  [0x84#8, byteOf (bfOperand cfg.layout.sleepConfigType config)]

/-- 43_fixed_commands.md R269. -/
def frameSetRfFrequency (freqWord : Nat) : List Byte := 0x86#8 :: be32 (trunc 32 freqWord)

/-- 43_fixed_commands.md R270. -/
def frameSetPacketType (cfg : Config) (packetType : PacketType) : List Byte :=
  [0x8A#8, encByte cfg.enumWidths (.packetType packetType)]

/-- 43_fixed_commands.md R271. -/
def frameSetModulationParamsLora (cfg : Config) (sf : SpreadingFactor) (bw : Bandwidth) (cr : CodingRate) (ldro : Bool) :
    List Byte :=
  layFrame 0x8B#8 5
    [(cfg.layout.sf, [encByte cfg.enumWidths (.spreadingFactor sf)]),
      (cfg.layout.bw, [encByte cfg.enumWidths (.bandwidth bw)]), (cfg.layout.cr, [encByte cfg.enumWidths (.codingRate cr)]),
      (cfg.layout.lowDataRateOptimize, [boolByte ldro])]

/-- 43_fixed_commands.md R272. -/
def frameSetPacketParams (cfg : Config) (preambleLength : Nat) (headerType : HeaderType) (payloadLength : Nat)
    (crcOn : Bool) (invertIq : InvertIq) : List Byte :=
  layFrame 0x8C#8 7
    [(cfg.layout.preambleLength, be16 (trunc 16 preambleLength)),
      (cfg.layout.headerType, [encByte cfg.enumWidths (.headerType headerType)]),
      (cfg.layout.payloadLength, [byteOf payloadLength]), (cfg.layout.crcOn, [boolByte crcOn]),
      (cfg.layout.invertIq, [encByte cfg.enumWidths (.invertIq invertIq)])]

/-- 43_fixed_commands.md R273. -/
def frameSetTxParams (cfg : Config) (power : Int) (rampTime : RampTime) : List Byte :=
  layFrame 0x8E#8 3
    [(cfg.layout.power, [signedByte power]), (cfg.layout.rampTime, [encByte cfg.enumWidths (.rampTime rampTime)])]

/-- 43_fixed_commands.md R274. -/
def frameSetBufferBaseAddress (cfg : Config) (txBase rxBase : Nat) : List Byte :=
  layFrame 0x8F#8 3 [(cfg.layout.txBase, [byteOf txBase]), (cfg.layout.rxBase, [byteOf rxBase])]

/-- 42_register_access.md R233. -/
def frameWriteRegister (addr : Nat) (byte : Byte) : List Byte := 0x0D#8 :: be16 (trunc 16 addr) ++ [byte]

/-- 44_variable_commands.md R331. -/
def frameWriteBuffer (offset : Nat) (data : List Byte) : List Byte := [0x0E#8, byteOf offset] ++ data

/-- 43_fixed_commands.md R275. -/
def frameGetStatus : List Byte := 0xC0#8 :: dummies 1

/-- 43_fixed_commands.md R276. -/
def frameGetPacketType : List Byte := 0x11#8 :: dummies 2

/-- 43_fixed_commands.md R277. -/
def frameGetIrqStatus : List Byte := 0x12#8 :: dummies 3

/-- 43_fixed_commands.md R278. -/
def frameGetRxBufferStatus : List Byte := 0x13#8 :: dummies 3

/-- 43_fixed_commands.md R279. -/
def frameGetPacketStatusLora : List Byte := 0x14#8 :: dummies 4

/-- 43_fixed_commands.md R280. -/
def frameGetDeviceErrors : List Byte := 0x17#8 :: dummies 3

/-- 42_register_access.md R235. -/
def frameReadRegister (addr : Nat) : List Byte := 0x1D#8 :: be16 (trunc 16 addr) ++ dummies 2

/-- 44_variable_commands.md R340. -/
def frameReadBuffer (cap offset : Nat) : List Byte := [0x1E#8, byteOf offset, dummyByte] ++ dummies (cap - 3)

/-- 43_fixed_commands.md R281. -/
def frameClearDeviceErrors : List Byte := 0x07#8 :: dummies 2

/-- 43_fixed_commands.md R282. -/
def frameSetDioIrqParams (cfg : Config) (irqMask dio1Mask dio2Mask dio3Mask : Nat) : List Byte :=
  layFrame 0x08#8 9
    [(cfg.layout.irqMask, be16 (bfOperand (irqTypeOf cfg) irqMask)),
      (cfg.layout.dio1Mask, be16 (bfOperand (irqTypeOf cfg) dio1Mask)),
      (cfg.layout.dio2Mask, be16 (bfOperand (irqTypeOf cfg) dio2Mask)),
      (cfg.layout.dio3Mask, be16 (bfOperand (irqTypeOf cfg) dio3Mask))]

/-- 43_fixed_commands.md R283. -/
def frameGetStatsLora : List Byte := 0x10#8 :: dummies 7

/-- 43_fixed_commands.md R284. -/
def frameSetLoraSymbNumTimeout (symbNum : Nat) : List Byte := [0xA0#8, byteOf symbNum]

/-- 43_fixed_commands.md R285. -/
def frameSetDio2AsRfSwitchCtrl (enable : Bool) : List Byte := [0x9D#8, boolByte enable]

/-- 43_fixed_commands.md R286. -/
def frameSetDio3AsTcxoCtrl (cfg : Config) (voltage : TcxoVoltage) (delay : Nat) : List Byte :=
  layFrame 0x97#8 5
    [(cfg.layout.voltage, [encByte cfg.enumWidths (.tcxoVoltage voltage)]), (cfg.layout.delay, be24 (trunc 24 delay))]

/-- The encoder: the frame of an instruction (30_encoding.md R100). -/
def encode (cfg : Config) : Instr → List Byte
  | .resetStats => frameResetStats
  | .clearIrqStatus mask => frameClearIrqStatus cfg mask
  | .setStandby config => frameSetStandby cfg config
  | .setRx timeout => frameSetRx timeout
  | .setTx timeout => frameSetTx timeout
  | .setSleep config => frameSetSleep cfg config
  | .setRfFrequency freqWord => frameSetRfFrequency freqWord
  | .setPacketType packetType => frameSetPacketType cfg packetType
  | .setModulationParamsLora sf bw cr ldro => frameSetModulationParamsLora cfg sf bw cr ldro
  | .setPacketParams pre h len crc iq => frameSetPacketParams cfg pre h len crc iq
  | .setTxParams power rampTime => frameSetTxParams cfg power rampTime
  | .setBufferBaseAddress txBase rxBase => frameSetBufferBaseAddress cfg txBase rxBase
  | .writeRegister addr byte => frameWriteRegister addr byte
  | .writeBuffer _ offset data => frameWriteBuffer offset data
  | .getStatus => frameGetStatus
  | .getPacketType => frameGetPacketType
  | .getIrqStatus => frameGetIrqStatus
  | .getRxBufferStatus => frameGetRxBufferStatus
  | .getPacketStatusLora => frameGetPacketStatusLora
  | .getDeviceErrors => frameGetDeviceErrors
  | .readRegister addr => frameReadRegister addr
  | .readBuffer cap offset => frameReadBuffer cap offset
  | .clearDeviceErrors => frameClearDeviceErrors
  | .setDioIrqParams m a b c => frameSetDioIrqParams cfg m a b c
  | .getStatsLora => frameGetStatsLora
  | .setLoraSymbNumTimeout symbNum => frameSetLoraSymbNumTimeout symbNum
  | .setDio2AsRfSwitchCtrl enable => frameSetDio2AsRfSwitchCtrl enable
  | .setDio3AsTcxoCtrl voltage delay => frameSetDio3AsTcxoCtrl cfg voltage delay

/-! ## Words as the opcode table numbers them -/

/-- The length of the frame a table word stands for: `CAPF` for a fixed kind; for a variable kind the bytes the table
gives, and at least the header (log entry 14). -/
def tableFrameLength (nbits w : Nat) : Nat :=
  match kindOfOpcode (byteOf w) with
  | none => max 1 (nbits / 8)
  | some k =>
    match fixedCap k with
    | some n => n
    | none => max ((headerBytes k).getD 1) (nbits / 8)

/-- The bytes of a table word in transfer order: byte `i` is bits `8i+7..8i`; every bit above `nbits` is 0. -/
def tableFrame (nbits w : Nat) : List Byte :=
  let v := trunc nbits w
  (List.range (tableFrameLength nbits v)).map fun i => byteOf (v >>> (8 * i))

/-- The instruction the decoder reads from a word of spec/opcode_table.json, under the default configuration. -/
def decodeTableWord (nbits w : Nat) : Option Instr :=
  match decode defaultConfig (tableFrame nbits w) with
  | .ok i => some i
  | .error _ => none

end Sys2Proof
end

