-- ==== Sys2Proof/Machine/Registers.lean ====
section
/-!
DEFINITION. The register conversions `enc` and `dec` (42_register_access.md R230, R231) and the legality of a
configuration.
-/

namespace Sys2Proof.Machine

/-- `v` is a value of the register's value type `V` (42_register_access.md R230). -/
def isRegValue : RegConv → Nat → Bool
  | .plain, v => decide (v < 256)
  | .bits T, v => isBFValue T v
  | .table enc _, v => decide (v < enc.length)

/-- `enc`, "to raw byte" (42_register_access.md R230). -/
def regEnc : RegConv → Nat → Byte
  | .plain, v => byteOf v
  | .bits T, v => byteOf (bfToRaw T v)
  | .table enc _, v => enc.getD v dummyByte

/-- `dec`, "from raw byte" (42_register_access.md R230). -/
def regDec : RegConv → Byte → Nat
  | .plain, b => b.toNat
  | .bits T, b => bfFromRaw T b.toNat
  | .table _ dec, b => dec.getD b.toNat 0

/-- A legal pair of conversions: total on bytes, with `dec(enc(v)) = v` for every value (42_register_access.md R230). -/
def regConvOk : RegConv → Bool
  | .plain => true
  | .bits T => bfTypeOk T && T.width == 8
  | .table enc dec =>
    dec.length == 256 && dec.all (fun v => decide (v < enc.length)) &&
      (List.range enc.length).all fun v => dec.getD (enc.getD v dummyByte).toNat 0 == v

/-- The byte of a value under a register type (42_register_access.md R232). Outside REG_SET, or for a number that is no value
of the type, no byte is stated: it is free (log entry 16). -/
def regByte (cfg : Config) (reg : RegType) (v : Nat) : Byte :=
  if cfg.regSet.contains reg && isRegValue reg.conv v then regEnc reg.conv v else Config.freeRegByte cfg.regSet reg v

/-- The value of a byte under a register type (42_register_access.md R230); free outside REG_SET (log entry 16). -/
def regValue (cfg : Config) (reg : RegType) (b : Byte) : Nat :=
  if cfg.regSet.contains reg then regDec reg.conv b else Config.freeRegValue cfg.regSet reg b

/-- A legal configuration (00_scope.md R6). -/
def configOk (cfg : Config) : Bool :=
  enumWidthsOk cfg.enumWidths && layoutOk cfg.layout && cfg.regSet.all fun r => regConvOk r.conv

end Sys2Proof.Machine
end

