-- ==== Sys2Proof/Machine/State.lean ====
section
/-!
DEFINITION. The state of the block as plain data (10_state.md R30, R32), its fault record (60_exceptions.md R421 to R423),
the reasons a step can stop, and the power-on state (70_reset_and_hazards.md R460, R466).
-/

namespace Sys2Proof.Machine

/-- An IN space: the written cells as (index, byte), indices strictly rising. An unlisted index is unwritten, the spec's
`⊥` (10_state.md R35): it reads as no value (log entry 23). -/
abbrev Memory := List Host.Cell

/-- PHASE (10_state.md R32, R38). -/
inductive Phase where
  | built
  | inFlight
  | done
  deriving DecidableEq, Repr

/-- A slot: the storage of one Command value (10_state.md R32). -/
structure Slot where
  /-- KIND -/
  kind  : Kind
  /-- CAP -/
  cap   : Nat
  /-- OUT -/
  out   : List Byte
  /-- IN -/
  inb   : Memory
  /-- DLEN, "Present only when KIND is WriteBuffer or ReadBuffer" -/
  dlen  : Option Nat
  /-- XLEN, "Meaningful only while `PHASE = IN_FLIGHT`" (log entries 9 and 32) -/
  xlen  : Nat
  /-- PHASE -/
  phase : Phase
  deriving DecidableEq, Repr

/-- The reasons of 60_exceptions.md R422 and R423. -/
inductive Reason where
  | contractDlen | unwrittenIn | inFlightAccess | transportLength
  | noSlot | wrongKind | badCap | payloadLength | unknownOpcode
  deriving DecidableEq, Repr

/-- The operation an IN_FLIGHT_ACCESS record names (60_exceptions.md R422). -/
inductive OpName where
  | opcode | outbound | inbound | tlen | submit | setDlen | drop
  | accessor (a : Accessor)
  deriving DecidableEq, Repr

/-- The info of a fault record (60_exceptions.md R422, R423). -/
inductive FaultInfo where
  /-- a data length, an index, a byte count, a capacity or an opcode byte -/
  | number (n : Nat)
  /-- an operation -/
  | operation (op : OpName)
  /-- nothing recorded (log entry 15) -/
  | nothing
  deriving DecidableEq, Repr

/-- A fault record `(reason, slot, info)` (10_state.md R30). -/
structure FaultRecord where
  reason : Reason
  slot   : Option Handle
  info   : FaultInfo
  deriving DecidableEq, Repr

/-- A value a host operation returns (00_scope.md R5). -/
inductive Value where
  | handle (h : Handle)
  | byte (b : Byte)
  | nat (n : Nat)
  | int (i : Int)
  | bool (b : Bool)
  | bytes (bs : List Byte)
  /-- the raw inbound view: each cell a byte or unwritten (41_command_contract.md R202) -/
  | cells (cs : List (Option Byte))
  /-- a bitfield value (40_bitfield_codec.md R141) -/
  | bits (v : Nat)
  | field (x : FieldVal)
  | member (m : Member)
  | kind (k : Kind)
  deriving DecidableEq, Repr

/-- What a submission hands to the transport: `(OUT[0..XLEN-1], XLEN)` and whose it is (41_command_contract.md R210, R213). -/
structure Submission where
  slot  : Handle
  frame : List Byte
  xlen  : Nat
  deriving DecidableEq, Repr

/-- The state. `slots` and `fault` are the block's (10_state.md R30); `nextHandle` is the least handle never used in this
run (70_reset_and_hazards.md R461); `opIndex` indexes the next host operation (10_state.md R40); `returned` and `handed`
are what a run lets an observer see (70_reset_and_hazards.md R478); `inputs` holds the events still to come and `config`
the constants of the run, which no step writes (log entries 1 and 2). -/
structure State where
  config     : Config
  slots      : List (Handle × Slot)
  fault      : Option FaultRecord
  nextHandle : Handle
  opIndex    : Nat
  returned   : List Value
  handed     : List Submission
  inputs     : List Event
  deriving DecidableEq, Repr

/-- Why the machine stops with a fault. -/
inductive Fault where
  /-- The sticky mark is set: "no agent has a step" (60_exceptions.md R421). Raised by step and by every meaning run in a
  faulted state. Safe: nothing goes on. -/
  | halted (r : FaultRecord)
  /-- A read of an index outside the space `0..CAP-1` (20_memory.md R70). Raised by the byte reads of Machine/Ops.lean; no
  state that meets the invariant reaches it. Safe: the machine stops. -/
  | absentIndex (s : Handle) (i : Nat)
  deriving DecidableEq, Repr

/-- Why the machine has no step for what it is asked. -/
inductive Refusal where
  /-- An instruction without a meaning; raised by exec's arms alone. Safe. -/
  | notModelled (mnemonic : String)
  /-- No event is left: no agent has anything to do (70_reset_and_hazards.md R478). Raised by step. Safe. -/
  | noEvent
  /-- A completion of a slot that is not in flight: "no such step" (41_command_contract.md R211). Raised by the completion. Safe. -/
  | noTransportStep (s : Handle)
  /-- A byte sequence with no or a wrong number of bytes for its kind, given to the frame decoder (log entry 24). Raised by
  the frame request. Safe. -/
  | badFrame (e : DecodeError)
  deriving DecidableEq, Repr

/-- Power-on: no slot, no fault (70_reset_and_hazards.md R460, R466), the host at its first operation (10_state.md R40),
the default configuration (00_scope.md R6). -/
def State.reset : State :=
  { config := defaultConfig, slots := [], fault := none, nextHandle := 0, opIndex := 0, returned := [], handed := [],
    inputs := [] }

end Sys2Proof.Machine
end

