-- ==== Sys2Proof/Machine/Ops.lean ====
section
/-!
DEFINITION. The named operations every meaning is written over: canonical stores, the byte reads and writes of a slot
(00_scope.md R10), fault entry (60_exceptions.md R421), the common checks (R424), construction (70_reset_and_hazards.md R461).
-/

namespace Sys2Proof.Machine

/-- The outcome of a meaning. -/
abbrev Result := Host.Outcome State Fault Refusal

/-! ## Canonical stores: (key, value) pairs, keys strictly rising -/

/-- The canonical form: keys strictly rising. -/
abbrev Store.sorted {α : Type} (m : List (Nat × α)) : Prop := m.Pairwise fun p q => p.1 < q.1

/-- The value at a key; none where the key is not listed. -/
def Store.get {α : Type} : List (Nat × α) → Nat → Option α
  | [], _ => none
  | (k', v) :: m, k => if k' = k then some v else Store.get m k

/-- Set the value at a key, keeping the keys in order. -/
def Store.put {α : Type} : List (Nat × α) → Nat → α → List (Nat × α)
  | [], k, v => [(k, v)]
  | (k', v') :: m, k, v =>
    if k < k' then (k, v) :: (k', v') :: m
    else if k' = k then (k, v) :: m
    else (k', v') :: Store.put m k v

/-- Remove a key. -/
def Store.erase {α : Type} : List (Nat × α) → Nat → List (Nat × α)
  | [], _ => []
  | (k', v) :: m, k => if k' = k then Store.erase m k else (k', v) :: Store.erase m k

/-! ## IN spaces -/

/-- The canonical form of an IN space. No entry equals what an unlisted index reads as, which is no byte. -/
abbrev Memory.wf (m : Memory) : Prop := Store.sorted m

/-- One cell: a byte, or none for `⊥` (10_state.md R35). -/
def Memory.read (m : Memory) (i : Nat) : Option Byte := Store.get m i

/-- `InWrite(s, i, b)` (00_scope.md R10). -/
def Memory.write (m : Memory) (i : Nat) (b : Byte) : Memory := Store.put m i b

/-- `InWrite` of consecutive bytes from an index on (41_command_contract.md R211). -/
def Memory.writeFrom (m : Memory) (i : Nat) : List Byte → Memory
  | [] => m
  | b :: bs => Memory.writeFrom (Memory.write m i b) (i + 1) bs

/-- The cells `0..n-1` (41_command_contract.md R202). -/
def Memory.cells (m : Memory) (n : Nat) : List (Option Byte) := (List.range n).map (Memory.read m)

/-! ## Slots -/

/-- The slot a handle names. -/
def State.slotAt (s : State) (h : Handle) : Option Slot := Store.get s.slots h

/-- Replace or add a slot. -/
def State.setSlot (s : State) (h : Handle) (sl : Slot) : State := { s with slots := Store.put s.slots h sl }

/-- Remove a slot. -/
def State.eraseSlot (s : State) (h : Handle) : State := { s with slots := Store.erase s.slots h }

/-- Set the sticky fault mark. -/
def State.setFault (s : State) (r : FaultRecord) : State := { s with fault := some r }

/-- Record a returned value. -/
def State.pushReturned (s : State) (v : Value) : State := { s with returned := s.returned ++ [v] }

/-- Record a submission handed to the transport. -/
def State.pushHanded (s : State) (d : Submission) : State := { s with handed := s.handed ++ [d] }

/-- Count a used handle. -/
def State.bumpHandle (s : State) : State := { s with nextHandle := s.nextHandle + 1 }

/-- The events still to come. -/
def State.setInputs (s : State) (es : List Event) : State := { s with inputs := es }

/-- Advance the index of the next host operation (10_state.md R40). -/
def State.bumpOpIndex (s : State) : State := { s with opIndex := s.opIndex + 1 }

/-- One byte of OUT; none outside the space. -/
def State.outAt (s : State) (h : Handle) (i : Nat) : Option Byte := (s.slotAt h).bind fun sl => sl.out[i]?

/-- One cell of IN; none where it is unwritten or outside the space. -/
def State.inAt (s : State) (h : Handle) (i : Nat) : Option Byte := (s.slotAt h).bind fun sl => Memory.read sl.inb i

/-- Whether a slot is IN_FLIGHT. -/
def Phase.isInFlight : Phase → Bool
  | .built => false
  | .inFlight => true
  | .done => false

/-- DLEN as a number. A variable kind always has it; the 0 of a slot without one is never used in a state that meets the
invariant (log entry 25). -/
def Slot.dataLength (sl : Slot) : Nat := sl.dlen.getD 0

/-- `TLEN(s)` (41_command_contract.md R203). -/
def Slot.transferLength (sl : Slot) : Nat :=
  match headerBytes sl.kind with
  | some hdr => hdr + sl.dataLength
  | none => sl.cap

/-! ## Byte reads -/

/-- Why a byte could not be read. -/
inductive ReadStop where
  /-- the cell holds `⊥` -/
  | unwritten (i : Nat)
  /-- no such index -/
  | absent (i : Nat)
  deriving DecidableEq, Repr

/-- `InRead(s, i)` (00_scope.md R10). -/
def Slot.inRead (sl : Slot) (i : Nat) : Except ReadStop Byte :=
  if i < sl.cap then
    match Memory.read sl.inb i with
    | some b => .ok b
    | none => .error (.unwritten i)
  else .error (.absent i)

/-- `OUT(s)[i]` (00_scope.md R10). -/
def Slot.outRead (sl : Slot) (i : Nat) : Except ReadStop Byte :=
  match sl.out[i]? with
  | some b => .ok b
  | none => .error (.absent i)

/-- Reads at several indices in order; the first that fails decides (45_decoders.md R370 step 2). -/
def readAll (rd : Nat → Except ReadStop Byte) : List Nat → Except ReadStop (List Byte)
  | [] => .ok []
  | i :: is =>
    match rd i with
    | .error e => .error e
    | .ok b =>
      match readAll rd is with
      | .error e => .error e
      | .ok bs => .ok (b :: bs)

/-! ## Fault entry and the common checks -/

/-- `raise Fault(reason, info)`, and a refusal of 60_exceptions.md R423 alike: the state before the operation, plus FAULT
(60_exceptions.md R421). There is no return from it (R426). -/
def raise (reason : Reason) (slot : Option Handle) (info : FaultInfo) (s : State) : Result :=
  .next (s.setFault ⟨reason, slot, info⟩)

/-- Check 1 of 60_exceptions.md R424: in a faulted state there is no step. -/
def unlessFaulted (s : State) (k : Result) : Result :=
  match s.fault with
  | some r => .fault (.halted r)
  | none => k

/-- Checks 1, 2, 3 and 5 of 60_exceptions.md R424 for an operation on a slot: FAULT, NO_SLOT, WRONG_KIND, IN_FLIGHT_ACCESS. -/
def onSlot (h : Handle) (op : OpName) (applies : Kind → Bool) (s : State) (k : Slot → Result) : Result :=
  unlessFaulted s <|
    match s.slotAt h with
    | none => raise .noSlot (some h) .nothing s
    | some sl =>
      if applies sl.kind then
        if sl.phase.isInFlight then raise .inFlightAccess (some h) (.operation op) s else k sl
      else raise .wrongKind (some h) .nothing s

/-- An operation that only returns a value. -/
def returnValue (v : Value) (s : State) : Result := .next (s.pushReturned v)

/-! ## Construction -/

/-- The XLEN of a slot right after construction: unspecified, and `<= CAP` (10_state.md R43; log entry 9). -/
def unspecifiedXlen (h : Handle) (cap : Nat) : Nat := min (Config.freeXlen h) cap

/-- A slot right after construction, given its unspecified XLEN (70_reset_and_hazards.md R461, R462). -/
def newSlot (kind : Kind) (cap : Nat) (frame : List Byte) (dlen : Option Nat) (xlen : Nat) : Slot :=
  { kind := kind, cap := cap, out := frame, inb := [], dlen := dlen, xlen := xlen, phase := .built }

/-- `CONSTRUCT(kind, cap, frame)` (70_reset_and_hazards.md R461). The fresh handle is the least never used (log entry 8).
It returns the handle. -/
def construct (kind : Kind) (cap : Nat) (frame : List Byte) (dlen : Option Nat) (s : State) : Result :=
  unlessFaulted s <|
    .next (((s.setSlot s.nextHandle (newSlot kind cap frame dlen (unspecifiedXlen s.nextHandle cap))).bumpHandle).pushReturned
      (.handle s.nextHandle))

/-! ## Numeric codes of the reasons -/

/-- The codes of 60_exceptions.md R422 and R423. -/
def Reason.code : Reason → Nat
  | .contractDlen => 1
  | .unwrittenIn => 2
  | .inFlightAccess => 3
  | .transportLength => 4
  | .noSlot => 16
  | .wrongKind => 17
  | .badCap => 18
  | .payloadLength => 19
  | .unknownOpcode => 20

end Sys2Proof.Machine
end

