-- ==== Sys2Proof/Machine/Access.lean ====
section
/-!
DEFINITION. The accessors: read-backs over OUT (43_fixed_commands.md R262, 42_register_access.md R237, 44_variable_commands.md
R334, R344) and decoders over IN (45_decoders.md R370 to R381, 42_register_access.md R236, 44_variable_commands.md R345). An
accessor reads the bytes its rule names, in ascending order, and applies a pure function to them.
-/

namespace Sys2Proof.Machine

/-- The kinds an accessor belongs to. -/
def accessorKinds : Accessor → List Kind
  | .mask => [.clearIrqStatus]
  | .config => [.setStandby, .setSleep]
  | .timeout => [.setRx, .setTx]
  | .freqWord => [.setRfFrequency]
  | .packetType => [.setPacketType, .getPacketType]
  | .sf | .bw | .cr | .lowDataRateOptimize => [.setModulationParamsLora]
  | .preambleLength | .headerType | .payloadLength | .crcOn | .invertIq => [.setPacketParams]
  | .power | .rampTime => [.setTxParams]
  | .txBase | .rxBase => [.setBufferBaseAddress]
  | .irqMask | .dio1Mask | .dio2Mask | .dio3Mask => [.setDioIrqParams]
  | .symbNum => [.setLoraSymbNumTimeout]
  | .enable => [.setDio2AsRfSwitchCtrl]
  | .voltage | .delay => [.setDio3AsTcxoCtrl]
  | .address => [.writeRegister, .readRegister]
  | .rawValue => [.writeRegister]
  | .value | .valueAs _ => [.readRegister]
  | .dataLength | .offset => [.writeBuffer, .readBuffer]
  | .payload => [.writeBuffer]
  | .data => [.readBuffer]
  | .status | .chipMode | .commandStatus => [.getStatus]
  | .irqStatus => [.getIrqStatus]
  | .payloadLengthRx | .rxStartBufferPointer => [.getRxBufferStatus]
  | .rssiPkt | .snrPkt | .signalRssiPkt => [.getPacketStatusLora]
  | .opError => [.getDeviceErrors]
  | .nbPktReceived | .nbPktCrcError | .nbPktHeaderErr => [.getStatsLora]

/-- Whether an accessor belongs to a kind; otherwise WRONG_KIND (60_exceptions.md R423). -/
def accessorApplies (a : Accessor) (k : Kind) : Bool := (accessorKinds a).contains k

/-- A value computed from OUT bytes. -/
def fromOut (sl : Slot) (is : List Nat) (f : List Byte → Value) : Except ReadStop Value :=
  match readAll sl.outRead is with
  | .ok bs => .ok (f bs)
  | .error e => .error e

/-- A value computed from IN bytes (45_decoders.md R370). -/
def fromIn (sl : Slot) (is : List Nat) (f : List Byte → Value) : Except ReadStop Value :=
  match readAll sl.inRead is with
  | .ok bs => .ok (f bs)
  | .error e => .error e

/-- An unsigned field (30_encoding.md R102). -/
def natValue (bs : List Byte) : Value := .nat (beNat bs)

/-- A bitfield field (30_encoding.md R105). -/
def bitsValue (T : BFType) (bs : List Byte) : Value := .bits (bfFromRaw T (beNat bs))

/-- An enumeration field (30_encoding.md R106). -/
def enumValue (cfg : Config) (E : EnumId) (bs : List Byte) : Value := .member (decEnum cfg.enumWidths E (theByte bs))

/-- A Boolean field (30_encoding.md R107). -/
def boolValue (bs : List Byte) : Value := .bool (byteBool (theByte bs))

/-- The two bytes of a field at `p`. -/
def bytes2 (p : Nat) : List Nat := [p, p + 1]

/-- The three bytes of a field at `p`. -/
def bytes3 (p : Nat) : List Nat := [p, p + 1, p + 2]

/-- The bytes an accessor reads and what it makes of them. The places CMD_LAYOUT gives come from the configuration. -/
def readAccessor (cfg : Config) (a : Accessor) (sl : Slot) : Except ReadStop Value :=
  let L := cfg.layout
  match a with
  -- 43_fixed_commands.md R264
  | .mask => fromOut sl [1, 2] (bitsValue (irqTypeOf cfg))
  -- R265 and R268
  | .config =>
    if sl.kind = .setSleep then fromOut sl [1] (bitsValue L.sleepConfigType)
    else fromOut sl [1] (enumValue cfg .standbyConfig)
  -- R266, R267
  | .timeout => fromOut sl [1, 2, 3] natValue
  -- R269
  | .freqWord => fromOut sl [1, 2, 3, 4] natValue
  -- R270, and the decoder of 45_decoders.md R376
  | .packetType =>
    if sl.kind = .getPacketType then fromIn sl [L.packetType] (enumValue cfg .packetType)
    else fromOut sl [1] (enumValue cfg .packetType)
  -- R271
  | .sf => fromOut sl [L.sf] (enumValue cfg .spreadingFactor)
  | .bw => fromOut sl [L.bw] (enumValue cfg .bandwidth)
  | .cr => fromOut sl [L.cr] (enumValue cfg .codingRate)
  | .lowDataRateOptimize => fromOut sl [L.lowDataRateOptimize] boolValue
  -- R272
  | .preambleLength => fromOut sl (bytes2 L.preambleLength) natValue
  | .headerType => fromOut sl [L.headerType] (enumValue cfg .headerType)
  | .payloadLength => fromOut sl [L.payloadLength] natValue
  | .crcOn => fromOut sl [L.crcOn] boolValue
  | .invertIq => fromOut sl [L.invertIq] (enumValue cfg .invertIq)
  -- R273
  | .power => fromOut sl [L.power] fun bs => .int (sext8 (theByte bs))
  | .rampTime => fromOut sl [L.rampTime] (enumValue cfg .rampTime)
  -- R274
  | .txBase => fromOut sl [L.txBase] natValue
  | .rxBase => fromOut sl [L.rxBase] natValue
  -- R282
  | .irqMask => fromOut sl (bytes2 L.irqMask) (bitsValue (irqTypeOf cfg))
  | .dio1Mask => fromOut sl (bytes2 L.dio1Mask) (bitsValue (irqTypeOf cfg))
  | .dio2Mask => fromOut sl (bytes2 L.dio2Mask) (bitsValue (irqTypeOf cfg))
  | .dio3Mask => fromOut sl (bytes2 L.dio3Mask) (bitsValue (irqTypeOf cfg))
  -- R284, R285, R286
  | .symbNum => fromOut sl [1] natValue
  | .enable => fromOut sl [1] boolValue
  | .voltage => fromOut sl [L.voltage] (enumValue cfg .tcxoVoltage)
  | .delay => fromOut sl (bytes3 L.delay) natValue
  -- 42_register_access.md R237, R236
  | .address => fromOut sl [1, 2] natValue
  | .rawValue => fromOut sl [3] fun bs => .byte (theByte bs)
  | .value => fromIn sl [4] fun bs => .byte (theByte bs)
  | .valueAs reg => fromIn sl [4] fun bs => .nat (regValue cfg reg (theByte bs))
  -- 44_variable_commands.md R334, R344, R345
  | .dataLength => .ok (.nat sl.dataLength)
  | .offset => fromOut sl [1] natValue
  | .payload => fromOut sl (List.range' 2 sl.dataLength) .bytes
  | .data => fromIn sl (List.range' 3 sl.dataLength) .bytes
  -- 45_decoders.md R375, R377, R378
  | .status => fromIn sl [1] (bitsValue L.statusType)
  | .chipMode => fromIn sl [1] fun bs => .member (chipModeOf cfg (theByte bs))
  | .commandStatus => fromIn sl [1] fun bs => .member (commandStatusOf cfg (theByte bs))
  | .irqStatus => fromIn sl (bytes2 L.irqStatus) (bitsValue (irqTypeOf cfg))
  | .payloadLengthRx => fromIn sl [L.payloadLengthRx] natValue
  | .rxStartBufferPointer => fromIn sl [L.rxStartBufferPointer] natValue
  -- R379, R380, R381
  | .rssiPkt => fromIn sl [2] fun bs => .int (rssi (theByte bs))
  | .snrPkt => fromIn sl [3] fun bs => .int (snr (theByte bs))
  | .signalRssiPkt => fromIn sl [4] fun bs => .int (rssi (theByte bs))
  | .opError => fromIn sl (bytes2 L.opError) (bitsValue L.opErrorType)
  | .nbPktReceived => fromIn sl (bytes2 L.nbPktReceived) natValue
  | .nbPktCrcError => fromIn sl (bytes2 L.nbPktCrcError) natValue
  | .nbPktHeaderErr => fromIn sl (bytes2 L.nbPktHeaderErr) natValue

/-- Give an accessor's result to the host: a value, or UNWRITTEN_IN at the first unwritten cell (60_exceptions.md R424). -/
def giveRead (h : Handle) (r : Except ReadStop Value) (s : State) : Result :=
  match r with
  | .ok v => returnValue v s
  | .error (.unwritten i) => raise .unwrittenIn (some h) (.number i) s
  | .error (.absent i) => .fault (.absentIndex h i)

/-- `s.<accessor>()`. -/
def reqAccess (h : Handle) (a : Accessor) (s : State) : Result :=
  onSlot h (.accessor a) (accessorApplies a) s fun sl => giveRead h (readAccessor s.config a sl) s

end Sys2Proof.Machine
end

