-- ==== Sys2Proof/Machine/Contract.lean ====
section
/-!
DEFINITION. The command contract and the transport port (41_command_contract.md R200 to R203, R210, R211), SET_DLEN
(44_variable_commands.md R333, R343) and DROP (70_reset_and_hazards.md R464).
-/

namespace Sys2Proof.Machine

/-- An operation of every kind. -/
def anyKind : Kind → Bool := fun _ => true

/-- The variable kinds, WriteBuffer and ReadBuffer (10_state.md R31). -/
def isVariable (k : Kind) : Bool := (headerBytes k).isSome

/-- `OPCODE s` (41_command_contract.md R200). -/
def reqOpcode (h : Handle) (s : State) : Result :=
  onSlot h .opcode anyKind s fun sl => returnValue (.byte (opcodeOf sl.kind)) s

/-- `OUTBOUND s` (41_command_contract.md R201). -/
def reqOutbound (h : Handle) (s : State) : Result :=
  onSlot h .outbound anyKind s fun sl => returnValue (.bytes sl.out) s

/-- `INBOUND s` (41_command_contract.md R202). -/
def reqInbound (h : Handle) (s : State) : Result :=
  onSlot h .inbound anyKind s fun sl => returnValue (.cells (Memory.cells sl.inb sl.cap)) s

/-- `TLEN s` (41_command_contract.md R203). -/
def reqTlen (h : Handle) (s : State) : Result :=
  onSlot h .tlen anyKind s fun sl => returnValue (.nat sl.transferLength) s

/-- `SUBMIT s` (41_command_contract.md R210): from BUILT or DONE; it captures XLEN, and the transport is
handed `OUT[0..XLEN-1]`. -/
def reqSubmit (h : Handle) (s : State) : Result :=
  onSlot h .submit anyKind s fun sl =>
    .next ((s.setSlot h { sl with xlen := sl.transferLength, phase := .inFlight }).pushHanded
      ⟨h, sl.out.take sl.transferLength, sl.transferLength⟩)

/-- `SET_DLEN s n` (44_variable_commands.md R333, R343): the bound is `CAP - HDR` (60_exceptions.md R420). -/
def reqSetDlen (h : Handle) (n : Nat) (s : State) : Result :=
  onSlot h .setDlen isVariable s fun sl =>
    if n + (headerBytes sl.kind).getD 0 ≤ sl.cap then .next (s.setSlot h { sl with dlen := some n })
    else raise .contractDlen (some h) (.number n) s

/-- `DROP s` (70_reset_and_hazards.md R464). -/
def reqDrop (h : Handle) (s : State) : Result :=
  onSlot h .drop anyKind s fun _ => .next (s.eraseSlot h)

/-- `COMPLETE s bytes`, the transport's step (41_command_contract.md R211): it checks IN_FLIGHT, else there is no step, then
the length (60_exceptions.md R424). It writes IN and PHASE, so XLEN stays (log entry 32). -/
def complete (h : Handle) (bytes : List Byte) (s : State) : Result :=
  unlessFaulted s <|
    match s.slotAt h with
    | none => .refused (.noTransportStep h)
    | some sl =>
      match sl.phase with
      | .built => .refused (.noTransportStep h)
      | .done => .refused (.noTransportStep h)
      | .inFlight =>
        if bytes.length = sl.xlen then
          .next (s.setSlot h { sl with inb := Memory.writeFrom sl.inb 0 bytes, phase := .done })
        else raise .transportLength (some h) (.number bytes.length) s

end Sys2Proof.Machine
end

