-- ==== Sys2Proof/Machine/FixedRead.lean ====
section
/-!
DEFINITION. The fixed read kinds, format FR (43_fixed_commands.md R275 to R280, R283): an opcode and dummy bytes. Their
decoders stand in Machine/Access.lean.
-/

namespace Sys2Proof.Machine

/-- 43_fixed_commands.md R275. -/
def execGetStatus (s : State) : Result := construct .getStatus 2 frameGetStatus none s

/-- 43_fixed_commands.md R276. -/
def execGetPacketType (s : State) : Result := construct .getPacketType 3 frameGetPacketType none s

/-- 43_fixed_commands.md R277. -/
def execGetIrqStatus (s : State) : Result := construct .getIrqStatus 4 frameGetIrqStatus none s

/-- 43_fixed_commands.md R278. -/
def execGetRxBufferStatus (s : State) : Result := construct .getRxBufferStatus 4 frameGetRxBufferStatus none s

/-- 43_fixed_commands.md R279. -/
def execGetPacketStatusLora (s : State) : Result := construct .getPacketStatusLora 5 frameGetPacketStatusLora none s

/-- 43_fixed_commands.md R280. -/
def execGetDeviceErrors (s : State) : Result := construct .getDeviceErrors 4 frameGetDeviceErrors none s

/-- 43_fixed_commands.md R283. -/
def execGetStatsLora (s : State) : Result := construct .getStatsLora 8 frameGetStatsLora none s

end Sys2Proof.Machine
end

