-- ==== Sys2Proof/Machine/FixedWrite.lean ====
section
/-!
DEFINITION. The fixed write kinds, format FW (43_fixed_commands.md R260 to R274, R281, R282, R284 to R286): each builds its
frame and constructs a slot of the kind's capacity.
-/

namespace Sys2Proof.Machine

/-- 43_fixed_commands.md R263. -/
def execResetStats (s : State) : Result := construct .resetStats 7 frameResetStats none s

/-- 43_fixed_commands.md R264. -/
def execClearIrqStatus (mask : Nat) (s : State) : Result :=
  construct .clearIrqStatus 3 (frameClearIrqStatus s.config mask) none s

/-- 43_fixed_commands.md R265. -/
def execSetStandby (config : StandbyConfig) (s : State) : Result :=
  construct .setStandby 2 (frameSetStandby s.config config) none s

/-- 43_fixed_commands.md R266. -/
def execSetRx (timeout : Nat) (s : State) : Result := construct .setRx 4 (frameSetRx timeout) none s

/-- 43_fixed_commands.md R267. -/
def execSetTx (timeout : Nat) (s : State) : Result := construct .setTx 4 (frameSetTx timeout) none s

/-- 43_fixed_commands.md R268. -/
def execSetSleep (config : Nat) (s : State) : Result := construct .setSleep 2 (frameSetSleep s.config config) none s

/-- 43_fixed_commands.md R269. -/
def execSetRfFrequency (freqWord : Nat) (s : State) : Result :=
  construct .setRfFrequency 5 (frameSetRfFrequency freqWord) none s

/-- 43_fixed_commands.md R270. -/
def execSetPacketType (packetType : PacketType) (s : State) : Result :=
  construct .setPacketType 2 (frameSetPacketType s.config packetType) none s

/-- 43_fixed_commands.md R271. -/
def execSetModulationParamsLora (sf : SpreadingFactor) (bw : Bandwidth) (cr : CodingRate) (ldro : Bool) (s : State) :
    Result :=
  construct .setModulationParamsLora 5 (frameSetModulationParamsLora s.config sf bw cr ldro) none s

/-- 43_fixed_commands.md R272. -/
def execSetPacketParams (preambleLength : Nat) (headerType : HeaderType) (payloadLength : Nat) (crcOn : Bool)
    (invertIq : InvertIq) (s : State) : Result :=
  construct .setPacketParams 7 (frameSetPacketParams s.config preambleLength headerType payloadLength crcOn invertIq) none s

/-- 43_fixed_commands.md R273. -/
def execSetTxParams (power : Int) (rampTime : RampTime) (s : State) : Result :=
  construct .setTxParams 3 (frameSetTxParams s.config power rampTime) none s

/-- 43_fixed_commands.md R274. -/
def execSetBufferBaseAddress (txBase rxBase : Nat) (s : State) : Result :=
  construct .setBufferBaseAddress 3 (frameSetBufferBaseAddress s.config txBase rxBase) none s

/-- 43_fixed_commands.md R281. -/
def execClearDeviceErrors (s : State) : Result := construct .clearDeviceErrors 3 frameClearDeviceErrors none s

/-- 43_fixed_commands.md R282. -/
def execSetDioIrqParams (irqMask dio1Mask dio2Mask dio3Mask : Nat) (s : State) : Result :=
  construct .setDioIrqParams 9 (frameSetDioIrqParams s.config irqMask dio1Mask dio2Mask dio3Mask) none s

/-- 43_fixed_commands.md R284. -/
def execSetLoraSymbNumTimeout (symbNum : Nat) (s : State) : Result :=
  construct .setLoraSymbNumTimeout 2 (frameSetLoraSymbNumTimeout symbNum) none s

/-- 43_fixed_commands.md R285. -/
def execSetDio2AsRfSwitchCtrl (enable : Bool) (s : State) : Result :=
  construct .setDio2AsRfSwitchCtrl 2 (frameSetDio2AsRfSwitchCtrl enable) none s

/-- 43_fixed_commands.md R286. -/
def execSetDio3AsTcxoCtrl (voltage : TcxoVoltage) (delay : Nat) (s : State) : Result :=
  construct .setDio3AsTcxoCtrl 5 (frameSetDio3AsTcxoCtrl s.config voltage delay) none s

end Sys2Proof.Machine
end

