-- ==== Sys2Proof/Machine/RegisterAccess.lean ====
section
/-!
DEFINITION. The register commands, formats RW and RR (42_register_access.md R233, R235), in the datapath form of R232. Any
16-bit address is emitted; the block checks none (20_memory.md R72).
-/

namespace Sys2Proof.Machine

/-- 42_register_access.md R233. -/
def execWriteRegister (addr : Nat) (byte : Byte) (s : State) : Result :=
  construct .writeRegister 4 (frameWriteRegister addr byte) none s

/-- 42_register_access.md R235. -/
def execReadRegister (addr : Nat) (s : State) : Result := construct .readRegister 5 (frameReadRegister addr) none s

end Sys2Proof.Machine
end

