-- ==== Sys2Proof/Machine/VariableBuffer.lean ====
section
/-!
DEFINITION. The variable kinds, formats VW and VR (44_variable_commands.md R331, R340). The block computes and checks no
device address (R346).
-/

namespace Sys2Proof.Machine

/-- 44_variable_commands.md R331; the checks in the order of 60_exceptions.md R424. -/
def execWriteBuffer (cap offset : Nat) (data : List Byte) (s : State) : Result :=
  unlessFaulted s <|
    if cap < 2 then raise .badCap none (.number cap) s
    else if data.length = cap - 2 then construct .writeBuffer cap (frameWriteBuffer offset data) (some (cap - 2)) s
    else raise .payloadLength none (.number data.length) s

/-- 44_variable_commands.md R340. -/
def execReadBuffer (cap offset : Nat) (s : State) : Result :=
  unlessFaulted s <|
    if cap < 3 then raise .badCap none (.number cap) s
    else construct .readBuffer cap (frameReadBuffer cap offset) (some (cap - 3)) s

end Sys2Proof.Machine
end

