-- ==== Sys2Proof/Machine/Dispatch.lean ====
section
/-! DEFINITION. The meaning of each instruction: one arm per constructor of Instr, one direct call an arm. -/

namespace Sys2Proof.Machine

def exec (i : Instr) (s : State) : Host.Outcome State Fault Refusal :=
  match i with
  | .resetStats => Sys2Proof.Machine.execResetStats s
  | .clearIrqStatus mask => Sys2Proof.Machine.execClearIrqStatus mask s
  | .setStandby config => Sys2Proof.Machine.execSetStandby config s
  | .setRx timeout => Sys2Proof.Machine.execSetRx timeout s
  | .setTx timeout => Sys2Proof.Machine.execSetTx timeout s
  | .setSleep config => Sys2Proof.Machine.execSetSleep config s
  | .setRfFrequency freqWord => Sys2Proof.Machine.execSetRfFrequency freqWord s
  | .setPacketType packetType => Sys2Proof.Machine.execSetPacketType packetType s
  | .setModulationParamsLora sf bw cr ldro => Sys2Proof.Machine.execSetModulationParamsLora sf bw cr ldro s
  | .setPacketParams pre header len crc iq => Sys2Proof.Machine.execSetPacketParams pre header len crc iq s
  | .setTxParams power rampTime => Sys2Proof.Machine.execSetTxParams power rampTime s
  | .setBufferBaseAddress txBase rxBase => Sys2Proof.Machine.execSetBufferBaseAddress txBase rxBase s
  | .writeRegister addr byte => Sys2Proof.Machine.execWriteRegister addr byte s
  | .writeBuffer cap offset data => Sys2Proof.Machine.execWriteBuffer cap offset data s
  | .getStatus => Sys2Proof.Machine.execGetStatus s
  | .getPacketType => Sys2Proof.Machine.execGetPacketType s
  | .getIrqStatus => Sys2Proof.Machine.execGetIrqStatus s
  | .getRxBufferStatus => Sys2Proof.Machine.execGetRxBufferStatus s
  | .getPacketStatusLora => Sys2Proof.Machine.execGetPacketStatusLora s
  | .getDeviceErrors => Sys2Proof.Machine.execGetDeviceErrors s
  | .readRegister addr => Sys2Proof.Machine.execReadRegister addr s
  | .readBuffer cap offset => Sys2Proof.Machine.execReadBuffer cap offset s
  | .clearDeviceErrors => Sys2Proof.Machine.execClearDeviceErrors s
  | .setDioIrqParams irq dio1 dio2 dio3 => Sys2Proof.Machine.execSetDioIrqParams irq dio1 dio2 dio3 s
  | .getStatsLora => Sys2Proof.Machine.execGetStatsLora s
  | .setLoraSymbNumTimeout symbNum => Sys2Proof.Machine.execSetLoraSymbNumTimeout symbNum s
  | .setDio2AsRfSwitchCtrl enable => Sys2Proof.Machine.execSetDio2AsRfSwitchCtrl enable s
  | .setDio3AsTcxoCtrl voltage delay => Sys2Proof.Machine.execSetDio3AsTcxoCtrl voltage delay s

end Sys2Proof.Machine
end

