-- ==== Sys2Proof/Machine/Requests.lean ====
section
/-!
DEFINITION. The host request port: every operation of 30_encoding.md R130, the frame decoder and classifier (R112, log
entry 29), the pure functions, and the retirement of an event (10_state.md R40).
-/

namespace Sys2Proof.Machine

/-- A pure function's value. `BF.GET` reads any natural, a raw integer or a value, by the one formula (40_bitfield_codec.md
R145, R150). Where the spec states no value (an illegal type, a number that is no value under `BF.WITH` or `BF.TO_RAW`, a name
that is no field, a value of the other field type) it is free within what the spec does state: a value of a legal type, the
width of a field, the bits of the other fields (log entry 16). -/
def pureValue (cfg : Config) (f : PureCall) : Value :=
  let free := Config.freeBits f
  match f with
  | .bfZero T => .bits (if bfTypeOk T then bfZero T else free)
  | .bfWith T v f x =>
    .bits <|
      if bfTypeOk T then
        match fieldPlace T f with
        | some p =>
          if isBFValue T v then (if fieldValOk p.ty x then bfWith T v f x else setBits T.width v p free)
          else bfFromRaw T free
        | none => bfFromRaw T free
      else free
  | .bfGet T v f =>
    .field <|
      match fieldPlace T f with
      | some p => natFieldVal p.ty (if bfTypeOk T then getBits v p else trunc p.width free)
      | none => .uint free
  | .bfToRaw T v => .nat (if bfTypeOk T && isBFValue T v then bfToRaw T v else trunc T.width free)
  | .bfFromRaw T r => .bits (if bfTypeOk T then bfFromRaw T r else free)
  | .encEnum m => .byte (encByte cfg.enumWidths m)
  | .decEnum E b => .member (decEnum cfg.enumWidths E b)
  | .regEnc reg v => .byte (regByte cfg reg v)
  | .regDec reg b => .nat (regValue cfg reg b)

/-- A pure function at the port: it returns its value and touches no slot (40_bitfield_codec.md R140). -/
def reqPure (f : PureCall) (s : State) : Result := unlessFaulted s (returnValue (pureValue s.config f) s)

/-- The frame classifier (30_encoding.md R112), as a host operation the model's own (log entry 29). -/
def reqClassify (b : Byte) (s : State) : Result :=
  unlessFaulted s <|
    match kindOfOpcode b with
    | some k => returnValue (.kind k) s
    | none => raise .unknownOpcode none (.number b.toNat) s

/-- Construct a slot from a frame, the model's own operation (log entry 29): run the instruction the decoder reads. An
unknown opcode is refused as 60_exceptions.md R423 says; a wrong number of bytes has no code there (log entry 24). -/
def reqConstructFrame (frame : List Byte) (s : State) : Result :=
  unlessFaulted s <|
    match decode s.config frame with
    | .ok i => exec i s
    | .error (.unknownOpcode b) => raise .unknownOpcode none (.number b.toNat) s
    | .error .emptyFrame => .refused (.badFrame .emptyFrame)
    | .error (.badLength k n) => .refused (.badFrame (.badLength k n))

/-- The typed form of WriteRegister reduces to an address and a byte (42_register_access.md R232). -/
def reqWriteRegisterOf (reg : RegType) (v : Nat) (s : State) : Result :=
  exec (.writeRegister reg.addr.toNat (regByte s.config reg v)) s

/-- The typed form of ReadRegister reduces to an address (42_register_access.md R232). -/
def reqReadRegisterOf (reg : RegType) (s : State) : Result := exec (.readRegister reg.addr.toNat) s

/-- One host operation: those of 30_encoding.md R130, and the two the model adds (log entry 29). -/
def runHostOp (op : HostOp) (s : State) : Result :=
  match op with
  | .construct i => exec i s
  | .constructFrame frame => reqConstructFrame frame s
  | .writeRegisterOf reg v => reqWriteRegisterOf reg v s
  | .readRegisterOf reg => reqReadRegisterOf reg s
  | .opcode h => reqOpcode h s
  | .outbound h => reqOutbound h s
  | .inbound h => reqInbound h s
  | .tlen h => reqTlen h s
  | .submit h => reqSubmit h s
  | .setDlen h n => reqSetDlen h n s
  | .access h a => reqAccess h a s
  | .drop h => reqDrop h s
  | .pure f => reqPure f s
  | .classify b => reqClassify b s

/-- One event at a port. -/
def runEvent (e : Event) (s : State) : Result :=
  match e with
  | .host op => runHostOp op s
  | .complete h bytes => complete h bytes s

/-- After an event that did not fault: the event is consumed, and a host operation advances the index (10_state.md R40). -/
def retireState (e : Event) (rest : List Event) (t : State) : State :=
  match e with
  | .host _ => (t.setInputs rest).bumpOpIndex
  | .complete _ _ => t.setInputs rest

/-- Retire an event. One that set the fault mark is not retired: "the state before the operation, plus `FAULT`"
(60_exceptions.md R421). -/
def retire (e : Event) (rest : List Event) (r : Result) : Result :=
  match r with
  | .next t =>
    match t.fault with
    | none => .next (retireState e rest t)
    | some _ => .next t
  | .fault f => .fault f
  | .refused f => .refused f

/-- Run the next event. -/
def stepEvents (s : State) : List Event → Result
  | [] => .refused .noEvent
  | e :: rest => retire e rest (runEvent e s)

/-- A frame placed as the host's next request, before the events still to come. -/
def placeFrame (s : State) (frame : List Byte) : State :=
  s.setInputs (.host (.constructFrame frame) :: s.inputs)

end Sys2Proof.Machine
end

