-- ==== Sys2Proof/Machine/Step.lean ====
section
/-!
DEFINITION. One step: in a faulted state none (10_state.md R39), else the next event (20_memory.md R85).
-/

namespace Sys2Proof.Machine

/-- One step of the machine. -/
def step (s : State) : Host.Outcome State Fault Refusal := unlessFaulted s (stepEvents s s.inputs)

/-- `s` with the instruction of a table word as the host's next request, so that the very next step runs it. -/
def State.withFetchWord (s : State) (nbits w : Nat) : State := placeFrame s (tableFrame nbits w)

end Sys2Proof.Machine
end

