-- ==== Sys2Proof/Safety.lean ====
section
/-!
DEFINITION. What counts as a legal slot and a legal state, and when a run is finished. The invariant collects 10_state.md
R33, R34, R35, R37, R43, 30_encoding.md R104 and the canonical forms of the model's own stores (log entries 8 and 23).
-/

namespace Sys2Proof.Machine

/-- The positions of OUT that carry no field (30_encoding.md R104): every byte after the opcode of the read kinds and of the
two kinds without operands, the dummy and placeholder bytes of ReadRegister and ReadBuffer. -/
def dummyPositions (k : Kind) (cap : Nat) : List Nat :=
  match k with
  | .resetStats | .clearDeviceErrors | .getStatus | .getPacketType | .getIrqStatus | .getRxBufferStatus
  | .getPacketStatusLora | .getDeviceErrors | .getStatsLora => List.range' 1 (cap - 1)
  | .readRegister => [3, 4]
  | .readBuffer => List.range' 2 (cap - 2)
  | .clearIrqStatus | .setStandby | .setRx | .setTx | .setSleep | .setRfFrequency | .setPacketType
  | .setModulationParamsLora | .setPacketParams | .setTxParams | .setBufferBaseAddress | .writeRegister | .writeBuffer
  | .setDioIrqParams | .setLoraSymbNumTimeout | .setDio2AsRfSwitchCtrl | .setDio3AsTcxoCtrl => []

/-- The cells of IN that every completed transfer of a slot writes: all of a fixed kind's, the header of a variable kind's. -/
def alwaysReceived (sl : Slot) : Nat := (headerBytes sl.kind).getD sl.cap

/-- A legal slot. -/
structure SlotInv (sl : Slot) : Prop where
  /-- `|OUT| = CAP` (10_state.md R33) -/
  out_length : sl.out.length = sl.cap
  /-- `OUT[0] = OPCODE(KIND)` (R34) -/
  out_opcode : sl.out.head? = some (opcodeOf sl.kind)
  /-- `CAP = CAPF(KIND)` (R37) -/
  cap_fixed : ∀ n, fixedCap sl.kind = some n → sl.cap = n
  /-- a variable kind has DLEN, and `DLEN + HDR(KIND) <= CAP` (R37) -/
  dlen_variable : ∀ hdr, headerBytes sl.kind = some hdr → ∃ d, sl.dlen = some d ∧ d + hdr ≤ sl.cap
  /-- a fixed kind has no DLEN (R32) -/
  dlen_fixed : headerBytes sl.kind = none → sl.dlen = none
  /-- IN is canonical -/
  in_canonical : Memory.wf sl.inb
  /-- `|IN| = CAP`: no cell at or above CAP (R33) -/
  in_bound : ∀ c ∈ sl.inb, c.1 < sl.cap
  /-- XLEN is the transfer length while in flight (41_command_contract.md R210) -/
  xlen_is_tlen : sl.phase = .inFlight → sl.xlen = sl.transferLength
  /-- `XLEN <= CAP` in every phase (10_state.md R43) -/
  xlen_bound : sl.xlen ≤ sl.cap
  /-- nothing is received before a completion (10_state.md R35) -/
  built_unwritten : sl.phase = .built → sl.inb = []
  /-- a completed transfer wrote every cell it must (41_command_contract.md R211) -/
  done_written : sl.phase = .done → ∀ i, i < alwaysReceived sl → (Memory.read sl.inb i).isSome
  /-- dummy bytes are 0x00 (30_encoding.md R104) -/
  dummies_zero : ∀ i ∈ dummyPositions sl.kind sl.cap, sl.out[i]? = some dummyByte

/-- A legal state: a legal configuration, and a canonical slot map of legal slots whose handles were all given out
(70_reset_and_hazards.md R461). -/
structure Inv (s : State) : Prop where
  config_ok    : configOk s.config = true
  slots_sorted : Store.sorted s.slots
  handles_used : ∀ p ∈ s.slots, p.1 < s.nextHandle
  slots_ok : ∀ p ∈ s.slots, SlotInv p.2

/-- The slot a host operation works on (30_encoding.md R130); none for constructors and pure functions. -/
def opSlot : HostOp → Option Handle
  | .construct _ | .constructFrame _ | .writeRegisterOf _ _ | .readRegisterOf _ | .pure _ | .classify _ => none
  | .opcode h | .outbound h | .inbound h | .tlen h | .submit h | .setDlen h _ | .access h _ | .drop h => some h

/-- The slot an event works on. -/
def eventSlot : Event → Option Handle
  | .host op => opSlot op
  | .complete h _ => some h

/-- The name a host operation on a slot has in a fault record (60_exceptions.md R422). -/
def opName : HostOp → Option OpName
  | .construct _ | .constructFrame _ | .writeRegisterOf _ _ | .readRegisterOf _ | .pure _ | .classify _ => none
  | .opcode _ => some .opcode
  | .outbound _ => some .outbound
  | .inbound _ => some .inbound
  | .tlen _ => some .tlen
  | .submit _ => some .submit
  | .setDlen _ _ => some .setDlen
  | .access _ a => some (.accessor a)
  | .drop _ => some .drop

/-- The kinds a host operation on a slot belongs to; otherwise WRONG_KIND (60_exceptions.md R423). -/
def opApplies (k : Kind) : HostOp → Bool
  | .setDlen _ _ => isVariable k
  | .access _ a => accessorApplies a k
  | .construct _ | .constructFrame _ | .writeRegisterOf _ _ | .readRegisterOf _ | .pure _ | .classify _ | .opcode _
  | .outbound _ | .inbound _ | .tlen _ | .submit _ | .drop _ => true

/-- A slot that passes the common checks of 60_exceptions.md R424: no fault, the slot exists and is not in flight. -/
def Ready (s : State) (h : Handle) (sl : Slot) : Prop :=
  s.fault = none ∧ s.slotAt h = some sl ∧ sl.phase.isInFlight = false

/-- No slot is in flight. -/
def nothingInFlight (s : State) : Bool := s.slots.all fun p => !p.2.phase.isInFlight

/-- An operation of the host, not a step of the transport. -/
def isHostEvent : Event → Bool
  | .host _ => true
  | .complete _ _ => false

/-- The host has no further operation; completions may be left. -/
def hostDone (s : State) : Bool := s.inputs.all fun e => !isHostEvent e

/-- The end of a run (70_reset_and_hazards.md R478): the host has no further operation and no slot is in flight, or the fault
mark is set. -/
def finished (s : State) : Bool := (hostDone s && nothingInFlight s) || s.fault.isSome

end Sys2Proof.Machine
end

