-- ==== Sys2Proof/Certificates/Slice0/Obligations.lean ====
section
/-!
DEFINITION. The statements for the provers. Each docstring names the rule of spec/ or the log entry it rests on. In a
statement about an instruction the next state is said whole: the new slot, and that everything else is as before.
-/

namespace Sys2Proof.Machine

/-- Instruction `i` completes in `s`, giving `t`: the new slot, whose XLEN is unspecified but `<= CAP` (10_state.md R43), stands
under the fresh handle, which is returned, and every other slot, every byte of their OUT and IN, and every other part of the
state is as before. -/
def Constructs (i : Instr) (s t : State) (slot : Nat → Slot) : Prop :=
  exec i s = .next t ∧ (∃ x, x ≤ (slot x).cap ∧ t.slotAt s.nextHandle = some (slot x)) ∧
    (∀ h, h ≠ s.nextHandle → t.slotAt h = s.slotAt h) ∧
    t.returned = s.returned ++ [.handle s.nextHandle] ∧ t.nextHandle = s.nextHandle + 1 ∧ t.fault = none ∧
    t.config = s.config ∧ t.handed = s.handed ∧ t.inputs = s.inputs ∧ t.opIndex = s.opIndex

/-- Accessor `a` of slot `h` returns `v`, and the state is otherwise as before. -/
def Reads (s : State) (h : Handle) (a : Accessor) (v : Value) : Prop :=
  runHostOp (.access h a) s = .next { s with returned := s.returned ++ [v] }

/-- A slot right after the construction of kind `k` with a frame, its XLEN left open (70_reset_and_hazards.md R461, R462). -/
def builtSlot (k : Kind) (cap : Nat) (frame : List Byte) (dlen : Option Nat) (xlen : Nat) : Slot :=
  { kind := k, cap := cap, out := frame, inb := [], dlen := dlen, xlen := xlen, phase := .built }

/-- Byte number `n` (from the least significant) of a natural. -/
def byteNo (n v : Nat) : Byte := BitVec.ofNat 8 (v / 256 ^ n)

/-- A natural cut to the width of a type, its reserved bits cleared: the spec's `trunc_W(r) & ~RMASK(T)`. -/
def cleared (T : BFType) (v : Nat) : Nat := v % 2 ^ T.width &&& ((2 ^ T.width - 1) ^^^ reservedMask T)

/-- The two bytes of a 16-bit field, the high one first. -/
def twoBytes (v : Nat) : List Byte := [byteNo 1 v, byteNo 0 v]

/-- A frame of `cap` bytes: the opcode first, and each field's bytes from its position on. In a kind whose fields CMD_LAYOUT
places they fill the frame, so this says every byte. -/
def FrameHas (op : Byte) (cap : Nat) (fields : List (Nat × List Byte)) (frame : List Byte) : Prop :=
  frame.length = cap ∧ frame[0]? = some op ∧ ∀ f ∈ fields, ∀ j, j < f.2.length → frame[f.1 + j]? = f.2[j]?

/-- The code tables as 40_bitfield_codec.md R171 to R181 print them, reserved members of R173 to R175 among them. -/
def enumCodeTable : List (Member × Nat) :=
  [(.standbyConfig .stdbyRc, 0), (.standbyConfig .stdbyXosc, 1)] ++
  [(.packetType .gfsk, 0), (.packetType .loRa, 1), (.packetType .reserved2, 2), (.packetType .code3, 3)] ++
  [(.spreadingFactor .sf5, 5), (.spreadingFactor .sf6, 6), (.spreadingFactor .sf7, 7), (.spreadingFactor .sf8, 8),
    (.spreadingFactor .sf9, 9), (.spreadingFactor .sf10, 10), (.spreadingFactor .sf11, 11), (.spreadingFactor .sf12, 12)] ++
  [(.spreadingFactor (.reserved 0x00#8), 0), (.spreadingFactor (.reserved 0x01#8), 1),
    (.spreadingFactor (.reserved 0x02#8), 2), (.spreadingFactor (.reserved 0x03#8), 3),
    (.spreadingFactor (.reserved 0x04#8), 4), (.spreadingFactor (.reserved 0x0D#8), 13),
    (.spreadingFactor (.reserved 0x0E#8), 14), (.spreadingFactor (.reserved 0x0F#8), 15)] ++
  [(.bandwidth .bw7, 0x00), (.bandwidth .bw10, 0x08), (.bandwidth .bw15, 0x01), (.bandwidth .bw20, 0x09),
    (.bandwidth .bw31, 0x02), (.bandwidth .bw41, 0x0A), (.bandwidth .bw62, 0x03), (.bandwidth .bw125, 0x04),
    (.bandwidth .bw250, 0x05), (.bandwidth .bw500, 0x06)] ++
  [(.bandwidth (.reserved 0x07#8), 0x07), (.bandwidth (.reserved 0x0B#8), 0x0B), (.bandwidth (.reserved 0x0C#8), 0x0C),
    (.bandwidth (.reserved 0x0D#8), 0x0D), (.bandwidth (.reserved 0x0E#8), 0x0E), (.bandwidth (.reserved 0x0F#8), 0x0F)] ++
  [(.codingRate .cr4_5, 1), (.codingRate .cr4_6, 2), (.codingRate .cr4_7, 3), (.codingRate .cr4_8, 4),
    (.codingRate (.reserved 0x00#8), 0), (.codingRate (.reserved 0x05#8), 5), (.codingRate (.reserved 0x06#8), 6),
    (.codingRate (.reserved 0x07#8), 7)] ++
  [(.headerType .explicit, 0), (.headerType .implicit, 1), (.invertIq .standard, 0), (.invertIq .inverted, 1)] ++
  [(.rampTime .ramp10us, 0), (.rampTime .ramp20us, 1), (.rampTime .ramp40us, 2), (.rampTime .ramp80us, 3),
    (.rampTime .ramp200us, 4), (.rampTime .ramp800us, 5), (.rampTime .ramp1700us, 6), (.rampTime .ramp3400us, 7)] ++
  [(.tcxoVoltage .v1_6, 0), (.tcxoVoltage .v1_7, 1), (.tcxoVoltage .v1_8, 2), (.tcxoVoltage .v2_2, 3),
    (.tcxoVoltage .v2_4, 4), (.tcxoVoltage .v2_7, 5), (.tcxoVoltage .v3_0, 6), (.tcxoVoltage .v3_3, 7)] ++
  [(.chipMode .unused, 0), (.chipMode .rfu1, 1), (.chipMode .stbyRc, 2), (.chipMode .stbyXosc, 3), (.chipMode .fs, 4),
    (.chipMode .rx, 5), (.chipMode .tx, 6), (.chipMode .rfu7, 7)] ++
  [(.commandStatus .reserved0, 0), (.commandStatus .rfu1, 1), (.commandStatus .dataAvailable, 2),
    (.commandStatus .commandTimeout, 3), (.commandStatus .commandProcessingError, 4),
    (.commandStatus .failureToExecute, 5), (.commandStatus .commandTxDone, 6), (.commandStatus .rfu7, 7)]

/-- The fields of the concrete bitfield types as 40_bitfield_codec.md R160 to R164 print them: type, field, lowest bit, width. -/
def fieldTable : List (BFType × FieldName × Nat × Nat) :=
  [(sleepConfigType, .rtcWakeup, 0, 1), (sleepConfigType, .warmStart, 2, 1), (statusType, .commandStatus, 1, 3),
    (statusType, .chipMode, 4, 3)] ++
  ([irqType false, irqType true].flatMap fun T =>
    [(T, .txDone, 0, 1), (T, .rxDone, 1, 1), (T, .preambleDetected, 2, 1), (T, .syncWordValid, 3, 1),
      (T, .headerValid, 4, 1), (T, .headerErr, 5, 1), (T, .crcErr, 6, 1), (T, .cadDone, 7, 1), (T, .cadDetected, 8, 1),
      (T, .timeout, 9, 1)]) ++
  [(irqType true, .lrFhssHop, 14, 1), (opErrorType, .rc64kCalibErr, 0, 1), (opErrorType, .rc13mCalibErr, 1, 1),
    (opErrorType, .pllCalibErr, 2, 1), (opErrorType, .adcCalibErr, 3, 1), (opErrorType, .imgCalibErr, 4, 1),
    (opErrorType, .xoscStartErr, 5, 1), (opErrorType, .pllLockErr, 6, 1), (opErrorType, .paRampErr, 8, 1)]

/-- The opcode table as 30_encoding.md R110 prints it: kind, opcode, outbound length of the fixed kinds, header of the
variable kinds. -/
def opcodeTableR110 : List (Kind × Nat × Option Nat × Option Nat) :=
  [(.resetStats, 0x00, some 7, none), (.clearIrqStatus, 0x02, some 3, none), (.setStandby, 0x80, some 2, none),
    (.setRx, 0x82, some 4, none), (.setTx, 0x83, some 4, none), (.setSleep, 0x84, some 2, none),
    (.setRfFrequency, 0x86, some 5, none), (.setPacketType, 0x8A, some 2, none),
    (.setModulationParamsLora, 0x8B, some 5, none), (.setPacketParams, 0x8C, some 7, none)] ++
  [(.setTxParams, 0x8E, some 3, none), (.setBufferBaseAddress, 0x8F, some 3, none), (.writeRegister, 0x0D, some 4, none),
    (.writeBuffer, 0x0E, none, some 2), (.getStatus, 0xC0, some 2, none), (.getPacketType, 0x11, some 3, none),
    (.getIrqStatus, 0x12, some 4, none), (.getRxBufferStatus, 0x13, some 4, none),
    (.getPacketStatusLora, 0x14, some 5, none)] ++
  [(.getDeviceErrors, 0x17, some 4, none), (.readRegister, 0x1D, some 5, none), (.readBuffer, 0x1E, none, some 3),
    (.clearDeviceErrors, 0x07, some 3, none), (.setDioIrqParams, 0x08, some 9, none), (.getStatsLora, 0x10, some 8, none),
    (.setLoraSymbNumTimeout, 0xA0, some 2, none), (.setDio2AsRfSwitchCtrl, 0x9D, some 2, none),
    (.setDio3AsTcxoCtrl, 0x97, some 5, none)]

/-- The accessors that read only OUT or DLEN (43_fixed_commands.md R262, 42_register_access.md R237,
44_variable_commands.md R334, R344), for the kind they are read on. -/
def isReadBack (k : Kind) : Accessor → Bool
  | .packetType => k == .setPacketType
  | .value | .valueAs _ | .data | .status | .chipMode | .commandStatus | .irqStatus | .payloadLengthRx
  | .rxStartBufferPointer | .rssiPkt | .snrPkt | .signalRssiPkt | .opError | .nbPktReceived | .nbPktCrcError
  | .nbPktHeaderErr => false
  | _ => true

/-- The lowest IN index each decoder reads under a layout (45_decoders.md R375 to R381, 42_register_access.md R236); `data`
reads from 3 when DLEN is not 0 (44_variable_commands.md R345). -/
def firstIndexRead (L : CmdLayout) : Accessor → Option Nat
  | .packetType => some L.packetType
  | .value | .valueAs _ => some 4
  | .data => some 3
  | .status | .chipMode | .commandStatus => some 1
  | .irqStatus => some L.irqStatus
  | .payloadLengthRx => some L.payloadLengthRx
  | .rxStartBufferPointer => some L.rxStartBufferPointer
  | .rssiPkt => some 2
  | .snrPkt => some 3
  | .signalRssiPkt => some 4
  | .opError => some L.opError
  | .nbPktReceived => some L.nbPktReceived
  | .nbPktCrcError => some L.nbPktCrcError
  | .nbPktHeaderErr => some L.nbPktHeaderErr
  | _ => none

/-- The kinds each accessor belongs to, as the spec prints them (30_encoding.md R130): the read-backs (43_fixed_commands.md
R262 to R286, 42_register_access.md R237, 44_variable_commands.md R334, R344), then the decoders (45_decoders.md R375 to R381,
42_register_access.md R236, 44_variable_commands.md R345). `packet_type` is both. The typed form of `value` has a register for an
operand and is not listed. -/
def accessorTable : List (Accessor × List Kind) :=
  [(.mask, [.clearIrqStatus]), (.config, [.setStandby, .setSleep]), (.timeout, [.setRx, .setTx]),
    (.freqWord, [.setRfFrequency]), (.packetType, [.setPacketType, .getPacketType]), (.sf, [.setModulationParamsLora]),
    (.bw, [.setModulationParamsLora]), (.cr, [.setModulationParamsLora]),
    (.lowDataRateOptimize, [.setModulationParamsLora]), (.preambleLength, [.setPacketParams]),
    (.headerType, [.setPacketParams]), (.payloadLength, [.setPacketParams]), (.crcOn, [.setPacketParams]),
    (.invertIq, [.setPacketParams]), (.power, [.setTxParams]), (.rampTime, [.setTxParams]),
    (.txBase, [.setBufferBaseAddress]), (.rxBase, [.setBufferBaseAddress])] ++
  [(.irqMask, [.setDioIrqParams]), (.dio1Mask, [.setDioIrqParams]), (.dio2Mask, [.setDioIrqParams]),
    (.dio3Mask, [.setDioIrqParams]), (.symbNum, [.setLoraSymbNumTimeout]), (.enable, [.setDio2AsRfSwitchCtrl]),
    (.voltage, [.setDio3AsTcxoCtrl]), (.delay, [.setDio3AsTcxoCtrl]), (.address, [.writeRegister, .readRegister]),
    (.rawValue, [.writeRegister]), (.dataLength, [.writeBuffer, .readBuffer]), (.offset, [.writeBuffer, .readBuffer]),
    (.payload, [.writeBuffer])] ++
  [(.value, [.readRegister]), (.data, [.readBuffer]), (.status, [.getStatus]), (.chipMode, [.getStatus]),
    (.commandStatus, [.getStatus]), (.irqStatus, [.getIrqStatus]), (.payloadLengthRx, [.getRxBufferStatus]),
    (.rxStartBufferPointer, [.getRxBufferStatus]), (.rssiPkt, [.getPacketStatusLora]), (.snrPkt, [.getPacketStatusLora]),
    (.signalRssiPkt, [.getPacketStatusLora]), (.opError, [.getDeviceErrors]), (.nbPktReceived, [.getStatsLora]),
    (.nbPktCrcError, [.getStatsLora]), (.nbPktHeaderErr, [.getStatsLora])]

/-- A frame of `n` bytes has the length of kind `k`: the outbound length of a fixed kind, the header at least of a variable one
(30_encoding.md R101, R110, R117). -/
def hasLengthOf (k : Kind) (n : Nat) : Prop :=
  (∀ m, fixedCap k = some m → n = m) ∧ ∀ hdr, headerBytes k = some hdr → hdr ≤ n

/-- A field value fits the field it is written to: any Boolean, or a natural below `2^wd` (40_bitfield_codec.md R149). -/
def fitsField (p : FieldPlace) : FieldVal → Prop
  | .flag _ => p.ty = .bool
  | .uint n => p.ty = .uint ∧ n < 2 ^ p.width

/-- Operation `op` on slot `h` belongs to the kinds `ks`: on another kind it is refused WRONG_KIND, on one of them it raises
IN_FLIGHT_ACCESS while in flight (60_exceptions.md section 2). -/
def OnlyOn (ks : List Kind) (op : HostOp) (nm : OpName) (h : Handle) (s : State) : Prop :=
  ∀ sl, s.fault = none → s.slotAt h = some sl →
    (sl.kind ∉ ks → runHostOp op s = .next { s with fault := some ⟨.wrongKind, some h, .nothing⟩ }) ∧
    (sl.kind ∈ ks → sl.phase.isInFlight = true →
      runHostOp op s = .next { s with fault := some ⟨.inFlightAccess, some h, .operation nm⟩ })

end Sys2Proof.Machine

open Sys2Proof Sys2Proof.Machine

/-! ## Encoding -/

/-- Decoding the frame of a well-formed instruction gives it back, operands and all (30_encoding.md sections 2 and 3; the
layout is any legal one, log entry 3; the codes are log entry 4; the capacity of a variable frame is log entry 30). -/
def Obligations.DecodeOfEncodeIsTheInstruction : Prop :=
  ∀ (cfg : Config) (i : Instr), configOk cfg = true → i.wellFormed cfg = true →
    decode cfg (encode cfg i) = .ok i

/-- Whatever the decoder answers is well-formed, its frame is as long as the one it came from, and that frame decodes to it
again (under any legal layout, log entries 3 and 31; the codes are log entry 4). That this length holds of a variable frame too is
the model's choice: its capacity is its number of bytes (log entry 30). A frame that begins with the opcode of a kind decodes to
an instruction of that kind exactly when it has the kind's length, whatever its other bytes (the decoder's leniency is log entry
13); one of another length, or of no byte, is refused at the port by name (log entries 24 and 29). -/
def Obligations.DecodedInstructionIsWellFormed : Prop :=
  (∀ (cfg : Config) (frame : List Byte) (i : Instr), configOk cfg = true → decode cfg frame = .ok i →
    i.wellFormed cfg = true ∧ frame.length = (encode cfg i).length ∧ decode cfg (encode cfg i) = .ok i) ∧
  (∀ (cfg : Config) (k : Kind) (rest : List Byte),
    (hasLengthOf k (rest.length + 1) → ∃ i, decode cfg (opcodeOf k :: rest) = .ok i ∧ kindOf i = k) ∧
    (¬ hasLengthOf k (rest.length + 1) → decode cfg (opcodeOf k :: rest) = .error (.badLength k (rest.length + 1)))) ∧
  ∀ (s : State), s.fault = none →
    runHostOp (.constructFrame []) s = .refused (.badFrame .emptyFrame) ∧
    ∀ (k : Kind) (rest : List Byte), ¬ hasLengthOf k (rest.length + 1) →
      runHostOp (.constructFrame (opcodeOf k :: rest)) s = .refused (.badFrame (.badLength k (rest.length + 1)))

/-- 30_encoding.md R110: the table names all 28 kinds, its opcodes and lengths are the model's, and the frame of every
well-formed instruction begins with the opcode of its kind, has the outbound length of a fixed kind, and holds the header of
a variable one. -/
def Obligations.OpcodeTableIsTheTableOfR110 : Prop :=
  (∀ row ∈ opcodeTableR110, (opcodeOf row.1).toNat = row.2.1 ∧ fixedCap row.1 = row.2.2.1 ∧ headerBytes row.1 = row.2.2.2) ∧
    (∀ k : Kind, k ∈ opcodeTableR110.map Prod.fst) ∧ opcodeTableR110.length = 28 ∧
    ∀ (cfg : Config) (i : Instr), i.wellFormed cfg = true →
      (encode cfg i).head? = some (opcodeOf (kindOf i)) ∧
        (∀ n, fixedCap (kindOf i) = some n → (encode cfg i).length = n) ∧
        ∀ hdr, headerBytes (kindOf i) = some hdr → hdr ≤ (encode cfg i).length

/-- The classifier names exactly the kind whose opcode a byte is, and a byte of no kind raises UNKNOWN_OPCODE with the byte
(30_encoding.md section 3, decision D19; 60_exceptions.md section 2). That they are host operations is log entry 29. -/
def Obligations.ClassifierNamesTheKindOfAnOpcode : Prop :=
  ∀ (s : State) (b : Byte), s.fault = none →
    (∀ k, opcodeOf k = b → runHostOp (.classify b) s = .next { s with returned := s.returned ++ [.kind k] }) ∧
    ((∀ k, opcodeOf k ≠ b) →
      runHostOp (.classify b) s = .next { s with fault := some ⟨.unknownOpcode, none, .number b.toNat⟩ } ∧
      ∀ rest, runHostOp (.constructFrame (b :: rest)) s =
        .next { s with fault := some ⟨.unknownOpcode, none, .number b.toNat⟩ })

/-- Words written out from the spec's own examples decode, under the default configuration, to the commands they stand for
(95_test_vectors.md section 1.1 and the vectors V-CMD-15 to 17, 19, 21, 35, 36 and 39). The V-CMD words rest on the default
layouts, codes, dummies, byte order and Boolean byte: log entries 3, 4, 5, 6 and 20; the capacity that the WriteBuffer word
decodes to is log entry 30. -/
def Obligations.SpecExampleFramesDecode : Prop :=
  decode defaultConfig [0x84#8, 0x04#8] = .ok (.setSleep 4) ∧
    decode defaultConfig [0x80#8, 0x01#8] = .ok (.setStandby .stdbyXosc) ∧
    decode defaultConfig [0x83#8, 0x68#8, 0xB8#8, 0x49#8] = .ok (.setTx 6862921) ∧
    decode defaultConfig [0x0D#8, 0x07#8, 0x40#8, 0x48#8] = .ok (.writeRegister 0x0740 0x48#8) ∧
    decode defaultConfig [0x0E#8, 0x10#8, 0x68#8, 0x65#8, 0x6C#8, 0x6C#8, 0x6F#8] =
      .ok (.writeBuffer 7 0x10 [0x68#8, 0x65#8, 0x6C#8, 0x6C#8, 0x6F#8]) ∧
    decode defaultConfig [0x8B#8, 0x0C#8, 0x00#8, 0x04#8, 0x01#8] =
      .ok (.setModulationParamsLora .sf12 .bw7 .cr4_8 true) ∧
    decode defaultConfig [0x8C#8, 0x00#8, 0x08#8, 0x00#8, 0x40#8, 0x01#8, 0x00#8] =
      .ok (.setPacketParams 8 .explicit 64 true .standard) ∧
    decode defaultConfig [0x8C#8, 0x00#8, 0x08#8, 0x01#8, 0xFF#8, 0x00#8, 0x01#8] =
      .ok (.setPacketParams 8 .implicit 255 false .inverted) ∧
    decode defaultConfig [0x8E#8, 0xF7#8, 0x00#8] = .ok (.setTxParams (-9) .ramp10us) ∧
    decode defaultConfig [0x8F#8, 0x00#8, 0x80#8] = .ok (.setBufferBaseAddress 0 0x80) ∧
    decode defaultConfig [0x08#8, 0x02#8, 0x03#8, 0x02#8, 0x03#8, 0x00#8, 0x00#8, 0x00#8, 0x00#8] =
      .ok (.setDioIrqParams 0x0203 0x0203 0 0) ∧
    decode defaultConfig [0x10#8, 0x00#8, 0x00#8, 0x00#8, 0x00#8, 0x00#8, 0x00#8, 0x00#8] = .ok .getStatsLora ∧
    decode defaultConfig [0x97#8, 0x02#8, 0x00#8, 0x01#8, 0x40#8] = .ok (.setDio3AsTcxoCtrl .v1_8 320)

/-! ## Construction: the fixed write kinds -/

/-- SetTx (43_fixed_commands.md R267). -/
def Obligations.SetTxEmitsTheTimeoutBigEndian : Prop :=
  ∀ (s : State) (timeout : Nat), s.fault = none →
    ∃ t, Constructs (.setTx timeout) s t
        (builtSlot .setTx 4 [0x83#8, byteNo 2 timeout, byteNo 1 timeout, byteNo 0 timeout] none) ∧
      Reads t s.nextHandle .timeout (.nat (timeout % 2 ^ 24))

/-- SetRx, SetRfFrequency, SetBufferBaseAddress and SetLoraSymbNumTimeout: each operand narrowed to its field and emitted
big-endian, and read back narrowed, under every legal layout (43_fixed_commands.md section 2; layouts and byte order are log
entries 3 and 6). -/
def Obligations.UnsignedOperandCommandsEmitBigEndian : Prop :=
  ∀ (s : State) (timeout w tx rx n : Nat), s.fault = none → layoutOk s.config.layout = true →
    (∃ t, Constructs (.setRx timeout) s t
        (builtSlot .setRx 4 [0x82#8, byteNo 2 timeout, byteNo 1 timeout, byteNo 0 timeout] none) ∧
      Reads t s.nextHandle .timeout (.nat (timeout % 2 ^ 24))) ∧
    (∃ t, Constructs (.setRfFrequency w) s t
        (builtSlot .setRfFrequency 5 [0x86#8, byteNo 3 w, byteNo 2 w, byteNo 1 w, byteNo 0 w] none) ∧
      Reads t s.nextHandle .freqWord (.nat (w % 2 ^ 32))) ∧
    (∃ t frame, Constructs (.setBufferBaseAddress tx rx) s t (builtSlot .setBufferBaseAddress 3 frame none) ∧
      FrameHas 0x8F#8 3 [(s.config.layout.txBase, [byteNo 0 tx]), (s.config.layout.rxBase, [byteNo 0 rx])] frame ∧
      Reads t s.nextHandle .txBase (.nat (tx % 256)) ∧ Reads t s.nextHandle .rxBase (.nat (rx % 256))) ∧
    ∃ t, Constructs (.setLoraSymbNumTimeout n) s t (builtSlot .setLoraSymbNumTimeout 2 [0xA0#8, byteNo 0 n] none) ∧
      Reads t s.nextHandle .symbNum (.nat (n % 256))

/-- The kinds without operands emit their opcode and dummies: ResetStats, ClearDeviceErrors and the seven read kinds
(43_fixed_commands.md section 2; log entries 3 and 5). -/
def Obligations.KindsWithoutOperandsEmitOpcodeAndDummies : Prop :=
  ∀ s : State, s.fault = none →
    (∃ t, Constructs .resetStats s t
      (builtSlot .resetStats 7 [0x00#8, 0x00#8, 0x00#8, 0x00#8, 0x00#8, 0x00#8, 0x00#8] none)) ∧
    (∃ t, Constructs .clearDeviceErrors s t (builtSlot .clearDeviceErrors 3 [0x07#8, 0x00#8, 0x00#8] none)) ∧
    (∃ t, Constructs .getStatus s t (builtSlot .getStatus 2 [0xC0#8, 0x00#8] none)) ∧
    (∃ t, Constructs .getPacketType s t (builtSlot .getPacketType 3 [0x11#8, 0x00#8, 0x00#8] none)) ∧
    (∃ t, Constructs .getIrqStatus s t (builtSlot .getIrqStatus 4 [0x12#8, 0x00#8, 0x00#8, 0x00#8] none)) ∧
    (∃ t, Constructs .getRxBufferStatus s t (builtSlot .getRxBufferStatus 4 [0x13#8, 0x00#8, 0x00#8, 0x00#8] none)) ∧
    (∃ t, Constructs .getPacketStatusLora s t
      (builtSlot .getPacketStatusLora 5 [0x14#8, 0x00#8, 0x00#8, 0x00#8, 0x00#8] none)) ∧
    (∃ t, Constructs .getDeviceErrors s t (builtSlot .getDeviceErrors 4 [0x17#8, 0x00#8, 0x00#8, 0x00#8] none)) ∧
    ∃ t, Constructs .getStatsLora s t
      (builtSlot .getStatsLora 8 [0x10#8, 0x00#8, 0x00#8, 0x00#8, 0x00#8, 0x00#8, 0x00#8, 0x00#8] none)

/-- SetStandby, SetPacketType and SetSleep carry one byte: a member's code, or a SleepConfig with its reserved bits 0; each reads
back (43_fixed_commands.md section 2; codes, bits and masking: log entries 4 and 18). The byte of a term that is no member at its
width is free (log entry 27). -/
def Obligations.OneByteCommandsEmitTheirCode : Prop :=
  ∀ (s : State) (c : StandbyConfig) (p : PacketType) (config : Nat), s.fault = none → layoutOk s.config.layout = true →
    (∃ t b, Constructs (.setStandby c) s t (builtSlot .setStandby 2 [0x80#8, b] none) ∧
      (memberOk s.config.enumWidths (.standbyConfig c) = true →
        b = codeStandbyConfig c ∧ Reads t s.nextHandle .config (.member (.standbyConfig c)))) ∧
    (∃ t b, Constructs (.setPacketType p) s t (builtSlot .setPacketType 2 [0x8A#8, b] none) ∧
      (memberOk s.config.enumWidths (.packetType p) = true →
        b = codePacketType p ∧ Reads t s.nextHandle .packetType (.member (.packetType p)))) ∧
    ∃ t, Constructs (.setSleep config) s t
        (builtSlot .setSleep 2 [0x84#8, byteNo 0 (cleared s.config.layout.sleepConfigType config)] none) ∧
      Reads t s.nextHandle .config (.bits (cleared s.config.layout.sleepConfigType config))

/-- ClearIrqStatus and SetDioIrqParams emit their Irq words big-endian with every reserved bit 0, and read them back, under
every legal layout (43_fixed_commands.md section 2, 30_encoding.md sections 2 and 4; log entries 3, 4, 6 and 18). -/
def Obligations.IrqMasksAreEmittedWithoutReservedBits : Prop :=
  ∀ (s : State) (mask a b c : Nat), s.fault = none → layoutOk s.config.layout = true →
    (∃ t, Constructs (.clearIrqStatus mask) s t
        (builtSlot .clearIrqStatus 3 (0x02#8 :: twoBytes (cleared (irqTypeOf s.config) mask)) none) ∧
      Reads t s.nextHandle .mask (.bits (cleared (irqTypeOf s.config) mask))) ∧
    ∃ t frame, Constructs (.setDioIrqParams mask a b c) s t (builtSlot .setDioIrqParams 9 frame none) ∧
      FrameHas 0x08#8 9
        [(s.config.layout.irqMask, twoBytes (cleared (irqTypeOf s.config) mask)),
          (s.config.layout.dio1Mask, twoBytes (cleared (irqTypeOf s.config) a)),
          (s.config.layout.dio2Mask, twoBytes (cleared (irqTypeOf s.config) b)),
          (s.config.layout.dio3Mask, twoBytes (cleared (irqTypeOf s.config) c))] frame ∧
      Reads t s.nextHandle .irqMask (.bits (cleared (irqTypeOf s.config) mask)) ∧
      Reads t s.nextHandle .dio1Mask (.bits (cleared (irqTypeOf s.config) a)) ∧
      Reads t s.nextHandle .dio2Mask (.bits (cleared (irqTypeOf s.config) b)) ∧
      Reads t s.nextHandle .dio3Mask (.bits (cleared (irqTypeOf s.config) c))

/-- SetModulationParamsLora under every legal layout (43_fixed_commands.md section 2; layout, codes and Boolean byte: log
entries 3, 4 and 20). The byte of a term that is no member at its width is free (log entry 27). -/
def Obligations.SetModulationParamsLoraEmitsFourCodes : Prop :=
  ∀ (s : State) (sf : SpreadingFactor) (bw : Bandwidth) (cr : CodingRate) (ldro : Bool), s.fault = none →
    layoutOk s.config.layout = true →
    ∃ t frame x y z, Constructs (.setModulationParamsLora sf bw cr ldro) s t
        (builtSlot .setModulationParamsLora 5 frame none) ∧
      FrameHas 0x8B#8 5
        [(s.config.layout.sf, [x]), (s.config.layout.bw, [y]), (s.config.layout.cr, [z]),
          (s.config.layout.lowDataRateOptimize, [if ldro then 0x01#8 else 0x00#8])] frame ∧
      Reads t s.nextHandle .lowDataRateOptimize (.bool ldro) ∧
      (memberOk s.config.enumWidths (.spreadingFactor sf) = true →
        x = codeSpreadingFactor sf ∧ Reads t s.nextHandle .sf (.member (.spreadingFactor sf))) ∧
      (memberOk s.config.enumWidths (.bandwidth bw) = true →
        y = codeBandwidth bw ∧ Reads t s.nextHandle .bw (.member (.bandwidth bw))) ∧
      (memberOk s.config.enumWidths (.codingRate cr) = true →
        z = codeCodingRate cr ∧ Reads t s.nextHandle .cr (.member (.codingRate cr)))

/-- SetPacketParams under every legal layout (43_fixed_commands.md section 2; layout, codes, byte order and Boolean byte: log
entries 3, 4, 6 and 20). The byte of a term that is no member at its width is free (log entry 27). -/
def Obligations.SetPacketParamsEmitsItsFiveFields : Prop :=
  ∀ (s : State) (pre : Nat) (ht : HeaderType) (len : Nat) (crc : Bool) (iq : InvertIq), s.fault = none →
    layoutOk s.config.layout = true →
    ∃ t frame x y, Constructs (.setPacketParams pre ht len crc iq) s t (builtSlot .setPacketParams 7 frame none) ∧
      FrameHas 0x8C#8 7
        [(s.config.layout.preambleLength, twoBytes pre), (s.config.layout.headerType, [x]),
          (s.config.layout.payloadLength, [byteNo 0 len]),
          (s.config.layout.crcOn, [if crc then 0x01#8 else 0x00#8]), (s.config.layout.invertIq, [y])] frame ∧
      Reads t s.nextHandle .preambleLength (.nat (pre % 2 ^ 16)) ∧
      Reads t s.nextHandle .payloadLength (.nat (len % 2 ^ 8)) ∧ Reads t s.nextHandle .crcOn (.bool crc) ∧
      (memberOk s.config.enumWidths (.headerType ht) = true →
        x = codeHeaderType ht ∧ Reads t s.nextHandle .headerType (.member (.headerType ht))) ∧
      (memberOk s.config.enumWidths (.invertIq iq) = true →
        y = codeInvertIq iq ∧ Reads t s.nextHandle .invertIq (.member (.invertIq iq)))

/-- SetTxParams under every legal layout: the power is the two's-complement byte, read back reduced to -128..127
(43_fixed_commands.md section 2; log entries 3, 4 and 20). The byte of a term that is no member at its width is free (log entry
27). -/
def Obligations.SetTxParamsEmitsTheSignedPower : Prop :=
  ∀ (s : State) (power : Int) (ramp : RampTime), s.fault = none → layoutOk s.config.layout = true →
    ∃ t frame x, Constructs (.setTxParams power ramp) s t (builtSlot .setTxParams 3 frame none) ∧
      FrameHas 0x8E#8 3 [(s.config.layout.power, [BitVec.ofInt 8 power]), (s.config.layout.rampTime, [x])] frame ∧
      Reads t s.nextHandle .power (.int (Int.bmod power 256)) ∧
      (memberOk s.config.enumWidths (.rampTime ramp) = true →
        x = codeRampTime ramp ∧ Reads t s.nextHandle .rampTime (.member (.rampTime ramp)))

/-- SetDio2AsRfSwitchCtrl and, under every legal layout, SetDio3AsTcxoCtrl (43_fixed_commands.md section 2; layout, codes, byte
order and Boolean byte: log entries 3, 4, 6 and 20). The byte of a term that is no member at its width is free (log entry 27). -/
def Obligations.DioControlCommandsEmitTheirFields : Prop :=
  ∀ (s : State) (en : Bool) (v : TcxoVoltage) (delay : Nat), s.fault = none → layoutOk s.config.layout = true →
    (∃ t, Constructs (.setDio2AsRfSwitchCtrl en) s t
        (builtSlot .setDio2AsRfSwitchCtrl 2 [0x9D#8, if en then 0x01#8 else 0x00#8] none) ∧
      Reads t s.nextHandle .enable (.bool en)) ∧
    ∃ t frame x, Constructs (.setDio3AsTcxoCtrl v delay) s t (builtSlot .setDio3AsTcxoCtrl 5 frame none) ∧
      FrameHas 0x97#8 5
        [(s.config.layout.voltage, [x]), (s.config.layout.delay, [byteNo 2 delay, byteNo 1 delay, byteNo 0 delay])]
        frame ∧
      Reads t s.nextHandle .delay (.nat (delay % 2 ^ 24)) ∧
      (memberOk s.config.enumWidths (.tcxoVoltage v) = true →
        x = codeTcxoVoltage v ∧ Reads t s.nextHandle .voltage (.member (.tcxoVoltage v)))

/-! ## Construction: the register kinds and the variable kinds -/

/-- WriteRegister (42_register_access.md section 2): for every address and byte the frame and its TLEN; the address and the raw
value read back (decision D17); no accessor decodes an inbound byte of it; and every typed request runs as an address and a byte,
the encoded one for a value of a register of REG_SET (outside them the byte is free, log entry 16). -/
def Obligations.WriteRegisterEmitsAddressThenByte : Prop :=
  ∀ (s : State) (addr : Nat) (b : Byte), s.fault = none →
    (∀ reg v, ∃ e, runHostOp (.writeRegisterOf reg v) s = exec (.writeRegister reg.addr.toNat e) s ∧
      (reg ∈ s.config.regSet → isRegValue reg.conv v = true → e = regEnc reg.conv v)) ∧
    ∃ t, Constructs (.writeRegister addr b) s t
        (builtSlot .writeRegister 4 [0x0D#8, byteNo 1 addr, byteNo 0 addr, b] none) ∧
      Reads t s.nextHandle .address (.nat (addr % 2 ^ 16)) ∧ Reads t s.nextHandle .rawValue (.byte b) ∧
      runHostOp (.tlen s.nextHandle) t = .next { t with returned := t.returned ++ [.nat 4] } ∧
      ∀ a, accessorApplies a .writeRegister = true → isReadBack .writeRegister a = true

/-- ReadRegister (42_register_access.md section 3): for every address the frame and its TLEN, its two bytes without a field being
0x00 (decision D5, log entry 5); the address reads back (decision D17); and every typed request is the one of its address. -/
def Obligations.ReadRegisterEmitsAddressThenDummies : Prop :=
  ∀ (s : State) (addr : Nat), s.fault = none →
    (∀ reg, runHostOp (.readRegisterOf reg) s = exec (.readRegister reg.addr.toNat) s) ∧
    ∃ t, Constructs (.readRegister addr) s t
        (builtSlot .readRegister 5 [0x1D#8, byteNo 1 addr, byteNo 0 addr, 0x00#8, 0x00#8] none) ∧
      Reads t s.nextHandle .address (.nat (addr % 2 ^ 16)) ∧
      runHostOp (.tlen s.nextHandle) t = .next { t with returned := t.returned ++ [.nat 5] }

/-- WriteBuffer constructs with DLEN at the full data capacity and reads back DLEN, offset and payload; an ill-sized one is
refused, BAD_CAP before PAYLOAD_LENGTH, and only the mark changes (44_variable_commands.md section 2, 60_exceptions.md section 2;
the exact payload length is decision D13, the refusals decisions D22 and D32). -/
def Obligations.WriteBufferConstructsOrIsRefused : Prop :=
  ∀ (s : State) (cap offset : Nat) (data : List Byte), s.fault = none →
    (2 ≤ cap → data.length = cap - 2 →
      ∃ t, Constructs (.writeBuffer cap offset data) s t
          (builtSlot .writeBuffer cap ([0x0E#8, byteNo 0 offset] ++ data) (some (cap - 2))) ∧
        Reads t s.nextHandle .dataLength (.nat (cap - 2)) ∧ Reads t s.nextHandle .offset (.nat (offset % 256)) ∧
        Reads t s.nextHandle .payload (.bytes data) ∧
        runHostOp (.tlen s.nextHandle) t = .next { t with returned := t.returned ++ [.nat cap] }) ∧
    (cap < 2 → exec (.writeBuffer cap offset data) s = .next { s with fault := some ⟨.badCap, none, .number cap⟩ }) ∧
    (2 ≤ cap → data.length ≠ cap - 2 →
      exec (.writeBuffer cap offset data) s = .next { s with fault := some ⟨.payloadLength, none, .number data.length⟩ })

/-- ReadBuffer (44_variable_commands.md section 3): the frame, its dummy and receive bytes being 0x00 (decision D5, log entry 5),
DLEN and TLEN for every capacity that holds the header, and the read-backs of DLEN and offset (decision D17); below it, BAD_CAP
(decision D32). -/
def Obligations.ReadBufferConstructsOrIsRefused : Prop :=
  ∀ (s : State) (cap offset : Nat), s.fault = none →
    (3 ≤ cap →
      ∃ t, Constructs (.readBuffer cap offset) s t
          (builtSlot .readBuffer cap ([0x1E#8, byteNo 0 offset, 0x00#8] ++ List.replicate (cap - 3) 0x00#8)
            (some (cap - 3))) ∧
        Reads t s.nextHandle .dataLength (.nat (cap - 3)) ∧ Reads t s.nextHandle .offset (.nat (offset % 256)) ∧
        runHostOp (.tlen s.nextHandle) t = .next { t with returned := t.returned ++ [.nat cap] } ∧
        (cap = 3 → Reads t s.nextHandle .data (.bytes []))) ∧
    (cap < 3 → exec (.readBuffer cap offset) s = .next { s with fault := some ⟨.badCap, none, .number cap⟩ })

/-! ## The command contract and the transport port -/

/-- OPCODE, OUTBOUND, INBOUND and TLEN of a slot that passes the checks: what each returns, and that nothing else changes
(41_command_contract.md R200 to R204). -/
def Obligations.ContractOperationsReturnTheSlotsFields : Prop :=
  ∀ (s : State) (h : Handle) (sl : Slot), Inv s → Ready s h sl →
    (∃ b, runHostOp (.opcode h) s = .next { s with returned := s.returned ++ [.byte b] } ∧
      (sl.kind, b.toNat) ∈ opcodeTableR110.map (fun row => (row.1, row.2.1)) ∧ sl.out[0]? = some b) ∧
    (runHostOp (.outbound h) s = .next { s with returned := s.returned ++ [.bytes sl.out] } ∧ sl.out.length = sl.cap) ∧
    (∃ cs, runHostOp (.inbound h) s = .next { s with returned := s.returned ++ [.cells cs] } ∧
      cs.length = sl.out.length ∧ ∀ i, i < sl.cap → cs[i]? = some (s.inAt h i)) ∧
    ∃ n, runHostOp (.tlen h) s = .next { s with returned := s.returned ++ [.nat n] } ∧ n ≤ sl.cap ∧
      (sl.kind = .writeBuffer → ∃ d, sl.dlen = some d ∧ n = 2 + d) ∧
      (sl.kind = .readBuffer → ∃ d, sl.dlen = some d ∧ n = 3 + d) ∧
      (sl.kind ≠ .writeBuffer → sl.kind ≠ .readBuffer → n = sl.cap)

/-- In every legal state each slot's OUT has CAP bytes and begins with its opcode, and IN has CAP cells and none beyond
(10_state.md R33, R34). -/
def Obligations.BuffersHaveCapBytesAndTheOpcode : Prop :=
  ∀ (s t : State) (h : Handle) (sl : Slot), Inv s → step s = .next t → t.slotAt h = some sl →
    sl.out.length = sl.cap ∧ (Memory.cells sl.inb sl.cap).length = sl.cap ∧
      (∀ i, sl.cap ≤ i → t.inAt h i = none) ∧ sl.out[0]? = some (opcodeOf sl.kind)

/-- The transfer of a variable slot (44_variable_commands.md sections 2 and 3): TLEN is the header and DLEN bytes, SUBMIT, from
BUILT or DONE (decisions D3 and D15), hands the transport exactly these, OUT keeps every byte, and the completion of a ReadBuffer
slot (decision D16) fills as many cells of IN and leaves the others (decision D4). -/
def Obligations.VariableTransfersAreHeaderAndDlenBytes : Prop :=
  ∀ (s : State) (h : Handle) (sl : Slot) (d : Nat), Inv s → Ready s h sl → sl.dlen = some d →
    (sl.kind = .writeBuffer →
      runHostOp (.tlen h) s = .next { s with returned := s.returned ++ [.nat (2 + d)] } ∧
      ∃ t, runHostOp (.submit h) s = .next t ∧ t.handed = s.handed ++ [⟨h, sl.out.take (2 + d), 2 + d⟩] ∧
        (sl.out.take (2 + d)).length = 2 + d ∧ ∀ i, t.outAt h i = s.outAt h i) ∧
    (sl.kind = .readBuffer →
      runHostOp (.tlen h) s = .next { s with returned := s.returned ++ [.nat (3 + d)] } ∧
      ∃ t, runHostOp (.submit h) s = .next t ∧ t.handed = s.handed ++ [⟨h, sl.out.take (3 + d), 3 + d⟩] ∧
        (sl.out.take (3 + d)).length = 3 + d ∧ (∀ i, t.outAt h i = s.outAt h i) ∧
        ∀ bytes : List Byte, bytes.length = 3 + d →
          ∃ u, complete h bytes t = .next u ∧ (∀ i, i < 3 + d → u.inAt h i = bytes[i]?) ∧
            ∀ i, 3 + d ≤ i → u.inAt h i = s.inAt h i)

/-- SUBMIT from BUILT or DONE: the slot goes IN_FLIGHT with XLEN the transfer length, its frame is handed over, and nothing
else changes (41_command_contract.md section 2; decisions D3 and D15). -/
def Obligations.SubmitGoesInFlight : Prop :=
  ∀ (s : State) (h : Handle) (sl : Slot), Ready s h sl →
    ∃ t, runHostOp (.submit h) s = .next t ∧
      t.slotAt h = some { sl with xlen := sl.transferLength, phase := .inFlight } ∧ (∀ j, j ≠ h → t.slotAt j = s.slotAt j) ∧
      t.handed = s.handed ++ [⟨h, sl.out.take sl.transferLength, sl.transferLength⟩] ∧ t.fault = none ∧
      t.config = s.config ∧ t.nextHandle = s.nextHandle ∧ t.returned = s.returned ∧ t.inputs = s.inputs ∧
      t.opIndex = s.opIndex

/-- COMPLETE of an in-flight slot with XLEN bytes: they land at IN[0..XLEN-1], every other cell of every slot and all of OUT
stay, and the slot is DONE (41_command_contract.md section 2, 10_state.md section 1; decisions D4 and D16). That XLEN keeps its
value is read from what COMPLETE writes (log entry 32). -/
def Obligations.CompleteWritesExactlyTheTransferredCells : Prop :=
  ∀ (s : State) (h : Handle) (sl : Slot) (bytes : List Byte), s.fault = none → s.slotAt h = some sl →
    sl.phase = .inFlight → sl.xlen = bytes.length →
    ∃ t sl', complete h bytes s = .next t ∧ t.slotAt h = some sl' ∧ sl'.phase = .done ∧ sl'.kind = sl.kind ∧
      sl'.cap = sl.cap ∧ sl'.out = sl.out ∧ sl'.dlen = sl.dlen ∧ sl'.xlen = sl.xlen ∧
      (∀ i, i < bytes.length → t.inAt h i = bytes[i]?) ∧ (∀ i, bytes.length ≤ i → t.inAt h i = s.inAt h i) ∧
      (∀ j, j ≠ h → t.slotAt j = s.slotAt j) ∧ t.fault = none ∧ t.config = s.config ∧ t.nextHandle = s.nextHandle ∧
      t.returned = s.returned ∧ t.handed = s.handed ∧ t.inputs = s.inputs ∧ t.opIndex = s.opIndex

/-- A completion with a wrong number of bytes raises TRANSPORT_LENGTH; one of a slot that is not in flight, or that does not
exist, is no step (41_command_contract.md section 2, 60_exceptions.md section 2; decision D16, log entry 12). -/
def Obligations.CompletionChecksFlightThenLength : Prop :=
  ∀ (s : State) (h : Handle) (bytes : List Byte), s.fault = none →
    (∀ sl, s.slotAt h = some sl → sl.phase = .inFlight → bytes.length ≠ sl.xlen →
      complete h bytes s = .next { s with fault := some ⟨.transportLength, some h, .number bytes.length⟩ }) ∧
    (∀ sl, s.slotAt h = some sl → sl.phase.isInFlight = false → complete h bytes s = .refused (.noTransportStep h)) ∧
    (s.slotAt h = none → complete h bytes s = .refused (.noTransportStep h))

/-- SET_DLEN on a ReadBuffer slot (44_variable_commands.md section 3): within CAP - 3 it changes DLEN alone, up or down (decision
D12, log entry 19), beyond it raises CONTRACT_DLEN and changes the mark alone; on a kind that is not variable it is refused, the
record naming no info (log entry 15), and in flight it faults. -/
def Obligations.SetDlenOnReadBuffer : Prop :=
  (∀ s h n, OnlyOn [.writeBuffer, .readBuffer] (.setDlen h n) .setDlen h s) ∧
  ∀ (s : State) (h : Handle) (sl : Slot) (n : Nat), Inv s → Ready s h sl → sl.kind = .readBuffer →
    (n ≤ sl.cap - 3 →
      ∃ t, runHostOp (.setDlen h n) s = .next t ∧ t.slotAt h = some { sl with dlen := some n } ∧
        (∀ j, j ≠ h → t.slotAt j = s.slotAt j) ∧ t.fault = none ∧ t.config = s.config ∧
        t.nextHandle = s.nextHandle ∧ t.returned = s.returned ∧ t.handed = s.handed ∧ t.inputs = s.inputs ∧
        t.opIndex = s.opIndex) ∧
    (sl.cap - 3 < n → runHostOp (.setDlen h n) s = .next { s with fault := some ⟨.contractDlen, some h, .number n⟩ })

/-- SET_DLEN on a WriteBuffer slot, shrinking or growing within CAP - 2; beyond it, CONTRACT_DLEN
(44_variable_commands.md section 2; growth is decision D12, log entry 19). -/
def Obligations.SetDlenOnWriteBuffer : Prop :=
  ∀ (s : State) (h : Handle) (sl : Slot) (n : Nat), Inv s → Ready s h sl → sl.kind = .writeBuffer →
    (n ≤ sl.cap - 2 →
      ∃ t, runHostOp (.setDlen h n) s = .next t ∧ t.slotAt h = some { sl with dlen := some n } ∧
        (∀ j, j ≠ h → t.slotAt j = s.slotAt j) ∧ t.fault = none ∧ t.config = s.config ∧
        t.nextHandle = s.nextHandle ∧ t.returned = s.returned ∧ t.handed = s.handed ∧ t.inputs = s.inputs ∧
        t.opIndex = s.opIndex ∧ runHostOp (.tlen h) t = .next { t with returned := t.returned ++ [.nat (2 + n)] } ∧
        Reads t h .payload (.bytes ((sl.out.drop 2).take n))) ∧
    (sl.cap - 2 < n → runHostOp (.setDlen h n) s = .next { s with fault := some ⟨.contractDlen, some h, .number n⟩ })

/-- DROP removes the slot and nothing else; afterwards the handle names no slot, and the record of NO_SLOT
carries no info (70_reset_and_hazards.md section 1; decision D29, log entry 15). -/
def Obligations.DropRemovesTheSlot : Prop :=
  ∀ (s : State) (h : Handle) (sl : Slot), Ready s h sl →
    ∃ t, runHostOp (.drop h) s = .next t ∧ t.slotAt h = none ∧ (∀ j, j ≠ h → t.slotAt j = s.slotAt j) ∧
      t.fault = none ∧ t.config = s.config ∧ t.nextHandle = s.nextHandle ∧ t.returned = s.returned ∧
      t.handed = s.handed ∧ t.inputs = s.inputs ∧ t.opIndex = s.opIndex ∧
      runHostOp (.opcode h) t = .next { t with fault := some ⟨.noSlot, some h, .nothing⟩ }

/-- A transfer carries the reply to the decoders: submit a ReadBuffer slot, complete it with any reply of the transfer
length, and `data()` is the reply after its three header bytes (44_variable_commands.md section 3, 41_command_contract.md
section 2; decisions D3 and D16). -/
def Obligations.ReadBufferDataIsTheReplyAfterTheHeader : Prop :=
  ∀ (s : State) (h : Handle) (sl : Slot) (d : Nat) (bytes : List Byte), Inv s → Ready s h sl → sl.kind = .readBuffer →
    sl.dlen = some d → bytes.length = 3 + d →
    ∃ u t, runHostOp (.submit h) s = .next u ∧ complete h bytes u = .next t ∧ Reads t h .data (.bytes (bytes.drop 3))

/-! ## Decoders -/

/-- RSSI and SNR of every byte: the value, its range, and truncation toward zero (45_decoders.md R371, R372). -/
def Obligations.RssiAndSnrOfEveryByte : Prop :=
  ∀ b : Byte, rssi b = -((b.toNat / 2 : Nat) : Int) ∧ -127 ≤ rssi b ∧ rssi b ≤ 0 ∧
    snr b = Int.tdiv b.toInt 4 ∧ -32 ≤ snr b ∧ snr b ≤ 31 ∧
    (0 ≤ b.toInt → 4 * snr b ≤ b.toInt ∧ b.toInt < 4 * snr b + 4) ∧
    (b.toInt < 0 → b.toInt ≤ 4 * snr b ∧ 4 * snr b < b.toInt + 4)

/-- GetPacketStatusLora (45_decoders.md R379): the three accessors read IN[2], IN[3] and IN[4]. -/
def Obligations.PacketStatusDecodesRssiSnrSignalRssi : Prop :=
  ∀ (s : State) (h : Handle) (sl : Slot) (b2 b3 b4 : Byte), Inv s → Ready s h sl → sl.kind = .getPacketStatusLora →
    (s.inAt h 2 = some b2 → Reads s h .rssiPkt (.int (-((b2.toNat / 2 : Nat) : Int)))) ∧
    (s.inAt h 3 = some b3 → Reads s h .snrPkt (.int (Int.tdiv b3.toInt 4))) ∧
    (s.inAt h 4 = some b4 → Reads s h .signalRssiPkt (.int (-((b4.toNat / 2 : Nat) : Int))))

/-- `value()` on a ReadRegister slot (42_register_access.md section 3): the byte of IN[4], or UNWRITTEN_IN; in the typed form,
which names its register (decision D25, log entry 22), `reg.dec` of it for a register of REG_SET (outside it a free value, log
entry 16); on another kind it is refused, the record naming no info (log entry 15), and in flight it faults. -/
def Obligations.ReadRegisterValueIsTheLastByte : Prop :=
  (∀ s h, OnlyOn [.readRegister] (.access h .value) (.accessor .value) h s ∧
    ∀ reg, OnlyOn [.readRegister] (.access h (.valueAs reg)) (.accessor (.valueAs reg)) h s) ∧
  ∀ (s : State) (h : Handle) (sl : Slot), Inv s → Ready s h sl → sl.kind = .readRegister →
    (∀ b, s.inAt h 4 = some b → Reads s h .value (.byte b) ∧
      ∀ reg, ∃ n, Reads s h (.valueAs reg) (.nat n) ∧ (reg ∈ s.config.regSet → n = regDec reg.conv b)) ∧
    (s.inAt h 4 = none →
      runHostOp (.access h .value) s = .next { s with fault := some ⟨.unwrittenIn, some h, .number 4⟩ } ∧
      ∀ reg,
        runHostOp (.access h (.valueAs reg)) s = .next { s with fault := some ⟨.unwrittenIn, some h, .number 4⟩ })

/-- `data()` on a ReadBuffer slot (44_variable_commands.md section 3): the bytes of IN[3 .. 2+DLEN] in order, or UNWRITTEN_IN at
the lowest unwritten index of them; on another kind it is refused, the record naming no info (log entry 15), and in flight it
faults. -/
def Obligations.ReadBufferDataReadsDlenBytes : Prop :=
  (∀ s h, OnlyOn [.readBuffer] (.access h .data) (.accessor .data) h s) ∧
  ∀ (s : State) (h : Handle) (sl : Slot) (d : Nat), Inv s → Ready s h sl → sl.kind = .readBuffer → sl.dlen = some d →
    (∀ bs : List Byte, bs.length = d → (∀ i, i < d → s.inAt h (3 + i) = bs[i]?) → Reads s h .data (.bytes bs)) ∧
    (∀ k, k < d → s.inAt h (3 + k) = none → (∀ i, i < k → (s.inAt h (3 + i)).isSome) →
      runHostOp (.access h .data) s = .next { s with fault := some ⟨.unwrittenIn, some h, .number (3 + k)⟩ })

/-- GetStatus under every legal layout: the status byte with its reserved bits cleared, and the members of its two 3-bit fields
(45_decoders.md section 2; positions and codes: log entries 3 and 4). -/
def Obligations.GetStatusDecodesItsSubFields : Prop :=
  ∀ (s : State) (h : Handle) (sl : Slot) (b : Byte), Inv s → Ready s h sl → sl.kind = .getStatus → s.inAt h 1 = some b →
    Reads s h .status (.bits (cleared s.config.layout.statusType b.toNat)) ∧
    ∃ p q, fieldPlace s.config.layout.statusType .chipMode = some p ∧
      fieldPlace s.config.layout.statusType .commandStatus = some q ∧
      Reads s h .chipMode (.member (.chipMode (ofCodeChipMode (BitVec.ofNat 8 (b.toNat / 2 ^ p.offset % 8))))) ∧
      Reads s h .commandStatus
        (.member (.commandStatus (ofCodeCommandStatus (BitVec.ofNat 8 (b.toNat / 2 ^ q.offset % 8)))))

/-- GetPacketType, GetIrqStatus and GetDeviceErrors under every legal layout (45_decoders.md section 2; positions, codes and byte
order: log entries 3, 4 and 6). -/
def Obligations.MaskedReadKindsDecodeWithoutFail : Prop :=
  ∀ (s : State) (h : Handle) (sl : Slot) (b c : Byte), Inv s → Ready s h sl →
    (sl.kind = .getPacketType → s.inAt h s.config.layout.packetType = some b →
      Reads s h .packetType (.member (decEnum s.config.enumWidths .packetType b))) ∧
    (sl.kind = .getIrqStatus → s.inAt h s.config.layout.irqStatus = some b →
      s.inAt h (s.config.layout.irqStatus + 1) = some c →
      Reads s h .irqStatus (.bits (cleared (irqTypeOf s.config) (b.toNat * 256 + c.toNat)))) ∧
    (sl.kind = .getDeviceErrors → s.inAt h s.config.layout.opError = some b →
      s.inAt h (s.config.layout.opError + 1) = some c →
      Reads s h .opError (.bits (cleared s.config.layout.opErrorType (b.toNat * 256 + c.toNat))))

/-- GetRxBufferStatus and GetStatsLora under every legal layout (45_decoders.md section 2; positions and byte order: log entries
3 and 6). -/
def Obligations.CountersDecodeAsBigEndianNaturals : Prop :=
  ∀ (s : State) (h : Handle) (sl : Slot) (b c : Byte), Inv s → Ready s h sl →
    (sl.kind = .getRxBufferStatus →
      (s.inAt h s.config.layout.payloadLengthRx = some b → Reads s h .payloadLengthRx (.nat b.toNat)) ∧
      (s.inAt h s.config.layout.rxStartBufferPointer = some b → Reads s h .rxStartBufferPointer (.nat b.toNat))) ∧
    (sl.kind = .getStatsLora →
      (s.inAt h s.config.layout.nbPktReceived = some b → s.inAt h (s.config.layout.nbPktReceived + 1) = some c →
        Reads s h .nbPktReceived (.nat (b.toNat * 256 + c.toNat))) ∧
      (s.inAt h s.config.layout.nbPktCrcError = some b → s.inAt h (s.config.layout.nbPktCrcError + 1) = some c →
        Reads s h .nbPktCrcError (.nat (b.toNat * 256 + c.toNat))) ∧
      (s.inAt h s.config.layout.nbPktHeaderErr = some b → s.inAt h (s.config.layout.nbPktHeaderErr + 1) = some c →
        Reads s h .nbPktHeaderErr (.nat (b.toNat * 256 + c.toNat))))

/-- Whatever the device replied, every accessor of a completed fixed slot returns a value (60_exceptions.md section 2,
45_decoders.md section 1). -/
def Obligations.EveryAccessorOfACompletedFixedSlotReturns : Prop :=
  ∀ (s : State) (h : Handle) (sl : Slot) (a : Accessor), Inv s → Ready s h sl → sl.phase = .done →
    (fixedCap sl.kind).isSome = true → accessorApplies a sl.kind = true →
    ∃ v, Reads s h a v

/-- A read-back accessor reads no inbound byte: it returns, on a slot never transferred as on any other, a value that does
not depend on IN (43_fixed_commands.md section 1; decision D17). -/
def Obligations.ReadBacksReadOnlyOut : Prop :=
  ∀ (s : State) (h : Handle) (sl : Slot) (a : Accessor), Inv s → Ready s h sl → accessorApplies a sl.kind = true →
    isReadBack sl.kind a = true →
    ∃ v, Reads s h a v ∧ ∀ m : Memory, readAccessor s.config a { sl with inb := m } = .ok v

/-- Before its first transfer a slot's decoder raises UNWRITTEN_IN at the lowest index it reads (10_state.md section 1,
70_reset_and_hazards.md section 4; decision D4), under every legal layout (log entry 3). -/
def Obligations.DecodingBeforeATransferFaults : Prop :=
  ∀ (s : State) (h : Handle) (sl : Slot) (a : Accessor) (i : Nat), Inv s → Ready s h sl → sl.phase = .built →
    accessorApplies a sl.kind = true → isReadBack sl.kind a = false → firstIndexRead s.config.layout a = some i →
    (a = .data → sl.dlen ≠ some 0) →
    runHostOp (.access h a) s = .next { s with fault := some ⟨.unwrittenIn, some h, .number i⟩ }

/-- No accessor reads IN[0] (20_memory.md section 3): under every legal layout (log entry 3) its value makes no difference to any
of them. -/
def Obligations.NoAccessorDependsOnInboundZero : Prop :=
  ∀ (cfg : Config) (a : Accessor) (sl : Slot) (b : Byte), layoutOk cfg.layout = true →
    readAccessor cfg a { sl with inb := Memory.write sl.inb 0 b } = readAccessor cfg a sl

/-! ## Faults and the order of checks -/

/-- The common checks of every operation on a slot, in their order: NO_SLOT, then WRONG_KIND even in flight, then
IN_FLIGHT_ACCESS with the operation's name (60_exceptions.md section 2; decisions D14, D22 and D32, log entry 15). Every accessor
belongs to the kinds the spec prints for it and to no other (30_encoding.md section 6; read-backs are decision D17). -/
def Obligations.CommonChecksInTheirOrder : Prop :=
  (∀ (s : State) (op : HostOp) (h : Handle) (nm : OpName), s.fault = none → opSlot op = some h → opName op = some nm →
    (s.slotAt h = none → runHostOp op s = .next { s with fault := some ⟨.noSlot, some h, .nothing⟩ }) ∧
    (∀ sl, s.slotAt h = some sl → opApplies sl.kind op = false →
      runHostOp op s = .next { s with fault := some ⟨.wrongKind, some h, .nothing⟩ }) ∧
    (∀ sl, s.slotAt h = some sl → opApplies sl.kind op = true → sl.phase.isInFlight = true →
      runHostOp op s = .next { s with fault := some ⟨.inFlightAccess, some h, .operation nm⟩ })) ∧
  (∀ (s : State) (h : Handle),
    (∀ row ∈ accessorTable, OnlyOn row.2 (.access h row.1) (.accessor row.1) h s) ∧
    ∀ reg, OnlyOn [.readRegister] (.access h (.valueAs reg)) (.accessor (.valueAs reg)) h s) ∧
  ∀ a : Accessor, a ∈ accessorTable.map Prod.fst ∨ ∃ reg, a = .valueAs reg

/-- In a faulted state nothing has a step: no event, no instruction, no completion (60_exceptions.md section 2; decision D22,
log entry 10). -/
def Obligations.NothingRunsAfterAFault : Prop :=
  ∀ (s : State) (r : FaultRecord), s.fault = some r →
    step s = .fault (.halted r) ∧ ∀ e, runEvent e s = .fault (.halted r)

/-- Fault entry is precise: a step that sets the mark changes nothing else (60_exceptions.md section 2; decision D22, log
entry 10). -/
def Obligations.FaultEntryIsPrecise : Prop :=
  ∀ (s t : State) (r : FaultRecord), step s = .next t → t.fault = some r → s.fault = none ∧ t = { s with fault := some r }

/-! ## The whole machine -/

/-- Power-on: no slots and no fault (70_reset_and_hazards.md section 1; decisions D22 and D29), the host at its first operation
(decision D2), and the invariant holds: the configuration at power-on is a legal one (log entries 2, 3 and 31). -/
def Obligations.ResetIsEmptyAndLegal : Prop :=
  State.reset.slots = [] ∧ State.reset.fault = none ∧ State.reset.opIndex = 0 ∧ Inv State.reset

/-- Every step keeps the invariant that Safety.lean collects: 10_state.md R33 to R37 and R43, and the dummy bytes of
30_encoding.md section 2. That a dummy byte is 0x00 is decision D5 (log entry 5); what is received, and when, is decisions D3, D4
and D16; the handles, XLEN, the canonical stores and the legal layouts are the model's (log entries 8, 9, 23, 31 and 32). -/
def Obligations.StepKeepsTheInvariant : Prop :=
  ∀ s t : State, Inv s → step s = .next t → Inv t

/-- No step changes the configuration (10_state.md R46). -/
def Obligations.NoStepChangesTheConfiguration : Prop :=
  ∀ s t : State, step s = .next t → t.config = s.config

/-- No step changes the kind, the capacity or the outbound bytes of a slot (10_state.md section 1; decision D13), only a
completion of that slot changes its inbound cells (20_memory.md section 1), only SET_DLEN of that slot its DLEN and only SUBMIT
of that slot its XLEN (10_state.md section 1; XLEN outside IN_FLIGHT is log entries 9 and 32). -/
def Obligations.FramesNeverChangeAndOnlyCompletionWritesIn : Prop :=
  ∀ (s t : State) (h : Handle) (a b : Slot), Inv s → step s = .next t → s.slotAt h = some a → t.slotAt h = some b →
    b.kind = a.kind ∧ b.cap = a.cap ∧ b.out = a.out ∧
      ((∀ bytes rest, s.inputs ≠ .complete h bytes :: rest) → b.inb = a.inb) ∧
      ((∀ n rest, s.inputs ≠ .host (.setDlen h n) :: rest) → b.dlen = a.dlen) ∧
      ((∀ rest, s.inputs ≠ .host (.submit h) :: rest) → b.xlen = a.xlen)

/-- The only changes of PHASE: SUBMIT from BUILT or DONE to IN_FLIGHT, capturing XLEN, COMPLETE from IN_FLIGHT to DONE with XLEN
bytes, construction to BUILT (10_state.md section 1; decisions D3 and D15; XLEN outside IN_FLIGHT is log entries 9 and 32). -/
def Obligations.PhaseChangesOnlyAsTheLifecycleSays : Prop :=
  ∀ (s t : State) (h : Handle) (b : Slot), Inv s → step s = .next t → t.slotAt h = some b →
    (s.slotAt h = none → b.phase = .built) ∧
    ∀ a, s.slotAt h = some a → (b.phase = a.phase ∧ b.xlen = a.xlen) ∨
      (∃ rest, s.inputs = .host (.submit h) :: rest ∧ a.phase.isInFlight = false ∧ b.phase = .inFlight ∧
        b.xlen = a.transferLength) ∨
      (∃ bytes rest, s.inputs = .complete h bytes :: rest ∧ a.phase = .inFlight ∧ bytes.length = a.xlen ∧
        b.phase = .done ∧ b.xlen = a.xlen)

/-- An event on one slot leaves every other slot as it was, and a constructor every slot there is (10_state.md section 1;
decision D29). -/
def Obligations.SlotsAreIndependent : Prop :=
  ∀ (s t : State) (e : Event) (rest : List Event) (j : Handle) (a : Slot), Inv s → s.inputs = e :: rest →
    step s = .next t → eventSlot e ≠ some j → s.slotAt j = some a → t.slotAt j = some a

/-- A handle once given out and dropped names no slot ever again (70_reset_and_hazards.md section 1; decision D29, log entry 8). -/
def Obligations.HandlesAreNeverReused : Prop :=
  ∀ (s t : State) (h : Handle), step s = .next t → h < s.nextHandle →
    h < t.nextHandle ∧ (s.slotAt h = none → t.slotAt h = none)

/-- A frame at the head of the inputs that decodes to a well-formed instruction is run as that instruction: it completes, the
request is consumed and the operation index advances (log entries 1, 28 and 29). -/
def Obligations.StepRunsTheDecodedInstruction : Prop :=
  ∀ (s : State) (frame : List Byte) (rest : List Event) (i : Instr), s.fault = none →
    s.inputs = .host (.constructFrame frame) :: rest → decode s.config frame = .ok i → i.wellFormed s.config = true →
    ∃ t, exec i s = .next t ∧ t.fault = none ∧ step s = .next { t with inputs := rest, opIndex := t.opIndex + 1 }

/-- Any event at the head of the inputs is run; a host operation that sets no fault advances the operation index by one, a
completion does not (10_state.md section 2, decision D2; log entries 1, 11 and 28). Without a fault a run is finished exactly
when the host has no further operation and no slot is in flight, whatever completions are left, and then there is no step
(70_reset_and_hazards.md section 5, decision D30; log entries 11 and 12). -/
def Obligations.StepRunsTheNextEvent : Prop :=
  ∀ (s : State), s.fault = none →
    (s.inputs = [] → step s = .refused .noEvent) ∧
    (∀ op rest t, s.inputs = .host op :: rest → runHostOp op s = .next t → t.fault = none →
      step s = .next { t with inputs := rest, opIndex := t.opIndex + 1 }) ∧
    (∀ h bytes rest t, s.inputs = .complete h bytes :: rest → complete h bytes s = .next t → t.fault = none →
      step s = .next { t with inputs := rest }) ∧
    (Inv s → (finished s = true ↔
      (∀ op, .host op ∉ s.inputs) ∧ ∀ h sl, s.slotAt h = some sl → sl.phase.isInFlight = false)) ∧
    (finished s = true → ∀ t, step s ≠ .next t)

/-! ## The bitfield codec, enumerations and register conversions -/

/-- Field offsets (40_bitfield_codec.md R142): a field declared after the entries `before` lies above their widths under
LSB_FIRST and below them under MSB_FIRST, and RMASK is exactly the bits of the reserved entries. -/
def Obligations.FieldOffsetsFollowTheDeclaredOrder : Prop :=
  ∀ (T : BFType) (before after : List BFEntry), bfTypeOk T = true →
    (∀ f wd ty, T.decl = before ++ .field f wd ty :: after →
      (T.order = .lsbFirst → fieldPlace T f = some ⟨wd, ty, (before.map entryWidth).sum⟩) ∧
      (T.order = .msbFirst → fieldPlace T f = some ⟨wd, ty, T.width - ((before.map entryWidth).sum + wd)⟩)) ∧
    (∀ wd i, T.decl = before ++ .reserved wd :: after →
      (T.order = .lsbFirst → (before.map entryWidth).sum ≤ i → i < (before.map entryWidth).sum + wd →
        (reservedMask T).testBit i = true) ∧
      (T.order = .msbFirst → T.width - ((before.map entryWidth).sum + wd) ≤ i →
        i < T.width - (before.map entryWidth).sum → (reservedMask T).testBit i = true)) ∧
    (∀ f p i, fieldPlace T f = some p → p.offset ≤ i → i < p.offset + p.width → (reservedMask T).testBit i = false) ∧
    ∀ i, T.width ≤ i → (reservedMask T).testBit i = false

/-- `BF.GET` reads `(v >> off) & mask(wd)`; after `BF.WITH` the field holds the operand truncated to its width, every other
field stays, and the result is a value of the type, so no reserved bit is touched (40_bitfield_codec.md R144, R145). -/
def Obligations.WithSetsOneFieldAndKeepsTheRest : Prop :=
  ∀ (T : BFType) (v : Nat) (f : FieldName) (p : FieldPlace) (n : Nat) (b : Bool), bfTypeOk T = true →
    isBFValue T v = true → fieldPlace T f = some p →
    (p.ty = .uint → bfGet T v f = some (.uint (v / 2 ^ p.offset % 2 ^ p.width)) ∧
      bfGet T (bfWith T v f (.uint n)) f = some (.uint (n % 2 ^ p.width)) ∧
      isBFValue T (bfWith T v f (.uint n)) = true ∧
      ∀ g, g ≠ f → bfGet T (bfWith T v f (.uint n)) g = bfGet T v g) ∧
    (p.ty = .bool → bfGet T v f = some (.flag (v / 2 ^ p.offset % 2 == 1)) ∧
      bfGet T (bfWith T v f (.flag b)) f = some (.flag b) ∧ isBFValue T (bfWith T v f (.flag b)) = true ∧
      ∀ g, g ≠ f → bfGet T (bfWith T v f (.flag b)) g = bfGet T v g)

/-- The round-trip law of every bitfield type, for every assignment of fitting values to its fields in any order
(40_bitfield_codec.md section 1, "derived" there; 95_test_vectors.md P-b). -/
def Obligations.BitfieldRoundTrip : Prop :=
  ∀ (T : BFType) (asg : List (FieldName × FieldVal)), bfTypeOk T = true →
    (asg.map Prod.fst).Perm (fieldNames T.decl) →
    (∀ fx ∈ asg, ∃ p, fieldPlace T fx.1 = some p ∧ fitsField p fx.2) →
    isBFValue T (asg.foldl (fun v fx => bfWith T v fx.1 fx.2) (bfZero T)) = true ∧
      bfFromRaw T (bfToRaw T (asg.foldl (fun v fx => bfWith T v fx.1 fx.2) (bfZero T))) =
        asg.foldl (fun v fx => bfWith T v fx.1 fx.2) (bfZero T) ∧
      ∀ fx ∈ asg, bfGet T (asg.foldl (fun v fx => bfWith T v fx.1 fx.2) (bfZero T)) fx.1 = some fx.2

/-- `BF.FROM_RAW` clears exactly the reserved bits and those above the width; every field reads as in the raw integer
(40_bitfield_codec.md section 1; decision D10). -/
def Obligations.FromRawClearsExactlyTheReservedBits : Prop :=
  ∀ (T : BFType) (r : Nat), bfTypeOk T = true →
    isBFValue T (bfFromRaw T r) = true ∧ bfToRaw T (bfFromRaw T r) &&& reservedMask T = 0 ∧
      ∀ f, bfGet T (bfFromRaw T r) f = bfGet T (r % 2 ^ T.width) f

/-- The concrete types are legal and have the fields and reserved masks the spec prints (40_bitfield_codec.md section 2), and the
default CMD_LAYOUT is legal, holds them, and places every field it places where 43_fixed_commands.md and 45_decoders.md do
(general knowledge there: log entries 3 and 4). -/
def Obligations.ConcreteBitfieldTypesHaveTheirMasks : Prop :=
  (bfTypeOk sleepConfigType ∧ bfTypeOk statusType ∧ bfTypeOk opErrorType ∧ ∀ b, bfTypeOk (irqType b)) ∧
    reservedMask sleepConfigType = 0xFA ∧ reservedMask statusType = 0x81 ∧ reservedMask opErrorType = 0xFE80 ∧
    reservedMask (irqType false) = 0xFC00 ∧ reservedMask (irqType true) = 0xBC00 ∧
    (∀ row ∈ fieldTable, (fieldPlace row.1 row.2.1).map (fun p => (p.offset, p.width)) = some row.2.2) ∧
    layoutOk defaultLayout = true ∧ configOk defaultConfig = true ∧
    defaultConfig.layout =
      { sf := 1, bw := 2, cr := 3, lowDataRateOptimize := 4
        preambleLength := 1, headerType := 3, payloadLength := 4, crcOn := 5, invertIq := 6
        power := 1, rampTime := 2, txBase := 1, rxBase := 2
        irqMask := 1, dio1Mask := 3, dio2Mask := 5, dio3Mask := 7, voltage := 1, delay := 2
        packetType := 2, irqStatus := 2, payloadLengthRx := 2, rxStartBufferPointer := 3, opError := 2
        nbPktReceived := 2, nbPktCrcError := 4, nbPktHeaderErr := 6
        sleepConfigType := sleepConfigType, statusType := statusType, irqType := irqType false
        irqTypeBit14 := irqType true, opErrorType := opErrorType }

/-- `DEC_ENUM` never fails and masks (40_bitfield_codec.md R168, R169): for every legal width, enumeration and byte the
decoded member has the code `b & mask(ENUM_W(E))`; it decodes back from that code, and bits above the width make no
difference; and every member's code fits its width. -/
def Obligations.EnumDecodingMasksToTheWidth : Prop :=
  ∀ (ws : EnumWidths) (E : EnumId) (b : Byte), enumWidthsOk ws = true →
    (∀ m, memberOk ws m = true → (encEnum m).toNat < 2 ^ enumWidth ws (memberEnum m)) ∧
    memberEnum (decEnum ws E b) = E ∧
      (encEnum (decEnum ws E b)).toNat = b.toNat % 2 ^ enumWidth ws E ∧
      memberOk ws (decEnum ws E b) = true ∧
      ∀ b' : Byte, b'.toNat % 2 ^ enumWidth ws E = b.toNat % 2 ^ enumWidth ws E → decEnum ws E b' = decEnum ws E b

/-- The register round-trip (42_register_access.md R231): `dec(enc(v)) = v` for every value of every legal register type; on
plain bytes also `enc(dec(b)) = b`; on a bitfield type `enc(dec(b))` is `b` with its reserved bits cleared. -/
def Obligations.RegisterRoundTrip : Prop :=
  (∀ (c : RegConv) (v : Nat), regConvOk c = true → isRegValue c v = true → regDec c (regEnc c v) = v) ∧
    (∀ b : Byte, regEnc .plain (regDec .plain b) = b) ∧
    ∀ (T : BFType) (b : Byte), regConvOk (.bits T) = true →
      regEnc (.bits T) (regDec (.bits T) b) = b &&& ~~~(BitVec.ofNat 8 (reservedMask T))

/-- The pure functions return a value through the port, whatever their operands, and touch no slot (40_bitfield_codec.md section
1, 30_encoding.md section 6): on legal operands the value the spec gives, on others a free one (log entries 16 and 27). `BF.GET`
reads any raw integer by its formula, so `BF.FROM_RAW` makes no difference to it ("derived" in 40_bitfield_codec.md). -/
def Obligations.PureFunctionsReturnAndTouchNothing : Prop :=
  ∀ (s : State) (T : BFType) (r : Nat) (E : EnumId) (b : Byte) (m : Member) (reg : RegType) (w : Nat), s.fault = none →
    (∀ f, ∃ v, runHostOp (.pure f) s = .next { s with returned := s.returned ++ [v] }) ∧
    (bfTypeOk T = true →
      runHostOp (.pure (.bfZero T)) s = .next { s with returned := s.returned ++ [.bits 0] } ∧
      runHostOp (.pure (.bfFromRaw T r)) s = .next { s with returned := s.returned ++ [.bits (bfFromRaw T r)] } ∧
      ∀ f p, fieldPlace T f = some p →
        (∀ v, runHostOp (.pure (.bfGet T v f)) s =
          .next { s with returned := s.returned ++ [.field (natFieldVal p.ty (v / 2 ^ p.offset % 2 ^ p.width))] }) ∧
        runHostOp (.pure (.bfGet T (bfFromRaw T r) f)) s = runHostOp (.pure (.bfGet T (r % 2 ^ T.width) f)) s ∧
        ∀ v, isBFValue T v = true →
          runHostOp (.pure (.bfToRaw T v)) s = .next { s with returned := s.returned ++ [.nat v] } ∧
          ∀ x, fieldValOk p.ty x = true →
            runHostOp (.pure (.bfWith T v f x)) s = .next { s with returned := s.returned ++ [.bits (bfWith T v f x)] }) ∧
    (memberOk s.config.enumWidths m = true →
      runHostOp (.pure (.encEnum m)) s = .next { s with returned := s.returned ++ [.byte (encEnum m)] }) ∧
    runHostOp (.pure (.decEnum E b)) s =
      .next { s with returned := s.returned ++ [.member (decEnum s.config.enumWidths E b)] } ∧
    (reg ∈ s.config.regSet →
      runHostOp (.pure (.regDec reg b)) s = .next { s with returned := s.returned ++ [.nat (regDec reg.conv b)] } ∧
      (isRegValue reg.conv w = true →
        runHostOp (.pure (.regEnc reg w)) s = .next { s with returned := s.returned ++ [.byte (regEnc reg.conv w)] }))

/-- The code tables (40_bitfield_codec.md section 4, general knowledge there: log entry 4): under every legal choice of widths
each member the spec prints has its printed code, fits its width and decodes from it, and at the default widths there is no other
member. -/
def Obligations.PrintedMembersHaveThePrintedCodes : Prop :=
  (∀ ws : EnumWidths, enumWidthsOk ws = true → ∀ row ∈ enumCodeTable,
    (encEnum row.1).toNat = row.2 ∧ memberOk ws row.1 = true ∧
      decEnum ws (memberEnum row.1) (BitVec.ofNat 8 row.2) = row.1) ∧
  ∀ m : Member, memberOk defaultConfig.enumWidths m = true → m ∈ enumCodeTable.map Prod.fst
end

