-- ==== Sys2Proof/Laws/Bitfield.lean ====
section
/-!
SUPPORT. The bits of the bitfield operations, and that the entries of a legal type tile its integer without overlap
(40_bitfield_codec.md R142).
-/

namespace Sys2Proof.Machine

/-! ## Bits -/

@[simp] theorem testBit_maskBits (w i : Nat) : (maskBits w).testBit i = decide (i < w) := by
  simp [maskBits, Nat.testBit_two_pow_sub_one]

@[simp] theorem testBit_trunc (w v i : Nat) : (trunc w v).testBit i = (decide (i < w) && v.testBit i) := by
  simp [trunc, Nat.testBit_mod_two_pow]

@[simp] theorem testBit_complBits (w m i : Nat) : (complBits w m).testBit i = (decide (i < w) && !m.testBit i) := by
  unfold complBits
  rw [Nat.testBit_xor, testBit_maskBits, testBit_trunc]
  cases decide (i < w) <;> simp

@[simp] theorem testBit_fieldMask (wd off i : Nat) :
    (fieldMask wd off).testBit i = (decide (off ≤ i) && decide (i < off + wd)) := by
  unfold fieldMask
  rw [Nat.testBit_shiftLeft, testBit_maskBits]
  by_cases h : off ≤ i
  · have : (i - off < wd) ↔ (i < off + wd) := by omega
    simp [h, this]
  · simp [h]

/-- A bit of `BF.WITH`'s result: the field's own bits come from the operand, every other bit from the value. -/
theorem testBit_setBits (W v x i : Nat) (p : FieldPlace) :
    (setBits W v p x).testBit i =
      if p.offset ≤ i ∧ i < p.offset + p.width then x.testBit (i - p.offset) else (decide (i < W) && v.testBit i) := by
  unfold setBits
  rw [Nat.testBit_or, Nat.testBit_and, Nat.testBit_shiftLeft, testBit_complBits, testBit_fieldMask, testBit_trunc]
  by_cases h1 : p.offset ≤ i
  · by_cases h2 : i < p.offset + p.width
    · have : i - p.offset < p.width := by omega
      simp [h1, h2, this]
    · have : ¬ i - p.offset < p.width := by omega
      simp [h1, h2, this, Bool.and_comm]
  · simp [h1, Bool.and_comm]

/-- A bit of the bits `BF.GET` reads. -/
theorem testBit_getBits (v i : Nat) (p : FieldPlace) :
    (getBits v p).testBit i = (decide (i < p.width) && v.testBit (p.offset + i)) := by
  unfold getBits
  rw [Nat.testBit_and, Nat.testBit_shiftRight, testBit_maskBits, Bool.and_comm]

@[simp] theorem testBit_bfFromRaw (T : BFType) (r i : Nat) :
    (bfFromRaw T r).testBit i = (decide (i < T.width) && r.testBit i && !(reservedMask T).testBit i) := by
  unfold bfFromRaw
  rw [Nat.testBit_and, testBit_trunc, testBit_complBits]
  cases decide (i < T.width) <;> simp

/-- A value of a type, said by its bits: none at or above the width, none reserved. -/
theorem isBFValue_iff (T : BFType) (v : Nat) :
    isBFValue T v = true ↔ ∀ i, v.testBit i = true → i < T.width ∧ (reservedMask T).testBit i = false := by
  unfold isBFValue
  rw [Bool.and_eq_true, decide_eq_true_eq, beq_iff_eq]
  constructor
  · rintro ⟨hlt, hz⟩ i hi
    refine ⟨?_, ?_⟩
    · by_contra hge
      exact absurd (Nat.testBit_lt_two_pow (Nat.lt_of_lt_of_le hlt (Nat.pow_le_pow_right (by omega) (Nat.le_of_not_lt hge))))
        (by simp [hi])
    · have := congrArg (fun n => n.testBit i) hz
      simpa [hi] using this
  · intro h
    refine ⟨?_, ?_⟩
    · apply Nat.lt_pow_two_of_testBit
      intro i hi
      cases hb : v.testBit i with
      | false => rfl
      | true => exact absurd (h i hb).1 (by omega)
    · apply Nat.eq_of_testBit_eq
      intro i
      rw [Nat.testBit_and, Nat.zero_testBit]
      cases hb : v.testBit i with
      | false => rfl
      | true => simp [(h i hb).2]

/-! ## Offsets -/

/-- Two placed entries share no bit. -/
def Apart (p q : BFEntry × Nat) : Prop :=
  p.2 + entryWidth p.1 ≤ q.2 ∨ q.2 + entryWidth q.1 ≤ p.2

theorem apart_symm : Std.Symm Apart := ⟨fun _ _ h => Or.symm h⟩

/-- Two different entries of a legal type share no bit. -/
theorem pairwise_apart {ps : List (BFEntry × Nat)} (h : ps.Pairwise Apart) {p q : BFEntry × Nat} (hp : p ∈ ps) (hq : q ∈ ps)
    (hne : p ≠ q) : Apart p q :=
  haveI := apart_symm
  h.forall hp hq hne

theorem placeLsb_bounds {lo : Nat} {es : List BFEntry} {p : BFEntry × Nat} (h : p ∈ placeLsb lo es) :
    lo ≤ p.2 ∧ p.2 + entryWidth p.1 ≤ lo + (es.map entryWidth).sum := by
  induction es generalizing lo with
  | nil => simp [placeLsb] at h
  | cons e es ih =>
    simp only [List.map_cons, List.sum_cons]
    rcases List.mem_cons.mp h with rfl | h
    · exact ⟨Nat.le_refl _, by simp only; omega⟩
    · have := ih h; omega

theorem placeLsb_apart (lo : Nat) (es : List BFEntry) : (placeLsb lo es).Pairwise Apart := by
  induction es generalizing lo with
  | nil => exact List.Pairwise.nil
  | cons e es ih => exact List.pairwise_cons.mpr ⟨fun p hp => .inl (placeLsb_bounds hp).1, ih _⟩

theorem placeMsb_bounds {hi : Nat} {es : List BFEntry} {p : BFEntry × Nat} (h : p ∈ placeMsb hi es)
    (hs : (es.map entryWidth).sum ≤ hi) : p.2 + entryWidth p.1 ≤ hi := by
  induction es generalizing hi with
  | nil => simp [placeMsb] at h
  | cons e es ih =>
    simp only [List.map_cons, List.sum_cons] at hs
    rcases List.mem_cons.mp h with rfl | h
    · simp only; omega
    · have := ih h (by omega); omega

theorem placeMsb_apart (hi : Nat) (es : List BFEntry) (hs : (es.map entryWidth).sum ≤ hi) :
    (placeMsb hi es).Pairwise Apart := by
  induction es generalizing hi with
  | nil => exact List.Pairwise.nil
  | cons e es ih =>
    simp only [List.map_cons, List.sum_cons] at hs
    exact List.pairwise_cons.mpr ⟨fun p hp => .inr (placeMsb_bounds hp (by omega)), ih _ (by omega)⟩

theorem bfTypeOk_sum {T : BFType} (h : bfTypeOk T = true) : (T.decl.map entryWidth).sum = T.width := by
  simp only [bfTypeOk, Bool.and_eq_true, beq_iff_eq] at h
  exact h.2

/-- Every entry of a legal type lies within its integer. -/
theorem placed_within {T : BFType} (h : bfTypeOk T = true) {p : BFEntry × Nat} (hp : p ∈ placed T) :
    p.2 + entryWidth p.1 ≤ T.width := by
  have hs := bfTypeOk_sum h
  unfold placed at hp
  split at hp
  · have := (placeLsb_bounds hp).2; omega
  · exact placeMsb_bounds hp (by omega)

/-- No two entries of a legal type share a bit. -/
theorem placed_apart {T : BFType} (h : bfTypeOk T = true) : (placed T).Pairwise Apart := by
  have hs := bfTypeOk_sum h
  unfold placed
  split
  · exact placeLsb_apart _ _
  · exact placeMsb_apart _ _ (by omega)

theorem findField_mem {f : FieldName} {ps : List (BFEntry × Nat)} {pl : FieldPlace} (h : findField f ps = some pl) :
    (BFEntry.field f pl.width pl.ty, pl.offset) ∈ ps := by
  induction ps with
  | nil => simp [findField] at h
  | cons q ps ih =>
    obtain ⟨e, off⟩ := q
    cases e with
    | field n w ty =>
      simp only [findField] at h
      split at h
      · rename_i hn; cases h; subst hn; exact List.mem_cons_self
      · exact List.mem_cons_of_mem _ (ih h)
    | reserved w => exact List.mem_cons_of_mem _ (ih h)

theorem fieldPlace_mem {T : BFType} {f : FieldName} {pl : FieldPlace} (h : fieldPlace T f = some pl) :
    (BFEntry.field f pl.width pl.ty, pl.offset) ∈ placed T := findField_mem h

theorem fieldPlace_within {T : BFType} (hT : bfTypeOk T = true) {f : FieldName} {pl : FieldPlace}
    (h : fieldPlace T f = some pl) : pl.offset + pl.width ≤ T.width :=
  placed_within hT (fieldPlace_mem h)

/-- Two fields share no bit (40_bitfield_codec.md R151). -/
theorem fieldPlace_apart {T : BFType} (hT : bfTypeOk T = true) {f g : FieldName} {p q : FieldPlace}
    (hf : fieldPlace T f = some p) (hg : fieldPlace T g = some q) (hne : f ≠ g) :
    p.offset + p.width ≤ q.offset ∨ q.offset + q.width ≤ p.offset := by
  refine pairwise_apart (placed_apart hT) (fieldPlace_mem hf) (fieldPlace_mem hg) fun h => hne ?_
  simp only [Prod.mk.injEq, BFEntry.field.injEq] at h
  exact h.1.1

/-- A bit of RMASK lies in a reserved entry. -/
theorem testBit_reservedMask (T : BFType) (i : Nat) :
    (reservedMask T).testBit i = true ↔ ∃ w off, (BFEntry.reserved w, off) ∈ placed T ∧ off ≤ i ∧ i < off + w := by
  unfold reservedMask
  generalize placed T = ps
  induction ps with
  | nil => simp
  | cons q ps ih =>
    obtain ⟨e, off⟩ := q
    cases e with
    | field n w ty => simpa using ih
    | reserved w =>
      simp only [List.foldr_cons, Nat.testBit_or, testBit_fieldMask, Bool.or_eq_true, Bool.and_eq_true,
        decide_eq_true_eq, ih, List.mem_cons, Prod.mk.injEq, BFEntry.reserved.injEq]
      constructor
      · rintro (h | ⟨w', off', h1, h2⟩)
        · exact ⟨w, off, .inl ⟨rfl, rfl⟩, h⟩
        · exact ⟨w', off', .inr h1, h2⟩
      · rintro ⟨w', off', ⟨rfl, rfl⟩ | h1, h2⟩
        · exact .inl h2
        · exact .inr ⟨w', off', h1, h2⟩

/-- A field's bits are not reserved. -/
theorem testBit_reservedMask_field {T : BFType} (hT : bfTypeOk T = true) {f : FieldName} {p : FieldPlace}
    (hf : fieldPlace T f = some p) {i : Nat} (h1 : p.offset ≤ i) (h2 : i < p.offset + p.width) :
    (reservedMask T).testBit i = false := by
  cases hb : (reservedMask T).testBit i with
  | false => rfl
  | true =>
    obtain ⟨w, off, hm, h3, h4⟩ := (testBit_reservedMask T i).mp hb
    have := pairwise_apart (placed_apart hT) (fieldPlace_mem hf) hm (by simp)
    simp only [Apart, entryWidth] at this
    omega

/-- A field reads the same in a raw integer and in the value `BF.FROM_RAW` makes of it. -/
theorem getBits_bfFromRaw {T : BFType} (hT : bfTypeOk T = true) {f : FieldName} {p : FieldPlace}
    (hf : fieldPlace T f = some p) (r : Nat) : getBits (bfFromRaw T r) p = getBits (r % 2 ^ T.width) p := by
  apply Nat.eq_of_testBit_eq
  intro i
  rw [testBit_getBits, testBit_getBits, testBit_bfFromRaw, Nat.testBit_mod_two_pow]
  by_cases hi : i < p.width
  · simp [testBit_reservedMask_field hT hf (i := p.offset + i) (by omega) (by omega)]
  · simp [hi]

end Sys2Proof.Machine
end

