-- ==== Sys2Proof/Laws/Layout.lean ====
section
/-!
SUPPORT. What a placed frame holds: its length, its opcode, each field at its position, dummies elsewhere; that the default layout
is legal; and that an opcode is classified as its kind.
-/

namespace Sys2Proof.Machine

/-- The opcode of a kind is classified as that kind (30_encoding.md R111, R112). -/
@[simp] theorem kindOfOpcode_opcodeOf (k : Kind) : kindOfOpcode (opcodeOf k) = some k := by cases k <;> rfl

@[simp] theorem putBytes_length (body : List Byte) (i : Nat) (bs : List Byte) :
    (putBytes body i bs).length = body.length := by
  induction bs generalizing body i with
  | nil => rfl
  | cons b bs ih => simp [putBytes, ih]

/-- A byte after writing consecutive bytes from `i` on. -/
theorem putBytes_get (body : List Byte) (i k : Nat) (bs : List Byte) (hl : i + bs.length ≤ body.length) :
    (putBytes body i bs)[k]? = if i ≤ k ∧ k < i + bs.length then bs[k - i]? else body[k]? := by
  induction bs generalizing body i with
  | nil => rw [if_neg (by simp)]; rfl
  | cons b bs ih =>
    simp only [List.length_cons] at hl ⊢
    rw [putBytes, ih _ _ (by simp; omega), List.getElem?_set]
    by_cases hk : k = i
    · subst hk; simp [show k < body.length by omega]
    · by_cases h1 : i ≤ k
      · have h3 : k - i = (k - (i + 1)) + 1 := by omega
        have h2 : (i + 1 ≤ k ∧ k < i + 1 + bs.length) ↔ (i ≤ k ∧ k < i + (bs.length + 1)) := by omega
        simp only [h2, h3, List.getElem?_cons_succ]
        rw [if_neg (show ¬ i = k by omega)]
      · rw [if_neg (by omega), if_neg (show ¬ i = k by omega), if_neg (by omega)]

@[simp] theorem layBody_length (cap : Nat) (fields : List (Nat × List Byte)) : (layBody cap fields).length = cap - 1 := by
  unfold layBody
  suffices ∀ body : List Byte, (fields.foldl (fun body f => putBytes body (f.1 - 1) f.2) body).length = body.length by
    rw [this]; simp [dummies]
  induction fields with
  | nil => simp
  | cons f fs ih => intro body; rw [List.foldl_cons, ih, putBytes_length]

theorem layFrame_length {cap : Nat} (op : Byte) (fields : List (Nat × List Byte)) (h : 1 ≤ cap) :
    (layFrame op cap fields).length = cap := by simp [layFrame]; omega

/-- The (position, width) pairs of fields. -/
def fieldSpans (fields : List (Nat × List Byte)) : List (Nat × Nat) := fields.map fun f => (f.1, f.2.length)

/-- Where the fields of a fitting frame lie, as propositions. -/
theorem fieldsFit_iff {cap : Nat} {fields : List (Nat × Nat)} : fieldsFit cap fields = true ↔
    (∀ f ∈ fields, 1 ≤ f.1 ∧ f.1 + f.2 ≤ cap) ∧ fields.Pairwise fun f g => f.1 + f.2 ≤ g.1 ∨ g.1 + g.2 ≤ f.1 := by
  unfold fieldsFit
  rw [Bool.and_eq_true, List.all_eq_true, decide_eq_true_eq]
  simp only [Bool.and_eq_true, decide_eq_true_eq]

theorem fieldsFit_mem {cap : Nat} {fields : List (Nat × List Byte)} (h : fieldsFit cap (fieldSpans fields) = true)
    {f : Nat × List Byte} (hf : f ∈ fields) : 1 ≤ f.1 ∧ f.1 + f.2.length ≤ cap :=
  (fieldsFit_iff.mp h).1 _ (List.mem_map_of_mem hf)

theorem fieldsFit_tail {cap : Nat} {f : Nat × List Byte} {fs : List (Nat × List Byte)}
    (h : fieldsFit cap (fieldSpans (f :: fs)) = true) : fieldsFit cap (fieldSpans fs) = true :=
  fieldsFit_iff.mpr ⟨fun g hg => (fieldsFit_iff.mp h).1 g (List.mem_cons_of_mem _ hg),
    (List.pairwise_cons.mp (fieldsFit_iff.mp h).2).2⟩

theorem fieldsFit_head_apart {cap : Nat} {f : Nat × List Byte} {fs : List (Nat × List Byte)}
    (h : fieldsFit cap (fieldSpans (f :: fs)) = true) {g : Nat × List Byte} (hg : g ∈ fs) :
    f.1 + f.2.length ≤ g.1 ∨ g.1 + g.2.length ≤ f.1 :=
  (List.pairwise_cons.mp (fieldsFit_iff.mp h).2).1 _ (List.mem_map_of_mem hg)

/-- Every byte of a body with fields written into it: a byte of the field that covers its index, else as before. -/
theorem foldl_putBytes_get {cap : Nat} {fields : List (Nat × List Byte)} (hfit : fieldsFit cap (fieldSpans fields) = true)
    (body : List Byte) (hb : body.length = cap - 1) :
    (∀ f ∈ fields, ∀ j, j < f.2.length →
      (fields.foldl (fun body f => putBytes body (f.1 - 1) f.2) body)[f.1 - 1 + j]? = f.2[j]?) ∧
    ∀ k, (∀ f ∈ fields, k < f.1 - 1 ∨ f.1 - 1 + f.2.length ≤ k) →
      (fields.foldl (fun body f => putBytes body (f.1 - 1) f.2) body)[k]? = body[k]? := by
  induction fields generalizing body with
  | nil => simp
  | cons f fs ih =>
    obtain ⟨hp, hc⟩ := fieldsFit_mem hfit List.mem_cons_self
    obtain ⟨h1, h2⟩ := ih (fieldsFit_tail hfit) (putBytes body (f.1 - 1) f.2) (by simpa using hb)
    have hput := fun k => putBytes_get body (f.1 - 1) k f.2 (by omega)
    simp only [List.foldl_cons, List.mem_cons, forall_eq_or_imp]
    refine ⟨⟨fun j hj => ?_, fun g hg j hj => h1 g hg j hj⟩, fun k hk => ?_⟩
    · rw [h2 _ fun g hg => ?_, hput, if_pos (by omega), Nat.add_sub_cancel_left]
      have := fieldsFit_head_apart hfit hg
      have := fieldsFit_mem hfit (List.mem_cons_of_mem _ hg)
      omega
    · rw [h2 _ hk.2, hput, if_neg (by omega)]

/-- A placed frame holds each field at its position. -/
theorem layFrame_get_field {cap : Nat} {op : Byte} {fields : List (Nat × List Byte)}
    (hfit : fieldsFit cap (fieldSpans fields) = true) {f : Nat × List Byte} (hf : f ∈ fields) {j : Nat}
    (hj : j < f.2.length) : (layFrame op cap fields)[f.1 + j]? = f.2[j]? := by
  have hp := (fieldsFit_mem hfit hf).1
  have := (foldl_putBytes_get hfit (dummies (cap - 1)) (by simp [dummies])).1 f hf j hj
  rw [show f.1 + j = (f.1 - 1 + j) + 1 by omega]
  simpa [layFrame, layBody] using this

/-- A placed frame holds dummies where no field lies. -/
theorem layFrame_get_dummy {cap : Nat} {op : Byte} {fields : List (Nat × List Byte)}
    (hfit : fieldsFit cap (fieldSpans fields) = true) {k : Nat} (h1 : 1 ≤ k) (hk : k < cap)
    (hout : ∀ f ∈ fields, k < f.1 ∨ f.1 + f.2.length ≤ k) : (layFrame op cap fields)[k]? = some dummyByte := by
  have := (foldl_putBytes_get hfit (dummies (cap - 1)) (by simp [dummies])).2 (k - 1) fun f hf => by
    have := (fieldsFit_mem hfit hf).1; have := hout f hf; omega
  obtain ⟨k, rfl⟩ : ∃ m, k = m + 1 := ⟨k - 1, by omega⟩
  simp only [layFrame, layBody, List.getElem?_cons_succ]
  simp only [Nat.add_sub_cancel] at this
  rw [this, dummies, List.getElem?_replicate, if_pos (by omega)]

/-- A field of a placed frame, read back from the bytes after the opcode. -/
theorem fieldAt_layBody {cap : Nat} {fields : List (Nat × List Byte)} (hfit : fieldsFit cap (fieldSpans fields) = true)
    {p : Nat} {bs : List Byte} (hf : (p, bs) ∈ fields) : fieldAt (layBody cap fields) p bs.length = bs := by
  have hget := (foldl_putBytes_get hfit (dummies (cap - 1)) (by simp [dummies])).1 _ hf
  apply List.ext_getElem?
  intro j
  unfold fieldAt
  by_cases hj : j < bs.length
  · rw [List.getElem?_take_of_lt hj, List.getElem?_drop]
    exact hget j hj
  · rw [List.getElem?_eq_none (by simp; omega), List.getElem?_eq_none (by omega)]

/-! ## Legal layouts -/

theorem defaultLayout_ok : layoutOk defaultLayout = true := by decide

theorem configOk_layout {cfg : Config} (h : configOk cfg = true) : layoutOk cfg.layout = true := by
  simp only [configOk, Bool.and_eq_true] at h; exact h.1.2

theorem configOk_widths {cfg : Config} (h : configOk cfg = true) : enumWidthsOk cfg.enumWidths = true := by
  simp only [configOk, Bool.and_eq_true] at h; exact h.1.1

/-- What a legal layout is, frame by frame. -/
theorem layoutOk_iff (L : CmdLayout) : layoutOk L = true ↔
    fieldsFit 5 [(L.sf, 1), (L.bw, 1), (L.cr, 1), (L.lowDataRateOptimize, 1)] = true ∧
    fieldsFit 7 [(L.preambleLength, 2), (L.headerType, 1), (L.payloadLength, 1), (L.crcOn, 1), (L.invertIq, 1)] = true ∧
    fieldsFit 3 [(L.power, 1), (L.rampTime, 1)] = true ∧ fieldsFit 3 [(L.txBase, 1), (L.rxBase, 1)] = true ∧
    fieldsFit 9 [(L.irqMask, 2), (L.dio1Mask, 2), (L.dio2Mask, 2), (L.dio3Mask, 2)] = true ∧
    fieldsFit 5 [(L.voltage, 1), (L.delay, 3)] = true ∧ fieldsFit 3 [(L.packetType, 1)] = true ∧
    fieldsFit 4 [(L.irqStatus, 2)] = true ∧ fieldsFit 4 [(L.payloadLengthRx, 1), (L.rxStartBufferPointer, 1)] = true ∧
    fieldsFit 4 [(L.opError, 2)] = true ∧
    fieldsFit 8 [(L.nbPktReceived, 2), (L.nbPktCrcError, 2), (L.nbPktHeaderErr, 2)] = true ∧ typesOk L = true := by
  simp only [layoutOk, Bool.and_eq_true, and_assoc]

end Sys2Proof.Machine
end

