-- ==== Sys2Proof/Laws/Numbers.lean ====
section
/-!
SUPPORT. The byte operand forms undo each other: big-endian fields, the signed byte, the Boolean byte, enumeration codes.
-/

namespace Sys2Proof.Machine

@[simp] theorem byteOf_toNat (v : Nat) : (byteOf v).toNat = v % 256 := by simp [byteOf]

@[simp] theorem byteOf_of_toNat (b : Byte) : byteOf b.toNat = b := by
  apply BitVec.eq_of_toNat_eq; simp [byteOf]

@[simp] theorem beNat_one (b : Byte) : beNat [b] = b.toNat := by simp [beNat]

@[simp] theorem theByte_one (b : Byte) : theByte [b] = b := by simp [theByte]

@[simp] theorem beNat_two (a b : Byte) : beNat [a, b] = a.toNat * 256 + b.toNat := by simp [beNat]

theorem beNat_be16 (v : Nat) : beNat (be16 v) = v % 2 ^ 16 := by
  simp only [be16, beNat_two, byteOf_toNat, Nat.shiftRight_eq_div_pow]
  omega

theorem beNat_be24 (v : Nat) : beNat (be24 v) = v % 2 ^ 24 := by
  simp only [be24, beNat, List.foldl_cons, List.foldl_nil, byteOf_toNat, Nat.shiftRight_eq_div_pow]
  omega

theorem beNat_be32 (v : Nat) : beNat (be32 v) = v % 2 ^ 32 := by
  simp only [be32, beNat, List.foldl_cons, List.foldl_nil, byteOf_toNat, Nat.shiftRight_eq_div_pow]
  omega

/-- The signed byte read back: the operand reduced to -128..127. -/
theorem sext8_signedByte (x : Int) : sext8 (signedByte x) = Int.bmod x 256 := by
  unfold sext8 signedByte
  rw [BitVec.toNat_ofNat, Int.bmod_def]
  have h0 : 0 ≤ x % 256 := Int.emod_nonneg x (by decide)
  have h1 : x % 256 < 256 := Int.emod_lt_of_pos x (by decide)
  have h2 : ((x % 256).toNat % 2 ^ 8 : Nat) = (x % 256).toNat := by omega
  rw [h2]
  split <;> split <;> omega

@[simp] theorem byteBool_boolByte (b : Bool) : byteBool (boolByte b) = b := by cases b <;> rfl

theorem sext8_range (b : Byte) : -128 ≤ sext8 b ∧ sext8 b ≤ 127 := by
  have := b.isLt
  unfold sext8
  split <;> omega

theorem signedByte_sext8 (b : Byte) : signedByte (sext8 b) = b := by
  have := b.isLt
  apply BitVec.eq_of_toNat_eq
  unfold signedByte sext8
  rw [BitVec.toNat_ofNat]
  split <;> omega

/-! ## Enumeration codes: a code names a member, and the member has that code -/

theorem code_ofCodeStandbyConfig (c : Byte) : codeStandbyConfig (ofCodeStandbyConfig c) = c := by
  revert c; decide

theorem code_ofCodePacketType (c : Byte) : codePacketType (ofCodePacketType c) = c := by
  revert c; decide

theorem code_ofCodeSpreadingFactor (c : Byte) : codeSpreadingFactor (ofCodeSpreadingFactor c) = c := by
  revert c; decide

theorem code_ofCodeBandwidth (c : Byte) : codeBandwidth (ofCodeBandwidth c) = c := by
  revert c; decide

theorem code_ofCodeCodingRate (c : Byte) : codeCodingRate (ofCodeCodingRate c) = c := by
  revert c; decide

theorem code_ofCodeHeaderType (c : Byte) : codeHeaderType (ofCodeHeaderType c) = c := by
  revert c; decide

theorem code_ofCodeInvertIq (c : Byte) : codeInvertIq (ofCodeInvertIq c) = c := by
  revert c; decide

theorem code_ofCodeRampTime (c : Byte) : codeRampTime (ofCodeRampTime c) = c := by
  revert c; decide

theorem code_ofCodeTcxoVoltage (c : Byte) : codeTcxoVoltage (ofCodeTcxoVoltage c) = c := by
  revert c; decide

theorem code_ofCodeChipMode (c : Byte) : codeChipMode (ofCodeChipMode c) = c &&& 7#8 := by
  revert c; decide

theorem code_ofCodeCommandStatus (c : Byte) : codeCommandStatus (ofCodeCommandStatus c) = c &&& 7#8 := by
  revert c; decide

end Sys2Proof.Machine
end

