-- ==== Sys2Proof/Laws/State.lean ====
section
/-!
SUPPORT. One lemma per field per update of State, so that no proof unfolds a record update.
-/

namespace Sys2Proof.Machine

variable (s : State)

/-! ### setSlot -/

@[simp] theorem setSlot_config (h : Handle) (sl : Slot) : (s.setSlot h sl).config = s.config := rfl
@[simp] theorem setSlot_slots (h : Handle) (sl : Slot) : (s.setSlot h sl).slots = Store.put s.slots h sl := rfl
@[simp] theorem setSlot_fault (h : Handle) (sl : Slot) : (s.setSlot h sl).fault = s.fault := rfl
@[simp] theorem setSlot_nextHandle (h : Handle) (sl : Slot) : (s.setSlot h sl).nextHandle = s.nextHandle := rfl
@[simp] theorem setSlot_opIndex (h : Handle) (sl : Slot) : (s.setSlot h sl).opIndex = s.opIndex := rfl
@[simp] theorem setSlot_returned (h : Handle) (sl : Slot) : (s.setSlot h sl).returned = s.returned := rfl
@[simp] theorem setSlot_handed (h : Handle) (sl : Slot) : (s.setSlot h sl).handed = s.handed := rfl
@[simp] theorem setSlot_inputs (h : Handle) (sl : Slot) : (s.setSlot h sl).inputs = s.inputs := rfl

/-! ### eraseSlot -/

@[simp] theorem eraseSlot_config (h : Handle) : (s.eraseSlot h).config = s.config := rfl
@[simp] theorem eraseSlot_slots (h : Handle) : (s.eraseSlot h).slots = Store.erase s.slots h := rfl
@[simp] theorem eraseSlot_fault (h : Handle) : (s.eraseSlot h).fault = s.fault := rfl
@[simp] theorem eraseSlot_nextHandle (h : Handle) : (s.eraseSlot h).nextHandle = s.nextHandle := rfl
@[simp] theorem eraseSlot_opIndex (h : Handle) : (s.eraseSlot h).opIndex = s.opIndex := rfl
@[simp] theorem eraseSlot_returned (h : Handle) : (s.eraseSlot h).returned = s.returned := rfl
@[simp] theorem eraseSlot_handed (h : Handle) : (s.eraseSlot h).handed = s.handed := rfl
@[simp] theorem eraseSlot_inputs (h : Handle) : (s.eraseSlot h).inputs = s.inputs := rfl

/-! ### setFault -/

@[simp] theorem setFault_config (r : FaultRecord) : (s.setFault r).config = s.config := rfl
@[simp] theorem setFault_slots (r : FaultRecord) : (s.setFault r).slots = s.slots := rfl
@[simp] theorem setFault_fault (r : FaultRecord) : (s.setFault r).fault = some r := rfl
@[simp] theorem setFault_nextHandle (r : FaultRecord) : (s.setFault r).nextHandle = s.nextHandle := rfl
@[simp] theorem setFault_opIndex (r : FaultRecord) : (s.setFault r).opIndex = s.opIndex := rfl
@[simp] theorem setFault_returned (r : FaultRecord) : (s.setFault r).returned = s.returned := rfl
@[simp] theorem setFault_handed (r : FaultRecord) : (s.setFault r).handed = s.handed := rfl
@[simp] theorem setFault_inputs (r : FaultRecord) : (s.setFault r).inputs = s.inputs := rfl

/-! ### pushReturned -/

@[simp] theorem pushReturned_config (v : Value) : (s.pushReturned v).config = s.config := rfl
@[simp] theorem pushReturned_slots (v : Value) : (s.pushReturned v).slots = s.slots := rfl
@[simp] theorem pushReturned_fault (v : Value) : (s.pushReturned v).fault = s.fault := rfl
@[simp] theorem pushReturned_nextHandle (v : Value) : (s.pushReturned v).nextHandle = s.nextHandle := rfl
@[simp] theorem pushReturned_opIndex (v : Value) : (s.pushReturned v).opIndex = s.opIndex := rfl
@[simp] theorem pushReturned_returned (v : Value) : (s.pushReturned v).returned = s.returned ++ [v] := rfl
@[simp] theorem pushReturned_handed (v : Value) : (s.pushReturned v).handed = s.handed := rfl
@[simp] theorem pushReturned_inputs (v : Value) : (s.pushReturned v).inputs = s.inputs := rfl

/-! ### pushHanded -/

@[simp] theorem pushHanded_config (d : Submission) : (s.pushHanded d).config = s.config := rfl
@[simp] theorem pushHanded_slots (d : Submission) : (s.pushHanded d).slots = s.slots := rfl
@[simp] theorem pushHanded_fault (d : Submission) : (s.pushHanded d).fault = s.fault := rfl
@[simp] theorem pushHanded_nextHandle (d : Submission) : (s.pushHanded d).nextHandle = s.nextHandle := rfl
@[simp] theorem pushHanded_opIndex (d : Submission) : (s.pushHanded d).opIndex = s.opIndex := rfl
@[simp] theorem pushHanded_returned (d : Submission) : (s.pushHanded d).returned = s.returned := rfl
@[simp] theorem pushHanded_handed (d : Submission) : (s.pushHanded d).handed = s.handed ++ [d] := rfl
@[simp] theorem pushHanded_inputs (d : Submission) : (s.pushHanded d).inputs = s.inputs := rfl

/-! ### bumpHandle -/

@[simp] theorem bumpHandle_config : (s.bumpHandle).config = s.config := rfl
@[simp] theorem bumpHandle_slots : (s.bumpHandle).slots = s.slots := rfl
@[simp] theorem bumpHandle_fault : (s.bumpHandle).fault = s.fault := rfl
@[simp] theorem bumpHandle_nextHandle : (s.bumpHandle).nextHandle = s.nextHandle + 1 := rfl
@[simp] theorem bumpHandle_opIndex : (s.bumpHandle).opIndex = s.opIndex := rfl
@[simp] theorem bumpHandle_returned : (s.bumpHandle).returned = s.returned := rfl
@[simp] theorem bumpHandle_handed : (s.bumpHandle).handed = s.handed := rfl
@[simp] theorem bumpHandle_inputs : (s.bumpHandle).inputs = s.inputs := rfl

/-! ### setInputs -/

@[simp] theorem setInputs_config (es : List Event) : (s.setInputs es).config = s.config := rfl
@[simp] theorem setInputs_slots (es : List Event) : (s.setInputs es).slots = s.slots := rfl
@[simp] theorem setInputs_fault (es : List Event) : (s.setInputs es).fault = s.fault := rfl
@[simp] theorem setInputs_nextHandle (es : List Event) : (s.setInputs es).nextHandle = s.nextHandle := rfl
@[simp] theorem setInputs_opIndex (es : List Event) : (s.setInputs es).opIndex = s.opIndex := rfl
@[simp] theorem setInputs_returned (es : List Event) : (s.setInputs es).returned = s.returned := rfl
@[simp] theorem setInputs_handed (es : List Event) : (s.setInputs es).handed = s.handed := rfl
@[simp] theorem setInputs_inputs (es : List Event) : (s.setInputs es).inputs = es := rfl

/-! ### bumpOpIndex -/

@[simp] theorem bumpOpIndex_config : (s.bumpOpIndex).config = s.config := rfl
@[simp] theorem bumpOpIndex_slots : (s.bumpOpIndex).slots = s.slots := rfl
@[simp] theorem bumpOpIndex_fault : (s.bumpOpIndex).fault = s.fault := rfl
@[simp] theorem bumpOpIndex_nextHandle : (s.bumpOpIndex).nextHandle = s.nextHandle := rfl
@[simp] theorem bumpOpIndex_opIndex : (s.bumpOpIndex).opIndex = s.opIndex + 1 := rfl
@[simp] theorem bumpOpIndex_returned : (s.bumpOpIndex).returned = s.returned := rfl
@[simp] theorem bumpOpIndex_handed : (s.bumpOpIndex).handed = s.handed := rfl
@[simp] theorem bumpOpIndex_inputs : (s.bumpOpIndex).inputs = s.inputs := rfl

end Sys2Proof.Machine
end

