-- ==== Sys2Proof/Laws/Store.lean ====
section
/-!
SUPPORT. The laws of canonical stores: read after write, write elsewhere, removal, and that every operation keeps the
canonical form; the same for IN spaces.
-/

namespace Sys2Proof.Machine

variable {α : Type}

@[simp] theorem get_nil (k : Nat) : Store.get ([] : List (Nat × α)) k = none := rfl

theorem get_put_self (m : List (Nat × α)) (k : Nat) (v : α) : Store.get (Store.put m k v) k = some v := by
  induction m with
  | nil => simp [Store.put, Store.get]
  | cons p m ih =>
    obtain ⟨k', v'⟩ := p
    simp only [Store.put]
    split
    · simp [Store.get]
    · split
      · simp [Store.get]
      · rename_i h1 h2
        simp [Store.get, h2, ih]

theorem get_put_of_ne (m : List (Nat × α)) {k j : Nat} (v : α) (h : j ≠ k) :
    Store.get (Store.put m k v) j = Store.get m j := by
  induction m with
  | nil => simp [Store.put, Store.get, Ne.symm h]
  | cons p m ih =>
    obtain ⟨k', v'⟩ := p
    simp only [Store.put]
    split
    · simp [Store.get, Ne.symm h]
    · split
      · rename_i h1 h2
        subst h2
        simp [Store.get, Ne.symm h]
      · simp only [Store.get, ih]

theorem get_put (m : List (Nat × α)) (k j : Nat) (v : α) :
    Store.get (Store.put m k v) j = if j = k then some v else Store.get m j := by
  split
  · subst j; exact get_put_self m k v
  · rename_i h; exact get_put_of_ne m v h

theorem get_erase_self (m : List (Nat × α)) (k : Nat) : Store.get (Store.erase m k) k = none := by
  induction m with
  | nil => rfl
  | cons p m ih =>
    simp only [Store.erase]
    split
    · exact ih
    · rename_i h; simp [Store.get, h, ih]

theorem get_erase_of_ne (m : List (Nat × α)) {k j : Nat} (h : j ≠ k) :
    Store.get (Store.erase m k) j = Store.get m j := by
  induction m with
  | nil => rfl
  | cons p m ih =>
    obtain ⟨k', v'⟩ := p
    simp only [Store.erase]
    split
    · rename_i h1; subst h1; simp [Store.get, Ne.symm h, ih]
    · simp only [Store.get, ih]

theorem get_erase (m : List (Nat × α)) (k j : Nat) :
    Store.get (Store.erase m k) j = if j = k then none else Store.get m j := by
  split
  · subst j; exact get_erase_self m k
  · rename_i h; exact get_erase_of_ne m h

theorem mem_of_get {m : List (Nat × α)} {k : Nat} {v : α} (h : Store.get m k = some v) : (k, v) ∈ m := by
  induction m with
  | nil => simp at h
  | cons p m ih =>
    obtain ⟨k', v'⟩ := p
    simp only [Store.get] at h
    split at h
    · rename_i hk; subst hk; simp_all
    · exact List.mem_cons_of_mem _ (ih h)

/-- In a canonical store a listed pair is the one that its key reads. -/
theorem get_of_mem {m : List (Nat × α)} (hs : Store.sorted m) {p : Nat × α} (h : p ∈ m) :
    Store.get m p.1 = some p.2 := by
  induction m with
  | nil => simp at h
  | cons q m ih =>
    obtain ⟨hq, hm⟩ := List.pairwise_cons.mp hs
    rcases List.mem_cons.mp h with rfl | h
    · simp [Store.get]
    · have := hq p h
      simp [Store.get, Nat.ne_of_lt this, ih hm h]

theorem mem_put {m : List (Nat × α)} {k : Nat} {v : α} {p : Nat × α} (h : p ∈ Store.put m k v) :
    p = (k, v) ∨ p ∈ m := by
  induction m with
  | nil => simpa [Store.put] using h
  | cons q m ih =>
    obtain ⟨k', v'⟩ := q
    simp only [Store.put] at h
    split at h
    · simpa using h
    · split at h
      · rcases List.mem_cons.mp h with h | h
        · exact .inl h
        · exact .inr (List.mem_cons_of_mem _ h)
      · rcases List.mem_cons.mp h with h | h
        · exact .inr (h ▸ List.mem_cons_self)
        · exact (ih h).imp id (List.mem_cons_of_mem _)

theorem mem_erase {m : List (Nat × α)} {k : Nat} {p : Nat × α} (h : p ∈ Store.erase m k) : p ∈ m := by
  induction m with
  | nil => simp [Store.erase] at h
  | cons q m ih =>
    simp only [Store.erase] at h
    split at h
    · exact List.mem_cons_of_mem _ (ih h)
    · rcases List.mem_cons.mp h with h | h
      · exact h ▸ List.mem_cons_self
      · exact List.mem_cons_of_mem _ (ih h)

theorem sorted_put {m : List (Nat × α)} (k : Nat) (v : α) (h : Store.sorted m) : Store.sorted (Store.put m k v) := by
  induction m with
  | nil => simp [Store.put, Store.sorted]
  | cons q m ih =>
    obtain ⟨k', v'⟩ := q
    obtain ⟨hq, hm⟩ := List.pairwise_cons.mp h
    simp only [Store.put]
    split
    · rename_i hlt
      refine List.pairwise_cons.mpr ⟨fun p hp => ?_, h⟩
      rcases List.mem_cons.mp hp with rfl | hp
      · exact hlt
      · exact Nat.lt_trans hlt (hq p hp)
    · split
      · rename_i _ heq
        subst heq
        exact List.pairwise_cons.mpr ⟨hq, hm⟩
      · rename_i h1 h2
        refine List.pairwise_cons.mpr ⟨fun p hp => ?_, ih hm⟩
        rcases mem_put hp with rfl | hp
        · simp only; omega
        · exact hq p hp

theorem sorted_erase {m : List (Nat × α)} (k : Nat) (h : Store.sorted m) : Store.sorted (Store.erase m k) := by
  induction m with
  | nil => simp [Store.erase, Store.sorted]
  | cons q m ih =>
    obtain ⟨hq, hm⟩ := List.pairwise_cons.mp h
    simp only [Store.erase]
    split
    · exact ih hm
    · exact List.pairwise_cons.mpr ⟨fun p hp => hq p (mem_erase hp), ih hm⟩

/-- Two canonical stores that read alike everywhere are equal: the form is canonical. -/
theorem sorted_ext {m n : List (Nat × α)} (hm : Store.sorted m) (hn : Store.sorted n)
    (h : ∀ k, Store.get m k = Store.get n k) : m = n := by
  have none_below : ∀ {l : List (Nat × α)} {k : Nat}, (∀ p ∈ l, k < p.1) → Store.get l k = none := by
    intro l k hl
    cases hg : Store.get l k with
    | none => rfl
    | some v => exact absurd (hl _ (mem_of_get hg)) (Nat.lt_irrefl k)
  induction m generalizing n with
  | nil =>
    cases n with
    | nil => rfl
    | cons q n => have := h q.1; simp [Store.get] at this
  | cons p m ih =>
    obtain ⟨k, v⟩ := p
    obtain ⟨hp, hm⟩ := List.pairwise_cons.mp hm
    cases n with
    | nil => have := h k; simp [Store.get] at this
    | cons q n =>
      obtain ⟨j, w⟩ := q
      obtain ⟨hq, hn'⟩ := List.pairwise_cons.mp hn
      have hkj : k = j := by
        have hj := h j
        have hk := h k
        simp only [Store.get, if_true] at hj hk
        by_contra hne
        simp only [hne, Ne.symm hne, if_false] at hj hk
        have a := hp _ (mem_of_get hj)
        have b := hq _ (mem_of_get hk.symm)
        simp only at a b
        omega
      subst hkj
      have hv : v = w := by have := h k; simpa [Store.get] using this
      subst hv
      congr 1
      refine ih hm hn' fun i => ?_
      by_cases hi : k = i
      · subst hi; rw [none_below hp, none_below hq]
      · have := h i; simpa [Store.get, hi] using this

/-! ## IN spaces -/

theorem memory_wf_write {m : Memory} (i : Nat) (b : Byte) (h : m.wf) : (m.write i b).wf := sorted_put i b h

theorem memory_wf_writeFrom {m : Memory} (i : Nat) (bs : List Byte) (h : m.wf) : (m.writeFrom i bs).wf := by
  induction bs generalizing m i with
  | nil => exact h
  | cons b bs ih => exact ih (i + 1) (memory_wf_write i b h)

theorem memory_wf_nil : Memory.wf [] := List.Pairwise.nil

/-- Read after write, and write elsewhere. -/
theorem memory_read_write (m : Memory) (i j : Nat) (b : Byte) :
    (m.write i b).read j = if j = i then some b else m.read j := get_put m i j b

/-- What a run of bytes written from an index on leaves: the bytes there, and every other cell as before. -/
theorem memory_read_writeFrom (m : Memory) (i j : Nat) (bs : List Byte) :
    (m.writeFrom i bs).read j = if i ≤ j ∧ j < i + bs.length then bs[j - i]? else m.read j := by
  induction bs generalizing m i with
  | nil =>
    have : ¬ (i ≤ j ∧ j < i + 0) := by omega
    exact (if_neg this).symm
  | cons b bs ih =>
    simp only [Memory.writeFrom, ih, memory_read_write, List.length_cons]
    rcases Nat.lt_trichotomy j i with h | h | h
    · have h1 : ¬ (i + 1 ≤ j ∧ j < i + 1 + bs.length) := by omega
      have h2 : ¬ (i ≤ j ∧ j < i + (bs.length + 1)) := by omega
      have h3 : j ≠ i := by omega
      rw [if_neg h1, if_neg h2, if_neg h3]
    · subst h
      have h1 : ¬ (j + 1 ≤ j ∧ j < j + 1 + bs.length) := by omega
      have h2 : j ≤ j ∧ j < j + (bs.length + 1) := by omega
      rw [if_neg h1, if_pos h2]
      simp
    · by_cases hj : j < i + 1 + bs.length
      · have h1 : i + 1 ≤ j ∧ j < i + 1 + bs.length := by omega
        have h2 : i ≤ j ∧ j < i + (bs.length + 1) := by omega
        have h3 : j - i = (j - (i + 1)) + 1 := by omega
        rw [if_pos h1, if_pos h2, h3, List.getElem?_cons_succ]
      · have h1 : ¬ (i + 1 ≤ j ∧ j < i + 1 + bs.length) := by omega
        have h2 : ¬ (i ≤ j ∧ j < i + (bs.length + 1)) := by omega
        have h3 : j ≠ i := by omega
        rw [if_neg h1, if_neg h2, if_neg h3]

theorem mem_writeFrom {m : Memory} {i : Nat} {bs : List Byte} {c : Host.Cell} (h : c ∈ m.writeFrom i bs) :
    c ∈ m ∨ (i ≤ c.1 ∧ c.1 < i + bs.length) := by
  induction bs generalizing m i with
  | nil => exact .inl h
  | cons b bs ih =>
    rcases ih h with h | h
    · rcases mem_put h with rfl | h
      · right; simp
      · exact .inl h
    · right; simp only [List.length_cons]; omega

@[simp] theorem memory_cells_length (m : Memory) (n : Nat) : (m.cells n).length = n := by simp [Memory.cells]

end Sys2Proof.Machine
end

