-- ==== Sys2Proof/Laws/Ops.lean ====
section
/-!
SUPPORT. One lemma per shared operation that says everything it can do, and the inversion of one event: what a run of
`runEvent` that answers a next state has done. Later proofs cite these and unfold no operation.
-/

namespace Sys2Proof.Machine

/-! ## Slots of an updated state -/

@[simp] theorem slotAt_setSlot (s : State) (h j : Handle) (sl : Slot) :
    (s.setSlot h sl).slotAt j = if j = h then some sl else s.slotAt j := get_put s.slots h j sl

@[simp] theorem slotAt_eraseSlot (s : State) (h j : Handle) :
    (s.eraseSlot h).slotAt j = if j = h then none else s.slotAt j := get_erase s.slots h j

@[simp] theorem slotAt_setFault (s : State) (r : FaultRecord) (j : Handle) : (s.setFault r).slotAt j = s.slotAt j := rfl

@[simp] theorem slotAt_pushReturned (s : State) (v : Value) (j : Handle) : (s.pushReturned v).slotAt j = s.slotAt j := rfl

@[simp] theorem slotAt_pushHanded (s : State) (d : Submission) (j : Handle) : (s.pushHanded d).slotAt j = s.slotAt j := rfl

@[simp] theorem slotAt_bumpHandle (s : State) (j : Handle) : s.bumpHandle.slotAt j = s.slotAt j := rfl

@[simp] theorem slotAt_setInputs (s : State) (es : List Event) (j : Handle) : (s.setInputs es).slotAt j = s.slotAt j := rfl

@[simp] theorem slotAt_bumpOpIndex (s : State) (j : Handle) : s.bumpOpIndex.slotAt j = s.slotAt j := rfl

@[simp] theorem slotAt_retireState (e : Event) (es : List Event) (t : State) (j : Handle) :
    (retireState e es t).slotAt j = t.slotAt j := by cases e <;> rfl

@[simp] theorem retireState_slots (e : Event) (es : List Event) (t : State) : (retireState e es t).slots = t.slots := by
  cases e <;> rfl

@[simp] theorem retireState_fault (e : Event) (es : List Event) (t : State) : (retireState e es t).fault = t.fault := by
  cases e <;> rfl

@[simp] theorem retireState_config (e : Event) (es : List Event) (t : State) : (retireState e es t).config = t.config := by
  cases e <;> rfl

@[simp] theorem retireState_nextHandle (e : Event) (es : List Event) (t : State) :
    (retireState e es t).nextHandle = t.nextHandle := by cases e <;> rfl

@[simp] theorem retireState_returned (e : Event) (es : List Event) (t : State) :
    (retireState e es t).returned = t.returned := by cases e <;> rfl

@[simp] theorem retireState_handed (e : Event) (es : List Event) (t : State) :
    (retireState e es t).handed = t.handed := by cases e <;> rfl

/-! ## The end of a run -/

/-- The host has no further operation, said of the events left. -/
theorem hostDone_iff (s : State) : hostDone s = true ↔ ∀ op, .host op ∉ s.inputs := by
  simp only [hostDone, List.all_eq_true, Bool.not_eq_true']
  constructor
  · intro h op hm
    simpa [isHostEvent] using h _ hm
  · intro h e he
    cases e with
    | host op => exact absurd he (h op)
    | complete j bytes => rfl

/-- Nothing is in flight, said of the slots that handles name. -/
theorem nothingInFlight_iff {s : State} (hs : Store.sorted s.slots) :
    nothingInFlight s = true ↔ ∀ h sl, s.slotAt h = some sl → sl.phase.isInFlight = false := by
  simp only [nothingInFlight, List.all_eq_true, Bool.not_eq_true']
  exact ⟨fun h j sl hj => h _ (mem_of_get hj), fun h p hp => h p.1 p.2 (get_of_mem hs hp)⟩

/-! ## Checks and fault entry -/

theorem unlessFaulted_of_none {s : State} {k : Result} (h : s.fault = none) : unlessFaulted s k = k := by
  simp [unlessFaulted, h]

theorem unlessFaulted_of_some {s : State} {k : Result} {r : FaultRecord} (h : s.fault = some r) :
    unlessFaulted s k = .fault (.halted r) := by
  simp [unlessFaulted, h]

theorem unlessFaulted_next {s t : State} {k : Result} (h : unlessFaulted s k = .next t) : s.fault = none ∧ k = .next t := by
  unfold unlessFaulted at h
  split at h
  · cases h
  · exact ⟨‹_›, h⟩

theorem onSlot_absent {h : Handle} {op : OpName} {applies : Kind → Bool} {s : State} {k : Slot → Result}
    (hf : s.fault = none) (hs : s.slotAt h = none) : onSlot h op applies s k = raise .noSlot (some h) .nothing s := by
  simp [onSlot, unlessFaulted_of_none hf, hs]

theorem onSlot_wrongKind {h : Handle} {op : OpName} {applies : Kind → Bool} {s : State} {k : Slot → Result} {sl : Slot}
    (hf : s.fault = none) (hs : s.slotAt h = some sl) (ha : applies sl.kind = false) :
    onSlot h op applies s k = raise .wrongKind (some h) .nothing s := by
  simp [onSlot, unlessFaulted_of_none hf, hs, ha]

theorem onSlot_inFlight {h : Handle} {op : OpName} {applies : Kind → Bool} {s : State} {k : Slot → Result} {sl : Slot}
    (hf : s.fault = none) (hs : s.slotAt h = some sl) (ha : applies sl.kind = true) (hp : sl.phase.isInFlight = true) :
    onSlot h op applies s k = raise .inFlightAccess (some h) (.operation op) s := by
  simp [onSlot, unlessFaulted_of_none hf, hs, ha, hp]

theorem onSlot_ok {h : Handle} {op : OpName} {applies : Kind → Bool} {s : State} {k : Slot → Result} {sl : Slot}
    (hf : s.fault = none) (hs : s.slotAt h = some sl) (ha : applies sl.kind = true) (hp : sl.phase.isInFlight = false) :
    onSlot h op applies s k = k sl := by
  simp [onSlot, unlessFaulted_of_none hf, hs, ha, hp]

/-- Everything an operation on a slot can do: raise, or go on with a slot that passed the checks. -/
theorem onSlot_next {h : Handle} {op : OpName} {applies : Kind → Bool} {s t : State} {k : Slot → Result}
    (hn : onSlot h op applies s k = .next t) :
    s.fault = none ∧ ((∃ r, t = s.setFault r) ∨
      ∃ sl, s.slotAt h = some sl ∧ applies sl.kind = true ∧ sl.phase.isInFlight = false ∧ k sl = .next t) := by
  obtain ⟨hf, hn⟩ := unlessFaulted_next hn
  refine ⟨hf, ?_⟩
  cases hs : s.slotAt h with
  | none => rw [hs] at hn; simp only [raise] at hn; cases hn; exact .inl ⟨_, rfl⟩
  | some sl =>
    rw [hs] at hn
    simp only at hn
    split at hn
    · split at hn
      · simp only [raise] at hn; cases hn; exact .inl ⟨_, rfl⟩
      · rename_i ha hp; exact .inr ⟨sl, rfl, ha, by simpa using hp, hn⟩
    · simp only [raise] at hn; cases hn; exact .inl ⟨_, rfl⟩

/-! ## Construction -/

/-- The state right after a construction. -/
def constructed (s : State) (sl : Slot) : State :=
  ((s.setSlot s.nextHandle sl).bumpHandle).pushReturned (.handle s.nextHandle)

theorem construct_eq {kind : Kind} {cap : Nat} {frame : List Byte} {dlen : Option Nat} {s : State} (h : s.fault = none) :
    construct kind cap frame dlen s =
      .next (constructed s (newSlot kind cap frame dlen (unspecifiedXlen s.nextHandle cap))) := by
  simp [construct, unlessFaulted_of_none h, constructed]

@[simp] theorem slotAt_constructed (s : State) (sl : Slot) (j : Handle) :
    (constructed s sl).slotAt j = if j = s.nextHandle then some sl else s.slotAt j := by
  simp [constructed]

@[simp] theorem constructed_config (s : State) (sl : Slot) : (constructed s sl).config = s.config := rfl
@[simp] theorem constructed_slots (s : State) (sl : Slot) :
    (constructed s sl).slots = Store.put s.slots s.nextHandle sl := rfl
@[simp] theorem constructed_fault (s : State) (sl : Slot) : (constructed s sl).fault = s.fault := rfl
@[simp] theorem constructed_nextHandle (s : State) (sl : Slot) : (constructed s sl).nextHandle = s.nextHandle + 1 := rfl
@[simp] theorem constructed_opIndex (s : State) (sl : Slot) : (constructed s sl).opIndex = s.opIndex := rfl
@[simp] theorem constructed_returned (s : State) (sl : Slot) :
    (constructed s sl).returned = s.returned ++ [.handle s.nextHandle] := rfl
@[simp] theorem constructed_handed (s : State) (sl : Slot) : (constructed s sl).handed = s.handed := rfl
@[simp] theorem constructed_inputs (s : State) (sl : Slot) : (constructed s sl).inputs = s.inputs := rfl

@[simp] theorem dummies_length (n : Nat) : (dummies n).length = n := by simp [dummies]

theorem dummies_get {n i : Nat} (h : i < n) : (dummies n)[i]? = some dummyByte := by simp [dummies, h]

/-- The transfer length of a legal slot lies within its capacity. -/
theorem transferLength_le {sl : Slot} (hi : SlotInv sl) : sl.transferLength ≤ sl.cap := by
  unfold Slot.transferLength
  split
  · rename_i hdr hh
    obtain ⟨d, hd, hle⟩ := hi.dlen_variable _ hh
    simp only [Slot.dataLength, hd, Option.getD_some]
    omega
  · exact Nat.le_refl _

theorem unspecifiedXlen_le (h : Handle) (cap : Nat) : unspecifiedXlen h cap ≤ cap := Nat.min_le_right _ _

/-- A constructed slot of a fixed kind is legal once its frame has the kind's length, opcode and dummy bytes. -/
theorem newSlot_fixed {kind : Kind} {cap x : Nat} {frame : List Byte} (hx : x ≤ cap) (hc : fixedCap kind = some cap)
    (hh : headerBytes kind = none) (hl : frame.length = cap) (ho : frame.head? = some (opcodeOf kind))
    (hd : ∀ i ∈ dummyPositions kind cap, frame[i]? = some dummyByte) : 
    SlotInv (newSlot kind cap frame none x) where
  out_length := hl
  out_opcode := ho
  cap_fixed := fun n h => by simp [newSlot] at h ⊢; rw [hc] at h; exact Option.some.inj h
  dlen_variable := fun hdr h => by simp [newSlot, hh] at h
  dlen_fixed := fun _ => rfl
  in_canonical := memory_wf_nil
  in_bound := fun c h => by simp [newSlot] at h
  xlen_is_tlen := fun h => by simp [newSlot] at h
  xlen_bound := hx
  built_unwritten := fun _ => rfl
  done_written := fun h => by simp [newSlot] at h
  dummies_zero := hd

/-- A constructed slot of a variable kind is legal once its frame has its capacity, opcode and dummy bytes. -/
theorem newSlot_variable {kind : Kind} {cap hdr x : Nat} {frame : List Byte} (hx : x ≤ cap) (hc : fixedCap kind = none)
    (hh : headerBytes kind = some hdr) (hcap : hdr ≤ cap) (hl : frame.length = cap)
    (ho : frame.head? = some (opcodeOf kind)) (hd : ∀ i ∈ dummyPositions kind cap, frame[i]? = some dummyByte) :
    SlotInv (newSlot kind cap frame (some (cap - hdr)) x) where
  out_length := hl
  out_opcode := ho
  cap_fixed := fun n h => by simp [newSlot, hc] at h
  dlen_variable := fun hdr' h => by
    simp only [newSlot, hh, Option.some.injEq] at h ⊢
    subst h
    exact ⟨_, rfl, by omega⟩
  dlen_fixed := fun h => by simp [newSlot, hh] at h
  in_canonical := memory_wf_nil
  in_bound := fun c h => by simp [newSlot] at h
  xlen_is_tlen := fun h => by simp [newSlot] at h
  xlen_bound := hx
  built_unwritten := fun _ => rfl
  done_written := fun h => by simp [newSlot] at h
  dummies_zero := hd

/-- Everything an instruction can do: raise, or construct one legal slot of its kind, built, nothing received. -/
theorem exec_next {i : Instr} {s t : State} (h : exec i s = .next t) :
    s.fault = none ∧ ((∃ r, t = s.setFault r) ∨
      ∃ sl, sl.kind = kindOf i ∧ sl.phase = .built ∧ SlotInv sl ∧ t = constructed s sl) := by
  cases i
  case writeBuffer cap off data =>
    obtain ⟨hf, h⟩ := unlessFaulted_next h
    refine ⟨hf, ?_⟩
    split at h
    · cases h; exact .inl ⟨_, rfl⟩
    · split at h
      · rename_i hc hl
        rw [construct_eq hf] at h
        cases h
        exact .inr ⟨_, rfl, rfl, newSlot_variable (unspecifiedXlen_le _ _) rfl rfl (by omega)
          (by simp [frameWriteBuffer]; omega) rfl (by simp [dummyPositions]), rfl⟩
      · cases h; exact .inl ⟨_, rfl⟩
  case readBuffer cap off =>
    obtain ⟨hf, h⟩ := unlessFaulted_next h
    refine ⟨hf, ?_⟩
    split at h
    · cases h; exact .inl ⟨_, rfl⟩
    · rename_i hc
      rw [construct_eq hf] at h
      cases h
      refine .inr ⟨_, rfl, rfl, newSlot_variable (unspecifiedXlen_le _ _) rfl rfl (by omega)
        (by simp [frameReadBuffer]; omega) rfl ?_, rfl⟩
      intro i hi
      obtain ⟨h2, hlt⟩ : 2 ≤ i ∧ i < cap := by
        simp [dummyPositions, List.mem_range'_1] at hi; omega
      obtain ⟨j, rfl⟩ : ∃ j, i = j + 2 := ⟨i - 2, by omega⟩
      cases j with
      | zero => rfl
      | succ j =>
        have : (dummies (cap - 3))[j]? = some dummyByte := dummies_get (by omega)
        simpa [frameReadBuffer] using this
  all_goals
    have hf : s.fault = none := (unlessFaulted_next h).1
    refine ⟨hf, .inr ?_⟩
    have h := (construct_eq hf).symm.trans h
    cases h
    refine ⟨_, rfl, rfl, ?_, rfl⟩
    refine newSlot_fixed (unspecifiedXlen_le _ _) rfl rfl (by first | rfl | exact layFrame_length _ _ (by decide)) rfl ?_
    first
    | decide
    | simp [dummyPositions, frameReadRegister, be16, dummies]

/-! ## One event -/

/-- What one event can do to the state it runs in. -/
inductive Effect (s : State) : Event → State → Prop where
  /-- the fault mark is set and nothing else -/
  | raised (e : Event) (r : FaultRecord) : Effect s e (s.setFault r)
  /-- a host operation returns a value and changes nothing else -/
  | returned (op : HostOp) (v : Value) : Effect s (.host op) (s.pushReturned v)
  /-- a host operation constructs a legal slot -/
  | constructed (op : HostOp) (sl : Slot) (hb : sl.phase = .built) (hi : SlotInv sl) :
      Effect s (.host op) (constructed s sl)
  /-- a slot goes in flight and its frame is handed over -/
  | submitted (h : Handle) (sl : Slot) (hs : s.slotAt h = some sl) (hp : sl.phase.isInFlight = false) :
      Effect s (.host (.submit h)) ((s.setSlot h { sl with xlen := sl.transferLength, phase := .inFlight }).pushHanded
        ⟨h, sl.out.take sl.transferLength, sl.transferLength⟩)
  /-- a variable slot's DLEN is set within its bound -/
  | resized (h : Handle) (n hdr : Nat) (sl : Slot) (hs : s.slotAt h = some sl) (hp : sl.phase.isInFlight = false)
      (hh : headerBytes sl.kind = some hdr) (hn : n + hdr ≤ sl.cap) :
      Effect s (.host (.setDlen h n)) (s.setSlot h { sl with dlen := some n })
  /-- a slot is dropped -/
  | dropped (h : Handle) (sl : Slot) (hs : s.slotAt h = some sl) (hp : sl.phase.isInFlight = false) :
      Effect s (.host (.drop h)) (s.eraseSlot h)
  /-- a transfer completes -/
  | completed (h : Handle) (bytes : List Byte) (sl : Slot) (hs : s.slotAt h = some sl)
      (hp : sl.phase = .inFlight) (hl : bytes.length = sl.xlen) :
      Effect s (.complete h bytes) (s.setSlot h { sl with inb := Memory.writeFrom sl.inb 0 bytes, phase := .done })

theorem exec_effect {i : Instr} {s t : State} {op : HostOp} (h : exec i s = .next t) : Effect s (.host op) t := by
  obtain ⟨-, ⟨r, rfl⟩ | ⟨sl, -, hb, hi, rfl⟩⟩ := exec_next h
  · exact .raised _ r
  · exact .constructed op sl hb hi

theorem onSlot_returns_effect {h : Handle} {nm : OpName} {applies : Kind → Bool} {s t : State} {f : Slot → Value}
    {op : HostOp} (hn : onSlot h nm applies s (fun sl => returnValue (f sl) s) = .next t) : Effect s (.host op) t := by
  obtain ⟨-, ⟨r, rfl⟩ | ⟨sl, -, -, -, hk⟩⟩ := onSlot_next hn
  · exact .raised _ r
  · cases hk; exact .returned op _

theorem reqSubmit_effect {h : Handle} {s t : State} (hn : reqSubmit h s = .next t) : Effect s (.host (.submit h)) t := by
  obtain ⟨-, ⟨r, rfl⟩ | ⟨sl, hs, -, hp, hk⟩⟩ := onSlot_next hn
  · exact .raised _ r
  · cases hk; exact .submitted h sl hs hp

theorem reqSetDlen_effect {h : Handle} {n : Nat} {s t : State} (hn : reqSetDlen h n s = .next t) :
    Effect s (.host (.setDlen h n)) t := by
  obtain ⟨-, ⟨r, rfl⟩ | ⟨sl, hs, ha, hp, hk⟩⟩ := onSlot_next hn
  · exact .raised _ r
  · obtain ⟨hdr, hh⟩ := Option.isSome_iff_exists.mp ha
    split at hk
    · rename_i hle; cases hk; exact .resized h n hdr sl hs hp hh (by simpa [hh] using hle)
    · cases hk; exact .raised _ _

theorem reqDrop_effect {h : Handle} {s t : State} (hn : reqDrop h s = .next t) : Effect s (.host (.drop h)) t := by
  obtain ⟨-, ⟨r, rfl⟩ | ⟨sl, hs, -, hp, hk⟩⟩ := onSlot_next hn
  · exact .raised _ r
  · cases hk; exact .dropped h sl hs hp

theorem reqAccess_effect {h : Handle} {a : Accessor} {s t : State} (hn : reqAccess h a s = .next t) :
    Effect s (.host (.access h a)) t := by
  obtain ⟨-, ⟨r, rfl⟩ | ⟨sl, -, -, -, hk⟩⟩ := onSlot_next hn
  · exact .raised _ r
  · unfold giveRead at hk
    split at hk
    · cases hk; exact .returned _ _
    · cases hk; exact .raised _ _
    · cases hk

theorem complete_effect {h : Handle} {bytes : List Byte} {s t : State} (hn : complete h bytes s = .next t) :
    Effect s (.complete h bytes) t := by
  obtain ⟨-, hn⟩ := unlessFaulted_next hn
  cases hs : s.slotAt h with
  | none => rw [hs] at hn; cases hn
  | some sl =>
    rw [hs] at hn
    simp only at hn
    split at hn
    · cases hn
    · cases hn
    · rename_i hp
      split at hn
      · rename_i hl; cases hn; exact .completed h bytes sl hs hp hl
      · cases hn; exact .raised _ _

/-- Everything an event can do. -/
theorem runEvent_effect {e : Event} {s t : State} (h : runEvent e s = .next t) : s.fault = none ∧ Effect s e t := by
  cases e with
  | complete hd bytes => exact ⟨(unlessFaulted_next h).1, complete_effect h⟩
  | host op =>
    cases op with
    | construct i => exact ⟨(exec_next h).1, exec_effect h⟩
    | constructFrame frame =>
      obtain ⟨hf, h⟩ := unlessFaulted_next h
      refine ⟨hf, ?_⟩
      split at h
      · exact exec_effect h
      · cases h; exact .raised _ _
      · cases h
      · cases h
    | writeRegisterOf reg v =>
      have h : exec (.writeRegister reg.addr.toNat (regByte s.config reg v)) s = .next t := h
      exact ⟨(exec_next h).1, exec_effect h⟩
    | readRegisterOf reg =>
      have h : exec (.readRegister reg.addr.toNat) s = .next t := h
      exact ⟨(exec_next h).1, exec_effect h⟩
    | opcode hd => exact ⟨(unlessFaulted_next h).1, onSlot_returns_effect h⟩
    | outbound hd => exact ⟨(unlessFaulted_next h).1, onSlot_returns_effect h⟩
    | inbound hd => exact ⟨(unlessFaulted_next h).1, onSlot_returns_effect h⟩
    | tlen hd => exact ⟨(unlessFaulted_next h).1, onSlot_returns_effect h⟩
    | submit hd => exact ⟨(unlessFaulted_next h).1, reqSubmit_effect h⟩
    | setDlen hd n => exact ⟨(unlessFaulted_next h).1, reqSetDlen_effect h⟩
    | access hd a => exact ⟨(unlessFaulted_next h).1, reqAccess_effect h⟩
    | drop hd => exact ⟨(unlessFaulted_next h).1, reqDrop_effect h⟩
    | pure f =>
      obtain ⟨hf, h⟩ := unlessFaulted_next h
      cases h
      exact ⟨hf, .returned _ _⟩
    | classify b =>
      obtain ⟨hf, h⟩ := unlessFaulted_next h
      split at h
      · cases h; exact ⟨hf, .returned _ _⟩
      · cases h; exact ⟨hf, .raised _ _⟩

/-- Everything a step can do: the next event raises and stays, or takes effect and is retired. -/
theorem step_next {s t : State} (h : step s = .next t) :
    s.fault = none ∧ ∃ e rest, s.inputs = e :: rest ∧
      ((∃ r, t = s.setFault r) ∨ ∃ u, Effect s e u ∧ u.fault = none ∧ t = retireState e rest u) := by
  obtain ⟨hf, h⟩ := unlessFaulted_next h
  refine ⟨hf, ?_⟩
  cases hin : s.inputs with
  | nil => rw [hin] at h; cases h
  | cons e rest =>
    rw [hin] at h
    refine ⟨e, rest, rfl, ?_⟩
    simp only [stepEvents, retire] at h
    split at h
    · rename_i u hu
      have he := (runEvent_effect hu).2
      split at h
      · rename_i huf; cases h; exact .inr ⟨u, he, huf, rfl⟩
      · rename_i r huf
        cases h
        refine .inl ?_
        cases he with
        | raised _ r => exact ⟨r, rfl⟩
        | returned => simp [hf] at huf
        | constructed => simp [hf] at huf
        | submitted => simp [hf] at huf
        | resized => simp [hf] at huf
        | dropped => simp [hf] at huf
        | completed => simp [hf] at huf
    · cases h
    · cases h

end Sys2Proof.Machine
end

