-- ==== Sys2Proof/Laws/Access.lean ====
section
/-!
SUPPORT. What an accessor and a contract operation answer on a slot that passes the common checks; what a run of byte reads
answers; a placed field read back; that a decoded member is a member and a value of a bitfield type is left as it is.
-/

namespace Sys2Proof.Machine

/-- A slot of a legal state is legal. -/
theorem slotInv_of_slotAt {s : State} {h : Handle} {sl : Slot} (hi : Inv s) (hs : s.slotAt h = some sl) : SlotInv sl :=
  hi.slots_ok _ (mem_of_get hs)

/-- A freshly constructed slot passes the common checks. -/
theorem ready_constructed {s : State} {k : Kind} {cap : Nat} {frame : List Byte} {dlen : Option Nat}
    {x : Nat} (hf : s.fault = none) :
    Ready (constructed s (newSlot k cap frame dlen x)) s.nextHandle (newSlot k cap frame dlen x) :=
  ⟨hf, by simp, rfl⟩

/-- An accessor on a slot that passes the checks gives the host what `readAccessor` reads. -/
theorem access_ready {s : State} {h : Handle} {sl : Slot} {a : Accessor} (hr : Ready s h sl)
    (ha : accessorApplies a sl.kind = true) :
    runHostOp (.access h a) s = giveRead h (readAccessor s.config a sl) s := by
  obtain ⟨hf, hs, hp⟩ := hr
  exact onSlot_ok hf hs ha hp

/-- A run of byte reads that all answer gives their bytes in order. -/
theorem readAll_range_ok {rd : Nat → Except ReadStop Byte} {n : Nat} {bs : List Byte} (lo : Nat) (hl : bs.length = n)
    (h : ∀ i, (hi : i < n) → rd (lo + i) = .ok (bs[i]'(by omega))) : readAll rd (List.range' lo n) = .ok bs := by
  induction bs generalizing lo n with
  | nil => simp at hl; subst hl; rfl
  | cons b bs ih =>
    obtain ⟨m, rfl⟩ : ∃ m, n = m + 1 := ⟨n - 1, by simp at hl; omega⟩
    have h0 := h 0 (by omega)
    have ht := ih (n := m) (lo + 1) (by simpa using hl) fun i hi => by
      simpa [Nat.add_assoc, Nat.add_comm 1] using h (i + 1) (by omega)
    simp at h0
    simp [List.range'_succ, readAll, h0, ht]

/-- A run of byte reads stops at the first that fails. -/
theorem readAll_range_error {rd : Nat → Except ReadStop Byte} {n k : Nat} {e : ReadStop} (lo : Nat) (hk : k < n)
    (h : ∀ i, i < k → ∃ b, rd (lo + i) = .ok b) (he : rd (lo + k) = .error e) :
    readAll rd (List.range' lo n) = .error e := by
  induction k generalizing lo n with
  | zero =>
    obtain ⟨m, rfl⟩ : ∃ m, n = m + 1 := ⟨n - 1, by omega⟩
    simp at he
    simp [List.range'_succ, readAll, he]
  | succ k ih =>
    obtain ⟨m, rfl⟩ : ∃ m, n = m + 1 := ⟨n - 1, by omega⟩
    obtain ⟨b, hb⟩ := h 0 (by omega)
    have ht := ih (n := m) (lo + 1) (by omega)
      (fun i hi => by simpa [Nat.add_assoc, Nat.add_comm 1] using h (i + 1) (by omega))
      (by simpa [Nat.add_assoc, Nat.add_comm 1] using he)
    simp at hb
    simp [List.range'_succ, readAll, hb, ht]

/-- A written cell of a legal state's slot is read. -/
theorem inRead_of_inAt {s : State} {h : Handle} {sl : Slot} {i : Nat} {b : Byte} (hi : Inv s)
    (hs : s.slotAt h = some sl) (hb : s.inAt h i = some b) : sl.inRead i = .ok b := by
  simp only [State.inAt, hs, Option.bind_some] at hb
  have hlt := (slotInv_of_slotAt hi hs).in_bound _ (mem_of_get hb)
  simp only at hlt
  simp [Slot.inRead, hlt, hb]

/-- An accessor of a constructed slot reads a placed field whole. -/
theorem fromOut_field {op : Byte} {cap : Nat} {fields : List (Nat × List Byte)} {k : Kind} {dlen : Option Nat}
    {x : Nat} (hfit : fieldsFit cap (fieldSpans fields) = true) {p : Nat} {bs : List Byte} (hf : (p, bs) ∈ fields)
    (f : List Byte → Value) :
    fromOut (newSlot k cap (layFrame op cap fields) dlen x) (List.range' p bs.length) f = .ok (f bs) := by
  unfold fromOut
  rw [readAll_range_ok (bs := bs) p rfl fun i hi => ?_]
  simp [Slot.outRead, newSlot, layFrame_get_field hfit hf hi, List.getElem?_eq_getElem hi]

/-- A member at its width is emitted by its code. -/
theorem encByte_of_memberOk {ws : EnumWidths} {m : Member} (h : memberOk ws m = true) : encByte ws m = encEnum m :=
  if_pos h

/-- A value of a bitfield type is read as it is. -/
theorem bfFromRaw_of_value {T : BFType} {v : Nat} (h : isBFValue T v = true) : bfFromRaw T v = v := by
  rw [isBFValue_iff] at h
  apply Nat.eq_of_testBit_eq
  intro i
  rw [testBit_bfFromRaw]
  cases hb : v.testBit i with
  | false => simp
  | true => have := h i hb; simp [this]

/-- A member of the configured width decodes back from its code. -/
theorem decEnum_encEnum {ws : EnumWidths} {m : Member} (h : memberOk ws m = true) :
    decEnum ws (memberEnum m) (encEnum m) = m := by
  simpa [memberOk] using h

theorem maskByte_toNat (w : Nat) (b : Byte) : (maskByte w b).toNat = b.toNat % 2 ^ w := by
  have := b.isLt
  have hle : b.toNat % 2 ^ w ≤ b.toNat := Nat.mod_le _ _
  unfold maskByte maskBits
  rw [Nat.and_two_pow_sub_one_eq_mod, byteOf_toNat, Nat.mod_eq_of_lt (by omega)]

end Sys2Proof.Machine
end

