-- ==== Sys2Proof/Laws/PerInstr.lean ====
section
/-!
SUPPORT. Statements made for every instruction. `FrameShape`: the frame of a well-formed instruction begins with the opcode of
its kind and has the kind's length, a variable frame the capacity its constructor names (30_encoding.md R100, R101, R110).
-/

namespace Sys2Proof.Laws.FrameShape

open Sys2Proof Sys2Proof.Machine

/-- The frame's first byte and its length. -/
def Statement (i : Instr) : Prop :=
  ∀ cfg : Config, i.wellFormed cfg = true →
    (encode cfg i).head? = some (opcodeOf (kindOf i)) ∧
      (∀ n, fixedCap (kindOf i) = some n → (encode cfg i).length = n) ∧
      (∀ cap off data, i = .writeBuffer cap off data → (encode cfg i).length = cap) ∧
      ∀ cap off, i = .readBuffer cap off → (encode cfg i).length = cap

/-- A fixed instruction's frame, from its two facts. -/
theorem fixed {i : Instr} {n : Nat} (hc : fixedCap (kindOf i) = some n)
    (hh : ∀ cfg, (encode cfg i).head? = some (opcodeOf (kindOf i))) (hl : ∀ cfg, (encode cfg i).length = n) :
    Statement i := by
  intro cfg _
  refine ⟨hh cfg, fun m hm => ?_, ?_, ?_⟩
  · rw [hc] at hm; cases hm; exact hl cfg
  · rintro cap off data rfl; cases hc
  · rintro cap off rfl; cases hc

theorem resetStats : Statement .resetStats := fixed rfl (fun _ => rfl) fun _ => rfl

theorem clearIrqStatus (mask : Nat) : Statement (.clearIrqStatus mask) :=
  fixed rfl (fun _ => rfl) fun _ => rfl

theorem setStandby (c : StandbyConfig) : Statement (.setStandby c) :=
  fixed rfl (fun _ => rfl) fun _ => rfl

theorem setRx (n : Nat) : Statement (.setRx n) :=
  fixed rfl (fun _ => rfl) fun _ => rfl

theorem setTx (n : Nat) : Statement (.setTx n) :=
  fixed rfl (fun _ => rfl) fun _ => rfl

theorem setSleep (n : Nat) : Statement (.setSleep n) :=
  fixed rfl (fun _ => rfl) fun _ => rfl

theorem setRfFrequency (n : Nat) : Statement (.setRfFrequency n) :=
  fixed rfl (fun _ => rfl) fun _ => rfl

theorem setPacketType (p : PacketType) : Statement (.setPacketType p) :=
  fixed rfl (fun _ => rfl) fun _ => rfl

theorem setModulationParamsLora (sf : SpreadingFactor) (bw : Bandwidth) (cr : CodingRate) (l : Bool) : Statement (.setModulationParamsLora sf bw cr l) :=
  fixed rfl (fun _ => rfl) fun _ => layFrame_length _ _ (by decide)

theorem setPacketParams (p : Nat) (ht : HeaderType) (n : Nat) (crc : Bool) (iq : InvertIq) : Statement (.setPacketParams p ht n crc iq) :=
  fixed rfl (fun _ => rfl) fun _ => layFrame_length _ _ (by decide)

theorem setTxParams (p : Int) (r : RampTime) : Statement (.setTxParams p r) :=
  fixed rfl (fun _ => rfl) fun _ => layFrame_length _ _ (by decide)

theorem setBufferBaseAddress (t r : Nat) : Statement (.setBufferBaseAddress t r) :=
  fixed rfl (fun _ => rfl) fun _ => layFrame_length _ _ (by decide)

theorem writeRegister (a : Nat) (b : Byte) : Statement (.writeRegister a b) :=
  fixed rfl (fun _ => rfl) fun _ => rfl

theorem writeBuffer (cap off : Nat) (data : List Byte) : Statement (.writeBuffer cap off data) := by
  intro cfg h
  simp only [Instr.wellFormed, Bool.and_eq_true, decide_eq_true_eq] at h
  refine ⟨rfl, fun n hn => (by cases hn), ?_, ?_⟩
  · intro c o d he
    cases he
    simp [encode, frameWriteBuffer]
    omega
  · intro c o he; cases he

theorem getStatus : Statement .getStatus := fixed rfl (fun _ => rfl) fun _ => rfl

theorem getPacketType : Statement .getPacketType := fixed rfl (fun _ => rfl) fun _ => rfl

theorem getIrqStatus : Statement .getIrqStatus := fixed rfl (fun _ => rfl) fun _ => rfl

theorem getRxBufferStatus : Statement .getRxBufferStatus := fixed rfl (fun _ => rfl) fun _ => rfl

theorem getPacketStatusLora : Statement .getPacketStatusLora := fixed rfl (fun _ => rfl) fun _ => rfl

theorem getDeviceErrors : Statement .getDeviceErrors := fixed rfl (fun _ => rfl) fun _ => rfl

theorem readRegister (n : Nat) : Statement (.readRegister n) :=
  fixed rfl (fun _ => rfl) fun _ => rfl

theorem readBuffer (cap off : Nat) : Statement (.readBuffer cap off) := by
  intro cfg h
  simp only [Instr.wellFormed, Bool.and_eq_true, decide_eq_true_eq] at h
  refine ⟨rfl, fun n hn => (by cases hn), ?_, ?_⟩
  · intro c o d he; cases he
  · intro c o he
    cases he
    simp [encode, frameReadBuffer]
    omega

theorem clearDeviceErrors : Statement .clearDeviceErrors := fixed rfl (fun _ => rfl) fun _ => rfl

theorem setDioIrqParams (m a b c : Nat) : Statement (.setDioIrqParams m a b c) :=
  fixed rfl (fun _ => rfl) fun _ => layFrame_length _ _ (by decide)

theorem getStatsLora : Statement .getStatsLora := fixed rfl (fun _ => rfl) fun _ => rfl

theorem setLoraSymbNumTimeout (n : Nat) : Statement (.setLoraSymbNumTimeout n) :=
  fixed rfl (fun _ => rfl) fun _ => rfl

theorem setDio2AsRfSwitchCtrl (e : Bool) : Statement (.setDio2AsRfSwitchCtrl e) :=
  fixed rfl (fun _ => rfl) fun _ => rfl

theorem setDio3AsTcxoCtrl (v : TcxoVoltage) (d : Nat) : Statement (.setDio3AsTcxoCtrl v d) :=
  fixed rfl (fun _ => rfl) fun _ => layFrame_length _ _ (by decide)

end Sys2Proof.Laws.FrameShape
end

