-- ==== Sys2Proof/Tests/Slice0.lean ====
section
/-!
SUPPORT. The model's own tests. Expected values are the vectors of spec/95_test_vectors.md, named in each docstring. The last
part gives, for every statement with hypotheses, a concrete state and operands that meet them.
-/

namespace Sys2Proof.Tests

open Sys2Proof Sys2Proof.Machine

/-! ## Well-formedness refuses an ill-formed term of each check -/

theorem test_wf_refuses_masks :
    Instr.wellFormed defaultConfig (.clearIrqStatus 0x0400) = false ∧
    Instr.wellFormed defaultConfig (.setSleep 0x02) = false ∧
    Instr.wellFormed defaultConfig (.setDioIrqParams 0x0400 0 0 0) = false ∧
    Instr.wellFormed defaultConfig (.setDioIrqParams 0 0x8000 0 0) = false ∧
    Instr.wellFormed defaultConfig (.setDioIrqParams 0 0 0x4000 0) = false ∧
    Instr.wellFormed defaultConfig (.setDioIrqParams 0 0 0 0x10000) = false := by decide

theorem test_wf_refuses_members :
    Instr.wellFormed defaultConfig (.setStandby (.reserved 5#8)) = false ∧
    Instr.wellFormed defaultConfig (.setStandby (.reserved 0#8)) = false ∧
    Instr.wellFormed defaultConfig (.setPacketType (.reserved 4#8)) = false ∧
    Instr.wellFormed defaultConfig (.setModulationParamsLora (.reserved 0x17#8) .bw125 .cr4_5 false) = false ∧
    Instr.wellFormed defaultConfig (.setModulationParamsLora .sf7 (.reserved 0x14#8) .cr4_5 false) = false ∧
    Instr.wellFormed defaultConfig (.setModulationParamsLora .sf7 .bw125 (.reserved 0x0D#8) false) = false ∧
    Instr.wellFormed defaultConfig (.setPacketParams 8 (.reserved 2#8) 64 true .standard) = false ∧
    Instr.wellFormed defaultConfig (.setPacketParams 8 .explicit 64 true (.reserved 2#8)) = false ∧
    Instr.wellFormed defaultConfig (.setTxParams 14 (.reserved 8#8)) = false ∧
    Instr.wellFormed defaultConfig (.setDio3AsTcxoCtrl (.reserved 8#8) 320) = false := by decide

theorem test_wf_refuses_numbers :
    Instr.wellFormed defaultConfig (.setRx 0x1000000) = false ∧
    Instr.wellFormed defaultConfig (.setTx 0x1000000) = false ∧
    Instr.wellFormed defaultConfig (.setRfFrequency 0x100000000) = false ∧
    Instr.wellFormed defaultConfig (.setPacketParams 0x10000 .explicit 64 true .standard) = false ∧
    Instr.wellFormed defaultConfig (.setPacketParams 8 .explicit 256 true .standard) = false ∧
    Instr.wellFormed defaultConfig (.setTxParams 128 .ramp10us) = false ∧
    Instr.wellFormed defaultConfig (.setTxParams (-129) .ramp10us) = false ∧
    Instr.wellFormed defaultConfig (.setBufferBaseAddress 256 0) = false ∧
    Instr.wellFormed defaultConfig (.setBufferBaseAddress 0 256) = false ∧
    Instr.wellFormed defaultConfig (.setLoraSymbNumTimeout 256) = false ∧
    Instr.wellFormed defaultConfig (.setDio3AsTcxoCtrl .v1_8 0x1000000) = false := by decide

theorem test_wf_refuses_addresses_and_sizes :
    Instr.wellFormed defaultConfig (.writeRegister 0x10000 0#8) = false ∧
    Instr.wellFormed defaultConfig (.readRegister 0x10000) = false ∧
    Instr.wellFormed defaultConfig (.writeBuffer 1 0 []) = false ∧
    Instr.wellFormed defaultConfig (.writeBuffer 3 256 [1#8]) = false ∧
    Instr.wellFormed defaultConfig (.writeBuffer 7 0 [1#8, 2#8, 3#8]) = false ∧
    Instr.wellFormed defaultConfig (.readBuffer 2 0) = false ∧
    Instr.wellFormed defaultConfig (.readBuffer 3 256) = false := by decide

/-! ## Each instruction: its word decodes to it, and it emits its word -/

/-- OUT, CAP and DLEN of the slot an instruction constructs in the reset state. -/
def builtBy (i : Instr) : Option (List Byte × Nat × Option Nat) :=
  match exec i State.reset with
  | .next t => (t.slotAt 0).map fun sl => (sl.out, sl.cap, sl.dlen)
  | .fault _ => none
  | .refused _ => none

/-- V-CMD-1 -/
theorem test_resetStats :
    decode defaultConfig [0x00#8, 0x00#8, 0x00#8, 0x00#8, 0x00#8, 0x00#8, 0x00#8] = .ok .resetStats ∧
    builtBy .resetStats = some ([0x00#8, 0x00#8, 0x00#8, 0x00#8, 0x00#8, 0x00#8, 0x00#8], 7, none) := by decide

/-- V-CMD-3 -/
theorem test_clearIrqStatus :
    decode defaultConfig [0x02#8, 0x03#8, 0xFF#8] = .ok (.clearIrqStatus 0x03FF) ∧
    builtBy (.clearIrqStatus 0x03FF) = some ([0x02#8, 0x03#8, 0xFF#8], 3, none) := by decide

/-- S2 -/
theorem test_setStandby :
    decode defaultConfig [0x80#8, 0x01#8] = .ok (.setStandby .stdbyXosc) ∧
    builtBy (.setStandby .stdbyXosc) = some ([0x80#8, 0x01#8], 2, none) := by decide

/-- V-CMD-6: the operand is truncated. -/
theorem test_setRx :
    decode defaultConfig [0x82#8, 0x00#8, 0x00#8, 0x01#8] = .ok (.setRx 1) ∧
    builtBy (.setRx 0x1000001) = some ([0x82#8, 0x00#8, 0x00#8, 0x01#8], 4, none) := by decide

/-- S3 -/
theorem test_setTx :
    decode defaultConfig [0x83#8, 0x68#8, 0xB8#8, 0x49#8] = .ok (.setTx 6862921) ∧
    builtBy (.setTx 6862921) = some ([0x83#8, 0x68#8, 0xB8#8, 0x49#8], 4, none) := by decide

/-- S1 -/
theorem test_setSleep :
    decode defaultConfig [0x84#8, 0x04#8] = .ok (.setSleep 4) ∧
    builtBy (.setSleep (bfWith sleepConfigType (bfZero sleepConfigType) .warmStart (.flag true))) =
      some ([0x84#8, 0x04#8], 2, none) := by decide

/-- V-CMD-11 -/
theorem test_setRfFrequency :
    decode defaultConfig [0x86#8, 0x36#8, 0x40#8, 0x00#8, 0x00#8] = .ok (.setRfFrequency 0x36400000) ∧
    builtBy (.setRfFrequency 0x36400000) = some ([0x86#8, 0x36#8, 0x40#8, 0x00#8, 0x00#8], 5, none) := by decide

/-- V-CMD-13 -/
theorem test_setPacketType :
    decode defaultConfig [0x8A#8, 0x01#8] = .ok (.setPacketType .loRa) ∧
    builtBy (.setPacketType .loRa) = some ([0x8A#8, 0x01#8], 2, none) := by decide

/-- V-CMD-15 -/
theorem test_setModulationParamsLora :
    decode defaultConfig [0x8B#8, 0x0C#8, 0x00#8, 0x04#8, 0x01#8] =
      .ok (.setModulationParamsLora .sf12 .bw7 .cr4_8 true) ∧
    builtBy (.setModulationParamsLora .sf12 .bw7 .cr4_8 true) =
      some ([0x8B#8, 0x0C#8, 0x00#8, 0x04#8, 0x01#8], 5, none) := by decide

/-- V-CMD-17 -/
theorem test_setPacketParams :
    decode defaultConfig [0x8C#8, 0x00#8, 0x08#8, 0x01#8, 0xFF#8, 0x00#8, 0x01#8] =
      .ok (.setPacketParams 8 .implicit 255 false .inverted) ∧
    builtBy (.setPacketParams 0x10008 .implicit 0x1FF false .inverted) =
      some ([0x8C#8, 0x00#8, 0x08#8, 0x01#8, 0xFF#8, 0x00#8, 0x01#8], 7, none) := by decide

/-- V-CMD-19 -/
theorem test_setTxParams :
    decode defaultConfig [0x8E#8, 0xF7#8, 0x00#8] = .ok (.setTxParams (-9) .ramp10us) ∧
    builtBy (.setTxParams (-9) .ramp10us) = some ([0x8E#8, 0xF7#8, 0x00#8], 3, none) := by decide

/-- V-CMD-21 -/
theorem test_setBufferBaseAddress :
    decode defaultConfig [0x8F#8, 0x00#8, 0x80#8] = .ok (.setBufferBaseAddress 0 0x80) ∧
    builtBy (.setBufferBaseAddress 0 0x80) = some ([0x8F#8, 0x00#8, 0x80#8], 3, none) := by decide

/-- S4 and V-CMD-23 -/
theorem test_writeRegister :
    decode defaultConfig [0x0D#8, 0x07#8, 0x40#8, 0x48#8] = .ok (.writeRegister 0x0740 0x48#8) ∧
    builtBy (.writeRegister 0x10740 0x48#8) = some ([0x0D#8, 0x07#8, 0x40#8, 0x48#8], 4, none) := by decide

/-- S5 -/
theorem test_writeBuffer :
    decode defaultConfig [0x0E#8, 0x10#8, 0x68#8, 0x65#8, 0x6C#8, 0x6C#8, 0x6F#8] =
      .ok (.writeBuffer 7 0x10 [0x68#8, 0x65#8, 0x6C#8, 0x6C#8, 0x6F#8]) ∧
    builtBy (.writeBuffer 7 0x10 [0x68#8, 0x65#8, 0x6C#8, 0x6C#8, 0x6F#8]) =
      some ([0x0E#8, 0x10#8, 0x68#8, 0x65#8, 0x6C#8, 0x6C#8, 0x6F#8], 7, some 5) := by decide

/-- V-CMD-25 -/
theorem test_getStatus :
    decode defaultConfig [0xC0#8, 0x00#8] = .ok .getStatus ∧
    builtBy .getStatus = some ([0xC0#8, 0x00#8], 2, none) := by decide

/-- V-CMD-26 -/
theorem test_getPacketType :
    decode defaultConfig [0x11#8, 0x00#8, 0x00#8] = .ok .getPacketType ∧
    builtBy .getPacketType = some ([0x11#8, 0x00#8, 0x00#8], 3, none) := by decide

/-- V-CMD-27 -/
theorem test_getIrqStatus :
    decode defaultConfig [0x12#8, 0x00#8, 0x00#8, 0x00#8] = .ok .getIrqStatus ∧
    builtBy .getIrqStatus = some ([0x12#8, 0x00#8, 0x00#8, 0x00#8], 4, none) := by decide

/-- V-CMD-28 -/
theorem test_getRxBufferStatus :
    decode defaultConfig [0x13#8, 0x00#8, 0x00#8, 0x00#8] = .ok .getRxBufferStatus ∧
    builtBy .getRxBufferStatus = some ([0x13#8, 0x00#8, 0x00#8, 0x00#8], 4, none) := by decide

/-- V-CMD-29 -/
theorem test_getPacketStatusLora :
    decode defaultConfig [0x14#8, 0x00#8, 0x00#8, 0x00#8, 0x00#8] = .ok .getPacketStatusLora ∧
    builtBy .getPacketStatusLora = some ([0x14#8, 0x00#8, 0x00#8, 0x00#8, 0x00#8], 5, none) := by decide

/-- V-CMD-30 -/
theorem test_getDeviceErrors :
    decode defaultConfig [0x17#8, 0x00#8, 0x00#8, 0x00#8] = .ok .getDeviceErrors ∧
    builtBy .getDeviceErrors = some ([0x17#8, 0x00#8, 0x00#8, 0x00#8], 4, none) := by decide

/-- V-CMD-31 -/
theorem test_readRegister :
    decode defaultConfig [0x1D#8, 0x07#8, 0x40#8, 0x00#8, 0x00#8] = .ok (.readRegister 0x0740) ∧
    builtBy (.readRegister 0x0740) = some ([0x1D#8, 0x07#8, 0x40#8, 0x00#8, 0x00#8], 5, none) := by decide

/-- V-CMD-32 -/
theorem test_readBuffer :
    decode defaultConfig [0x1E#8, 0x80#8, 0x00#8, 0x00#8, 0x00#8, 0x00#8, 0x00#8, 0x00#8] = .ok (.readBuffer 8 0x80) ∧
    builtBy (.readBuffer 8 0x80) =
      some ([0x1E#8, 0x80#8, 0x00#8, 0x00#8, 0x00#8, 0x00#8, 0x00#8, 0x00#8], 8, some 5) := by decide

/-- V-CMD-34 -/
theorem test_clearDeviceErrors :
    decode defaultConfig [0x07#8, 0x00#8, 0x00#8] = .ok .clearDeviceErrors ∧
    builtBy .clearDeviceErrors = some ([0x07#8, 0x00#8, 0x00#8], 3, none) := by decide

/-- V-CMD-35 -/
theorem test_setDioIrqParams :
    decode defaultConfig [0x08#8, 0x02#8, 0x03#8, 0x02#8, 0x03#8, 0x00#8, 0x00#8, 0x00#8, 0x00#8] =
      .ok (.setDioIrqParams 0x0203 0x0203 0 0) ∧
    builtBy (.setDioIrqParams 0x0203 0x0203 0 0) =
      some ([0x08#8, 0x02#8, 0x03#8, 0x02#8, 0x03#8, 0x00#8, 0x00#8, 0x00#8, 0x00#8], 9, none) := by decide

/-- V-CMD-36 -/
theorem test_getStatsLora :
    decode defaultConfig [0x10#8, 0x00#8, 0x00#8, 0x00#8, 0x00#8, 0x00#8, 0x00#8, 0x00#8] = .ok .getStatsLora ∧
    builtBy .getStatsLora = some ([0x10#8, 0x00#8, 0x00#8, 0x00#8, 0x00#8, 0x00#8, 0x00#8, 0x00#8], 8, none) := by decide

/-- V-CMD-37 -/
theorem test_setLoraSymbNumTimeout :
    decode defaultConfig [0xA0#8, 0x05#8] = .ok (.setLoraSymbNumTimeout 5) ∧
    builtBy (.setLoraSymbNumTimeout 0x105) = some ([0xA0#8, 0x05#8], 2, none) := by decide

/-- V-CMD-38 -/
theorem test_setDio2AsRfSwitchCtrl :
    decode defaultConfig [0x9D#8, 0x01#8] = .ok (.setDio2AsRfSwitchCtrl true) ∧
    builtBy (.setDio2AsRfSwitchCtrl true) = some ([0x9D#8, 0x01#8], 2, none) := by decide

/-- V-CMD-39 -/
theorem test_setDio3AsTcxoCtrl :
    decode defaultConfig [0x97#8, 0x02#8, 0x00#8, 0x01#8, 0x40#8] = .ok (.setDio3AsTcxoCtrl .v1_8 320) ∧
    builtBy (.setDio3AsTcxoCtrl .v1_8 320) = some ([0x97#8, 0x02#8, 0x00#8, 0x01#8, 0x40#8], 5, none) := by decide

/-- The decoder rejects by name (30_encoding.md R112, R117). -/
theorem test_decode_rejects :
    decode defaultConfig [] = .error .emptyFrame ∧
    decode defaultConfig [0x15#8, 0x00#8] = .error (.unknownOpcode 0x15#8) ∧
    decode defaultConfig [0x83#8, 0x00#8, 0x00#8] = .error (.badLength .setTx 3) ∧
    decode defaultConfig [0x80#8, 0x01#8, 0x00#8] = .error (.badLength .setStandby 3) ∧
    decode defaultConfig [0x0E#8] = .error (.badLength .writeBuffer 1) := by decide

/-- A word numbered as spec/opcode_table.json numbers it (S3): read by the decoder, and run by the very next step. -/
theorem test_table_word :
    decodeTableWord 32 0x49B86883 = some (.setTx 6862921) ∧ decodeTableWord 8 0x15 = none ∧
    (match step (State.reset.withFetchWord 32 0x49B86883) with
      | .next t => (t.slotAt 0).map fun sl => sl.out
      | .fault _ => none
      | .refused _ => none) = some [0x83#8, 0x68#8, 0xB8#8, 0x49#8] := by decide

/-- A layout other than the default: the fields of SetTxParams and of GetRxBufferStatus swapped, Irq words in the low half of the
inbound frame, and the status fields declared from the high bit. -/
def otherConfig : Config :=
  { defaultConfig with
    layout := { defaultLayout with
      power := 2, rampTime := 1, payloadLengthRx := 3, rxStartBufferPointer := 1, irqStatus := 1
      statusType := ⟨8, .msbFirst, [.field .commandStatus 3 .uint, .reserved 2, .field .chipMode 3 .uint]⟩ } }

/-- The places of fields are those CMD_LAYOUT gives (00_scope.md R6), in the frame and in the decoder. -/
theorem test_layout_is_a_parameter :
    encode otherConfig (.setTxParams (-9) .ramp200us) = [0x8E#8, 0x04#8, 0xF7#8] ∧
    decode otherConfig [0x8E#8, 0x04#8, 0xF7#8] = .ok (.setTxParams (-9) .ramp200us) ∧ configOk otherConfig = true ∧
    configOk { defaultConfig with layout := { defaultLayout with power := 2 } } = false := by decide

/-! ## One slot: accessors, the contract, the transport, faults -/

/-- A state with one slot, under handle 0. -/
def oneSlot (sl : Slot) : State := { State.reset with slots := [(0, sl)], nextHandle := 1 }

/-- A slot of kind `k` with the given frame, cells received from index 0 on, DLEN and phase; XLEN is its transfer length. -/
def slotWith (k : Kind) (out reply : List Byte) (dlen : Option Nat) (ph : Phase) : Slot :=
  { kind := k, cap := out.length, out := out, inb := Memory.writeFrom [] 0 reply, dlen := dlen,
    xlen := (headerBytes k).elim out.length (· + dlen.getD 0), phase := ph }

/-- The last value a host operation returned. -/
def answer (op : HostOp) (s : State) : Option Value :=
  match runHostOp op s with
  | .next t => if t.fault = none then t.returned.getLast? else none
  | .fault _ => none
  | .refused _ => none

/-- The fault record an event leaves. -/
def faultOf (e : Event) (s : State) : Option FaultRecord :=
  match runEvent e s with
  | .next t => t.fault
  | .fault _ => none
  | .refused _ => none

/-- The frame of GetStatus. -/
def statusFrame : List Byte := [0xC0#8, 0x00#8]

/-- The "hello" frame of S5. -/
def helloFrame : List Byte := [0x0E#8, 0x10#8, 0x68#8, 0x65#8, 0x6C#8, 0x6C#8, 0x6F#8]

/-- The frame of V-CMD-32. -/
def readFrame : List Byte := [0x1E#8, 0x80#8, 0x00#8, 0x00#8, 0x00#8, 0x00#8, 0x00#8, 0x00#8]

/-- The frame of a ReadRegister of 0x0740. -/
def readRegisterFrame : List Byte := [0x1D#8, 0x07#8, 0x40#8, 0x00#8, 0x00#8]

/-- The frame of a SetTx with timeout 1. -/
def setTxFrame : List Byte := [0x83#8, 0x00#8, 0x00#8, 0x01#8]

/-- The frame of a GetPacketStatusLora. -/
def packetStatusFrame : List Byte := [0x14#8, 0x00#8, 0x00#8, 0x00#8, 0x00#8]

/-- A GetStatus slot after V-DEC-2's transfer. -/
def statusDone : Slot := slotWith .getStatus statusFrame [0x00#8, 0xA5#8] none .done

/-- A GetStatus slot never transferred. -/
def statusBuilt : Slot := slotWith .getStatus statusFrame [] none .built

/-- The S5 slot. -/
def helloSlot : Slot := slotWith .writeBuffer helloFrame [] (some 5) .built

/-- The V-CMD-32 slot. -/
def readSlot : Slot := slotWith .readBuffer readFrame [] (some 5) .built

/-- The V-VAR-9 slot: a transfer of five bytes, and DLEN then raised to 4. -/
def readRaised : Slot :=
  { slotWith .readBuffer readFrame [9#8, 9#8, 9#8, 0xAA#8, 0xBB#8] (some 4) .done with xlen := 5 }

/-- The V-CT-1 slot. -/
def setTxSlot : Slot := slotWith .setTx setTxFrame [] none .built

/-- The V-CT-3 slot. -/
def setTxFlying : Slot := slotWith .setTx setTxFrame [] none .inFlight

/-- S6, V-DEC-8 -/
theorem test_packet_status :
    answer (.access 0 .rssiPkt)
      (oneSlot (slotWith .getPacketStatusLora packetStatusFrame [0#8, 0#8, 184#8, 0xFC#8, 162#8] none .done)) =
        some (.int (-92)) ∧
    answer (.access 0 .snrPkt)
      (oneSlot (slotWith .getPacketStatusLora packetStatusFrame [0#8, 0#8, 184#8, 0xFC#8, 162#8] none .done)) =
        some (.int (-1)) ∧
    answer (.access 0 .signalRssiPkt)
      (oneSlot (slotWith .getPacketStatusLora packetStatusFrame [0#8, 0#8, 184#8, 0xFC#8, 162#8] none .done)) =
        some (.int (-81)) := by decide

/-- V-DEC-2, V-DEC-4 -/
theorem test_status :
    answer (.access 0 .chipMode) (oneSlot statusDone) = some (.member (.chipMode .stbyRc)) ∧
    answer (.access 0 .commandStatus) (oneSlot statusDone) = some (.member (.commandStatus .dataAvailable)) ∧
    answer (.access 0 .status) (oneSlot statusDone) = some (.bits 0x24) ∧
    answer (.access 0 .commandStatus) (oneSlot (slotWith .getStatus statusFrame [0x00#8, 0x3E#8] none .done)) =
      some (.member (.commandStatus .rfu7)) := by decide

/-- V-DEC-5, V-DEC-6, V-DEC-9 -/
theorem test_masked_reads :
    answer (.access 0 .packetType)
      (oneSlot (slotWith .getPacketType [0x11#8, 0x00#8, 0x00#8] [0#8, 0#8, 0xFD#8] none .done)) =
        some (.member (.packetType .loRa)) ∧
    answer (.access 0 .irqStatus)
      (oneSlot (slotWith .getIrqStatus [0x12#8, 0x00#8, 0x00#8, 0x00#8] [0#8, 0#8, 0x02#8, 0x01#8] none .done)) =
        some (.bits 0x0201) ∧
    answer (.access 0 .opError)
      (oneSlot (slotWith .getDeviceErrors [0x17#8, 0x00#8, 0x00#8, 0x00#8] [0#8, 0#8, 0x00#8, 0x20#8] none .done)) =
        some (.bits 0x0020) := by decide

/-- A GetStatsLora slot after V-DEC-10's transfer. -/
def statsDone : Slot :=
  slotWith .getStatsLora [0x10#8, 0x00#8, 0x00#8, 0x00#8, 0x00#8, 0x00#8, 0x00#8, 0x00#8]
    [0#8, 0#8, 0x01#8, 0x02#8, 0x00#8, 0x03#8, 0xFF#8, 0xFF#8] none .done

/-- A GetRxBufferStatus slot after V-DEC-7's transfer. -/
def rxDone : Slot :=
  slotWith .getRxBufferStatus [0x13#8, 0x00#8, 0x00#8, 0x00#8] [0#8, 0#8, 0x05#8, 0x80#8] none .done

/-- The decoders under `otherConfig`: status 0xA5 has bits 7..5 = 5 and bits 2..0 = 5. -/
theorem test_decoders_follow_the_layout :
    answer (.access 0 .chipMode) { oneSlot statusDone with config := otherConfig } = some (.member (.chipMode .rx)) ∧
    answer (.access 0 .commandStatus) { oneSlot statusDone with config := otherConfig } =
      some (.member (.commandStatus .failureToExecute)) ∧
    answer (.access 0 .payloadLengthRx) { oneSlot rxDone with config := otherConfig } = some (.nat 0x80) ∧
    answer (.access 0 .rxStartBufferPointer) { oneSlot rxDone with config := otherConfig } = some (.nat 0) := by decide

/-- V-DEC-7, V-DEC-10 -/
theorem test_counters :
    answer (.access 0 .payloadLengthRx) (oneSlot rxDone) = some (.nat 5) ∧
    answer (.access 0 .rxStartBufferPointer) (oneSlot rxDone) = some (.nat 0x80) ∧
    answer (.access 0 .nbPktReceived) (oneSlot statsDone) = some (.nat 258) ∧
    answer (.access 0 .nbPktCrcError) (oneSlot statsDone) = some (.nat 3) ∧
    answer (.access 0 .nbPktHeaderErr) (oneSlot statsDone) = some (.nat 65535) := by decide

/-- V-REG-1, V-VAR-7, V-VAR-10 -/
theorem test_value_and_data :
    answer (.access 0 .value)
      (oneSlot (slotWith .readRegister readRegisterFrame [0#8, 0#8, 0#8, 0#8, 0x34#8] none .done)) =
        some (.byte 0x34#8) ∧
    answer (.access 0 .data)
      (oneSlot (slotWith .readBuffer readFrame [0#8, 0#8, 0#8, 0x68#8, 0x65#8, 0x6C#8, 0x6C#8, 0x6F#8] (some 5) .done)) =
        some (.bytes [0x68#8, 0x65#8, 0x6C#8, 0x6C#8, 0x6F#8]) ∧
    answer (.access 0 .data) (oneSlot (slotWith .readBuffer [0x1E#8, 0x00#8, 0x00#8] [] (some 0) .built)) =
      some (.bytes []) := by decide

/-- V-CT-1, V-CT-2, S5 after SET_DLEN 3, V-RB-5 -/
theorem test_contract :
    answer (.opcode 0) (oneSlot setTxSlot) = some (.byte 0x83#8) ∧
    answer (.tlen 0) (oneSlot setTxSlot) = some (.nat 4) ∧
    answer (.inbound 0) (oneSlot setTxSlot) = some (.cells [none, none, none, none]) ∧
    answer (.tlen 0) (oneSlot { helloSlot with dlen := some 3 }) = some (.nat 5) ∧
    answer (.outbound 0) (oneSlot { helloSlot with dlen := some 3 }) = some (.bytes helloFrame) ∧
    answer (.access 0 .payload) (oneSlot { helloSlot with dlen := some 3 }) = some (.bytes [0x68#8, 0x65#8, 0x6C#8]) := by
  decide

/-- V-CT-3, V-CT-6 -/
theorem test_submit :
    (match runHostOp (.submit 0) (oneSlot setTxSlot) with
      | .next t => some (t.handed, (t.slotAt 0).map fun sl => (sl.phase, sl.xlen))
      | .fault _ => none
      | .refused _ => none) = some ([⟨0, setTxFrame, 4⟩], some (.inFlight, 4)) ∧
    (match runHostOp (.submit 0) (oneSlot { helloSlot with dlen := some 3 }) with
      | .next t => t.handed
      | .fault _ => []
      | .refused _ => []) = [⟨0, [0x0E#8, 0x10#8, 0x68#8, 0x65#8, 0x6C#8], 5⟩] := by decide

/-- V-CT-4, V-CT-7, V-CT-8 -/
theorem test_complete :
    complete 0 [0xA2#8, 0xA2#8, 0xA2#8, 0xA2#8] (oneSlot setTxFlying) =
      .next (oneSlot (slotWith .setTx setTxFrame [0xA2#8, 0xA2#8, 0xA2#8, 0xA2#8] none .done)) ∧
    complete 0 [1#8, 2#8, 3#8, 4#8, 5#8] (oneSlot { helloSlot with dlen := some 3, xlen := 5, phase := .inFlight }) =
      .next (oneSlot (slotWith .writeBuffer helloFrame [1#8, 2#8, 3#8, 4#8, 5#8] (some 3) .done)) ∧
    complete 0 [0#8, 0#8, 0#8, 0#8] (oneSlot setTxSlot) = .refused (.noTransportStep 0) := ⟨rfl, rfl, rfl⟩

/-- V-CT-5, V-REG-2, V-VAR-3, V-VAR-9, V-DEC-11 -/
theorem test_exceptional_returns :
    faultOf (.complete 0 [0#8, 0#8]) (oneSlot setTxFlying) = some ⟨.transportLength, some 0, .number 2⟩ ∧
    faultOf (.host (.access 0 .value)) (oneSlot (slotWith .readRegister readRegisterFrame [] none .built)) =
      some ⟨.unwrittenIn, some 0, .number 4⟩ ∧
    faultOf (.host (.setDlen 0 6)) (oneSlot helloSlot) = some ⟨.contractDlen, some 0, .number 6⟩ ∧
    faultOf (.host (.access 0 .data)) (oneSlot readRaised) = some ⟨.unwrittenIn, some 0, .number 5⟩ ∧
    faultOf (.host (.access 0 .chipMode)) (oneSlot statusBuilt) = some ⟨.unwrittenIn, some 0, .number 1⟩ := by decide

/-- V-FLT-3, V-FLT-5, V-FLT-7, V-FLT-8, V-FLT-9, V-FLT-11, V-VAR-5, V-VAR-6, V-VAR-11 -/
theorem test_priorities_and_refusals :
    faultOf (.host (.opcode 0)) (oneSlot setTxFlying) = some ⟨.inFlightAccess, some 0, .operation .opcode⟩ ∧
    faultOf (.host (.drop 0)) (oneSlot setTxFlying) = some ⟨.inFlightAccess, some 0, .operation .drop⟩ ∧
    faultOf (.host (.tlen 1)) (oneSlot setTxSlot) = some ⟨.noSlot, some 1, .nothing⟩ ∧
    faultOf (.host (.setDlen 0 1)) (oneSlot setTxFlying) = some ⟨.wrongKind, some 0, .nothing⟩ ∧
    faultOf (.host (.setDlen 0 99)) (oneSlot { readSlot with phase := .inFlight }) =
      some ⟨.inFlightAccess, some 0, .operation .setDlen⟩ ∧
    faultOf (.host (.classify 0x15#8)) State.reset = some ⟨.unknownOpcode, none, .number 0x15⟩ ∧
    faultOf (.host (.construct (.writeBuffer 1 0 []))) State.reset = some ⟨.badCap, none, .number 1⟩ ∧
    faultOf (.host (.construct (.writeBuffer 7 0 [1#8, 2#8, 3#8]))) State.reset =
      some ⟨.payloadLength, none, .number 3⟩ ∧
    faultOf (.host (.construct (.readBuffer 2 0))) State.reset = some ⟨.badCap, none, .number 2⟩ := by decide

/-- 60_exceptions.md R422, R423: the codes. -/
theorem test_fault_codes :
    [Reason.contractDlen, .unwrittenIn, .inFlightAccess, .transportLength].map Reason.code = [1, 2, 3, 4] ∧
    [Reason.noSlot, .wrongKind, .badCap, .payloadLength, .unknownOpcode].map Reason.code = [16, 17, 18, 19, 20] := by
  decide

/-! ## Bit fields, enumerations, numbers -/

/-- The type TL of 95_test_vectors.md section 2.1; `a` is `other 0`, `b` is `other 1`. -/
def typeTL : BFType := ⟨8, .lsbFirst, [.field (.other 0) 3 .uint, .field (.other 1) 5 .uint]⟩

/-- The type TM of 95_test_vectors.md section 2.1. -/
def typeTM : BFType := ⟨8, .msbFirst, [.field (.other 0) 3 .uint, .field (.other 1) 5 .uint]⟩

/-- V-BF-1 to V-BF-6 -/
theorem test_bitfields :
    bfWith typeTL (bfZero typeTL) (.other 1) (.uint 0x2B) = 0x58 ∧
    bfGet typeTL 0x58 (.other 1) = some (.uint 0x0B) ∧ bfGet typeTL 0x58 (.other 0) = some (.uint 0) ∧
    bfWith typeTM (bfZero typeTM) (.other 0) (.uint 5) = 0xA0 ∧
    bfWith typeTL (bfZero typeTL) (.other 0) (.uint 9) = 0x01 ∧
    bfWith typeTL (bfWith typeTL 0 (.other 0) (.uint 7)) (.other 0) (.uint 2) = 0x02 ∧
    bfWith typeTL (bfWith typeTL 0 (.other 0) (.uint 7)) (.other 1) (.uint 31) = 0xFF := by decide

/-- V-BF-7 to V-BF-14 -/
theorem test_from_raw :
    bfFromRaw sleepConfigType 0xFF = 0x05 ∧ bfFromRaw statusType 0xFF = 0x7E ∧
    bfFromRaw (irqType false) 0xFFFF = 0x03FF ∧ bfFromRaw (irqType true) 0xFFFF = 0x43FF ∧
    bfFromRaw opErrorType 0xFFFF = 0x017F ∧ bfFromRaw (irqType false) 0x1234 = 0x0234 ∧
    bfFromRaw opErrorType 0xABCD = 0x014D ∧ bfFromRaw sleepConfigType 0x1FF = 0x05 := by decide

/-- 40_bitfield_codec.md R150: at the port BF.GET reads a raw integer with reserved bits set by its formula (R145). -/
theorem test_get_of_raw :
    answer (.pure (.bfGet statusType 0xDB .chipMode)) State.reset = some (.field (.uint 5)) ∧
    answer (.pure (.bfGet (irqType false) 0xFC01 .txDone)) State.reset = some (.field (.flag true)) := by decide

/-- V-EN-2 to V-EN-9, V-EN-11 -/
theorem test_enums :
    decEnum defaultEnumWidths .spreadingFactor 0x17#8 = .spreadingFactor .sf7 ∧
    decEnum defaultEnumWidths .spreadingFactor 0x03#8 = .spreadingFactor (.reserved 0x03#8) ∧
    decEnum defaultEnumWidths .bandwidth 0x14#8 = .bandwidth .bw125 ∧
    decEnum defaultEnumWidths .bandwidth 0x0A#8 = .bandwidth .bw41 ∧
    decEnum defaultEnumWidths .codingRate 0x0D#8 = .codingRate (.reserved 0x05#8) ∧
    decEnum defaultEnumWidths .packetType 0xFD#8 = .packetType .loRa ∧
    decEnum defaultEnumWidths .packetType 0x03#8 = .packetType .code3 ∧
    decEnum defaultEnumWidths .headerType 0x02#8 = .headerType .explicit ∧
    encEnum (decEnum defaultEnumWidths .bandwidth 0xFF#8) = 0x0F#8 := by decide

/-- V-NUM-3 to V-NUM-16 -/
theorem test_numbers :
    [0#8, 1#8, 185#8, 254#8, 255#8].map rssi = [0, 0, -92, -127, -127] ∧
    [0xFF#8, 0xFD#8, 0xFB#8, 0x81#8, 0x80#8].map snr = [0, 0, -1, -31, -32] ∧
    [0x7F#8, 0x03#8, 0x04#8, 0x05#8, 0x9C#8].map snr = [31, 0, 1, 1, -25] := by decide

/-- An operand without a stated result does not stop the machine (log entries 16 and 27): a bitfield function on no type, a
register outside REG_SET, and a term that is no member, whose frame has its length and opcode all the same. -/
theorem test_unstated_values_run :
    (∃ v, runHostOp (.pure (.bfFromRaw ⟨0, .lsbFirst, []⟩ 1)) State.reset = .next { State.reset with returned := [.bits v] }) ∧
    (∃ b, runHostOp (.writeRegisterOf ⟨0x0740#16, .plain⟩ 300) State.reset =
      exec (.writeRegister 0x0740 b) State.reset) ∧
    ∃ b, encode defaultConfig (.setStandby (.reserved 5#8)) = [0x80#8, b] := ⟨⟨_, rfl⟩, ⟨_, rfl⟩, _, rfl⟩

/-! ## Witnesses: states and operands that meet the hypotheses of the statements -/

/-- The conditions of a legal slot, as a check that evaluates. -/
def slotCheck (sl : Slot) : Bool :=
  decide (sl.out.length = sl.cap) && decide (sl.out.head? = some (opcodeOf sl.kind)) &&
    (fixedCap sl.kind).all (fun n => decide (sl.cap = n)) &&
    (match headerBytes sl.kind, sl.dlen with
      | some hdr, some d => decide (d + hdr ≤ sl.cap)
      | none, none => true
      | some _, none => false
      | none, some _ => false) &&
    decide (Memory.wf sl.inb) && sl.inb.all (fun c => decide (c.1 < sl.cap)) &&
    (match sl.phase with
      | .built => sl.inb.isEmpty
      | .inFlight => decide (sl.xlen = sl.transferLength)
      | .done => (List.range (alwaysReceived sl)).all fun i => (Memory.read sl.inb i).isSome) &&
    decide (sl.xlen ≤ sl.cap) && (dummyPositions sl.kind sl.cap).all fun i => decide (sl.out[i]? = some dummyByte)

theorem slotInv_of_check {sl : Slot} (h : slotCheck sl = true) : SlotInv sl := by
  simp only [slotCheck, Bool.and_eq_true, decide_eq_true_eq, List.all_eq_true] at h
  obtain ⟨⟨⟨⟨⟨⟨⟨⟨h1, h2⟩, h3⟩, h4⟩, h5⟩, h6⟩, h7⟩, hx⟩, h8⟩ := h
  refine ⟨h1, h2, ?_, ?_, ?_, h5, h6, ?_, hx, ?_, ?_, h8⟩
  · intro n hn; simpa [hn] using h3
  · intro hdr hh
    cases hd : sl.dlen with
    | none => simp [hh, hd] at h4
    | some d => exact ⟨d, rfl, by simpa [hh, hd] using h4⟩
  · intro hh
    cases hd : sl.dlen with
    | none => rfl
    | some d => simp [hh, hd] at h4
  · intro hp; simpa [hp] using h7
  · intro hp; simpa [hp] using h7
  · intro hp i hi
    simp only [hp, List.all_eq_true, List.mem_range] at h7
    exact h7 i hi

/-- A state of one legal slot is legal under every legal configuration, whatever its inputs. -/
theorem inv_oneSlot {sl : Slot} (h : slotCheck sl = true) (cfg : Config) (es : List Event)
    (hc : configOk cfg = true := by decide) : Inv { oneSlot sl with config := cfg, inputs := es } where
  config_ok := hc
  slots_sorted := by simp [oneSlot, Store.sorted]
  handles_used := fun p hp => by simp [oneSlot] at hp; subst hp; exact Nat.zero_lt_one
  slots_ok := fun p hp => by simp [oneSlot] at hp; subst hp; exact slotInv_of_check h

theorem ready_oneSlot {sl : Slot} (h : sl.phase.isInFlight = false) : Ready (oneSlot sl) 0 sl := ⟨rfl, rfl, h⟩

/-- A configuration with one register of each conversion. -/
def registerConfig : Config :=
  { defaultConfig with regSet := [⟨0x0740#16, .plain⟩, ⟨0x0889#16, .bits sleepConfigType⟩] }

/-- A ReadRegister slot after V-REG-1's transfer. -/
def registerDone : Slot := slotWith .readRegister readRegisterFrame [0#8, 0#8, 0#8, 0#8, 0x34#8] none .done

/-- A ReadRegister slot never transferred. -/
def registerBuilt : Slot := slotWith .readRegister readRegisterFrame [] none .built

/-- A ReadBuffer slot after V-VAR-7's transfer. -/
def readDone : Slot :=
  slotWith .readBuffer readFrame [0#8, 0#8, 0#8, 0x68#8, 0x65#8, 0x6C#8, 0x6C#8, 0x6F#8] (some 5) .done

/-- A GetPacketStatusLora slot after S6's transfer. -/
def packetStatusDone : Slot :=
  slotWith .getPacketStatusLora packetStatusFrame [0#8, 0#8, 184#8, 0xFC#8, 162#8] none .done

/-- A GetIrqStatus slot after V-DEC-6's transfer. -/
def irqDone : Slot := slotWith .getIrqStatus [0x12#8, 0x00#8, 0x00#8, 0x00#8] [0#8, 0#8, 0x02#8, 0x01#8] none .done

/-- A GetPacketType slot after V-DEC-5's transfer. -/
def packetTypeDone : Slot := slotWith .getPacketType [0x11#8, 0x00#8, 0x00#8] [0#8, 0#8, 0xFD#8] none .done

/-- A GetDeviceErrors slot after V-DEC-9's transfer. -/
def errorsDone : Slot := slotWith .getDeviceErrors [0x17#8, 0x00#8, 0x00#8, 0x00#8] [0#8, 0#8, 0x00#8, 0x20#8] none .done

theorem witness_DecodeOfEncodeIsTheInstruction :
    configOk defaultConfig = true ∧ configOk otherConfig = true ∧ Instr.wellFormed defaultConfig (.setTx 0xFFFFFF) = true ∧
    Instr.wellFormed defaultConfig (.setTxParams (-128) .ramp3400us) = true ∧
    Instr.wellFormed defaultConfig (.setModulationParamsLora (.reserved 0x0F#8) (.reserved 0x07#8) (.reserved 0x00#8) true)
      = true ∧
    Instr.wellFormed defaultConfig (.setDioIrqParams 0x03FF 0 0x0200 1) = true ∧
    Instr.wellFormed defaultConfig (.writeBuffer 2 255 []) = true ∧
    Instr.wellFormed defaultConfig (.readBuffer 3 255) = true := by decide

theorem witness_DecodedInstructionIsWellFormed :
    configOk defaultConfig = true ∧
    decode defaultConfig [0x84#8, 0xFF#8] = .ok (.setSleep 5) ∧ State.reset.fault = none ∧
    (hasLengthOf .setTx ([0#8, 0#8, 1#8].length + 1) ∧ hasLengthOf .writeBuffer ([0#8].length + 1)) ∧
    ¬ hasLengthOf .setTx ([0#8, 0#8, 1#8, 0#8].length + 1) ∧ ¬ hasLengthOf .setTx ([0#8, 0#8].length + 1) ∧
    ¬ hasLengthOf .readBuffer ([0#8].length + 1) := by
  simp [hasLengthOf, fixedCap, headerBytes]
  decide

theorem witness_OpcodeTableIsTheTableOfR110 :
    Instr.wellFormed defaultConfig .resetStats = true ∧ fixedCap (kindOf .resetStats) = some 7 ∧
    Instr.wellFormed defaultConfig (.writeBuffer 2 0 []) = true ∧ headerBytes (kindOf (.writeBuffer 2 0 [])) = some 2 := by
  decide

theorem witness_ClassifierNamesTheKindOfAnOpcode :
    State.reset.fault = none ∧ opcodeOf .getStatus = 0xC0#8 ∧ ∀ k, opcodeOf k ≠ 0x15#8 :=
  ⟨rfl, rfl, by intro k; cases k <;> decide⟩

/-- For the statements whose only hypotheses are an unfaulted state and a legal layout: SetTx, the unsigned operands, the kinds
without operands, the Irq masks. Two layouts. -/
theorem witness_unfaulted_state :
    (State.reset.fault = none ∧ layoutOk State.reset.config.layout = true) ∧
    { oneSlot statusDone with config := otherConfig }.fault = none ∧
    layoutOk { oneSlot statusDone with config := otherConfig }.config.layout = true := by decide

theorem witness_OneByteCommandsEmitTheirCode :
    State.reset.fault = none ∧ layoutOk State.reset.config.layout = true ∧
    memberOk State.reset.config.enumWidths (.standbyConfig .stdbyXosc) = true ∧
    memberOk State.reset.config.enumWidths (.packetType .code3) = true := by decide

theorem witness_SetModulationParamsLoraEmitsFourCodes :
    State.reset.fault = none ∧ layoutOk State.reset.config.layout = true ∧
    memberOk State.reset.config.enumWidths (.spreadingFactor (.reserved 0x0F#8)) = true ∧
    memberOk State.reset.config.enumWidths (.bandwidth .bw41) = true ∧
    memberOk State.reset.config.enumWidths (.codingRate (.reserved 0x07#8)) = true := by decide

theorem witness_SetPacketParamsEmitsItsFiveFields :
    State.reset.fault = none ∧ layoutOk State.reset.config.layout = true ∧
    memberOk State.reset.config.enumWidths (.headerType .implicit) = true ∧
    memberOk State.reset.config.enumWidths (.invertIq .inverted) = true := by decide

theorem witness_SetTxParamsEmitsTheSignedPower :
    State.reset.fault = none ∧ layoutOk State.reset.config.layout = true ∧
    memberOk State.reset.config.enumWidths (.rampTime .ramp3400us) = true := by decide

theorem witness_DioControlCommandsEmitTheirFields :
    State.reset.fault = none ∧ layoutOk State.reset.config.layout = true ∧
    memberOk State.reset.config.enumWidths (.tcxoVoltage .v3_3) = true := by decide

/-- For WriteRegister and ReadRegister: an unfaulted state with a register of each conversion, and a value of each. -/
theorem witness_register_requests :
    { State.reset with config := registerConfig }.fault = none ∧
    (⟨0x0740#16, .plain⟩ : RegType) ∈ registerConfig.regSet ∧ isRegValue .plain 255 = true ∧
    (⟨0x0889#16, .bits sleepConfigType⟩ : RegType) ∈ registerConfig.regSet ∧
    isRegValue (.bits sleepConfigType) 5 = true := by decide

theorem witness_WriteBufferConstructsOrIsRefused :
    State.reset.fault = none ∧ (2 ≤ 2 ∧ ([] : List Byte).length = 2 - 2) ∧ 1 < 2 ∧
    (2 ≤ 3 ∧ ([] : List Byte).length ≠ 3 - 2) := by decide

theorem witness_ReadBufferConstructsOrIsRefused : State.reset.fault = none ∧ 3 ≤ 3 ∧ 2 < 3 := by decide

theorem witness_ContractOperationsReturnTheSlotsFields :
    (Inv (oneSlot helloSlot) ∧ Ready (oneSlot helloSlot) 0 helloSlot ∧ helloSlot.kind = .writeBuffer) ∧
    (Inv (oneSlot readDone) ∧ Ready (oneSlot readDone) 0 readDone ∧ readDone.kind = .readBuffer) ∧
    Inv (oneSlot statusDone) ∧ Ready (oneSlot statusDone) 0 statusDone ∧ statusDone.kind = .getStatus :=
  ⟨⟨inv_oneSlot (by decide) _ _, ready_oneSlot rfl, rfl⟩, ⟨inv_oneSlot (by decide) _ _, ready_oneSlot rfl, rfl⟩,
    inv_oneSlot (by decide) _ _, ready_oneSlot rfl, rfl⟩

/-- A legal state that has a step, which leaves slot 0: for the statements about a step and a slot after it. -/
theorem witness_BuffersHaveCapBytesAndTheOpcode :
    Inv { oneSlot statusDone with inputs := [.host (.opcode 0)] } ∧
    ∃ t, step { oneSlot statusDone with inputs := [.host (.opcode 0)] } = .next t ∧ t.slotAt 0 = some statusDone :=
  ⟨inv_oneSlot (by decide) _ _, _, rfl, rfl⟩

theorem witness_VariableTransfersAreHeaderAndDlenBytes :
    (Inv (oneSlot helloSlot) ∧ Ready (oneSlot helloSlot) 0 helloSlot ∧ helloSlot.dlen = some 5 ∧
      helloSlot.kind = .writeBuffer) ∧
    Inv (oneSlot readSlot) ∧ Ready (oneSlot readSlot) 0 readSlot ∧ readSlot.dlen = some 5 ∧ readSlot.kind = .readBuffer ∧
    (List.replicate 8 (0#8 : Byte)).length = 3 + 5 :=
  ⟨⟨inv_oneSlot (by decide) _ _, ready_oneSlot rfl, rfl, rfl⟩, inv_oneSlot (by decide) _ _, ready_oneSlot rfl, rfl, rfl, rfl⟩

/-- Also for DropRemovesTheSlot. -/
theorem witness_SubmitGoesInFlight :
    Ready (oneSlot setTxSlot) 0 setTxSlot ∧ Ready (oneSlot statusDone) 0 statusDone := ⟨ready_oneSlot rfl, ready_oneSlot rfl⟩

theorem witness_CompleteWritesExactlyTheTransferredCells :
    (oneSlot setTxFlying).fault = none ∧ (oneSlot setTxFlying).slotAt 0 = some setTxFlying ∧
    setTxFlying.phase = .inFlight ∧ setTxFlying.xlen = [1#8, 2#8, 3#8, 4#8].length := by decide

theorem witness_CompletionChecksFlightThenLength :
    ((oneSlot setTxFlying).fault = none ∧ (oneSlot setTxFlying).slotAt 0 = some setTxFlying ∧
      setTxFlying.phase = .inFlight ∧ [1#8, 2#8, 3#8].length ≠ setTxFlying.xlen) ∧
    ((oneSlot setTxSlot).slotAt 0 = some setTxSlot ∧ setTxSlot.phase.isInFlight = false) ∧
    (oneSlot setTxSlot).slotAt 1 = none := by decide

/-- Also the premises of its OnlyOn clause: another kind, and a slot in flight. -/
theorem witness_SetDlenOnReadBuffer :
    (Inv (oneSlot readSlot) ∧ Ready (oneSlot readSlot) 0 readSlot ∧ readSlot.kind = .readBuffer) ∧
    (5 ≤ readSlot.cap - 3 ∧ readSlot.cap - 3 < 6) ∧
    ((oneSlot setTxSlot).slotAt 0 = some setTxSlot ∧ setTxSlot.kind ∉ [Kind.writeBuffer, .readBuffer]) ∧
    (oneSlot { readSlot with phase := .inFlight }).slotAt 0 = some { readSlot with phase := .inFlight } :=
  ⟨⟨inv_oneSlot (by decide) _ _, ready_oneSlot rfl, rfl⟩, by decide, by decide, rfl⟩

theorem witness_SetDlenOnWriteBuffer :
    (Inv (oneSlot helloSlot) ∧ Ready (oneSlot helloSlot) 0 helloSlot ∧ helloSlot.kind = .writeBuffer) ∧
    5 ≤ helloSlot.cap - 2 ∧ helloSlot.cap - 2 < 6 :=
  ⟨⟨inv_oneSlot (by decide) _ _, ready_oneSlot rfl, rfl⟩, by decide⟩

theorem witness_ReadBufferDataIsTheReplyAfterTheHeader :
    Inv (oneSlot readSlot) ∧ Ready (oneSlot readSlot) 0 readSlot ∧ readSlot.kind = .readBuffer ∧
    readSlot.dlen = some 5 ∧ (List.replicate 8 (0#8 : Byte)).length = 3 + 5 :=
  ⟨inv_oneSlot (by decide) _ _, ready_oneSlot rfl, rfl, rfl, rfl⟩

theorem witness_PacketStatusDecodesRssiSnrSignalRssi :
    Inv (oneSlot packetStatusDone) ∧ Ready (oneSlot packetStatusDone) 0 packetStatusDone ∧
    packetStatusDone.kind = .getPacketStatusLora ∧ (oneSlot packetStatusDone).inAt 0 2 = some 184#8 ∧
    (oneSlot packetStatusDone).inAt 0 3 = some 0xFC#8 ∧ (oneSlot packetStatusDone).inAt 0 4 = some 162#8 :=
  ⟨inv_oneSlot (by decide) _ _, ready_oneSlot rfl, rfl, rfl, rfl, rfl⟩

theorem witness_ReadRegisterValueIsTheLastByte :
    (Inv { oneSlot registerDone with config := registerConfig } ∧
      Ready { oneSlot registerDone with config := registerConfig } 0 registerDone ∧ registerDone.kind = .readRegister ∧
      { oneSlot registerDone with config := registerConfig }.inAt 0 4 = some 0x34#8 ∧
      (⟨0x0740#16, .plain⟩ : RegType) ∈ registerConfig.regSet) ∧
    Inv { oneSlot registerBuilt with config := registerConfig } ∧
    Ready { oneSlot registerBuilt with config := registerConfig } 0 registerBuilt ∧
    { oneSlot registerBuilt with config := registerConfig }.inAt 0 4 = none ∧
    ({ oneSlot setTxSlot with config := registerConfig }.slotAt 0 = some setTxSlot ∧
      setTxSlot.kind ∉ [Kind.readRegister]) ∧
    { oneSlot { registerBuilt with phase := .inFlight } with config := registerConfig }.slotAt 0 =
      some { registerBuilt with phase := .inFlight } :=
  ⟨⟨inv_oneSlot (by decide) _ _, ⟨rfl, rfl, rfl⟩, rfl, rfl, by decide⟩, inv_oneSlot (by decide) _ _, ⟨rfl, rfl, rfl⟩, rfl,
    ⟨rfl, by decide⟩, rfl⟩

theorem witness_ReadBufferDataReadsDlenBytes :
    (Inv (oneSlot readDone) ∧ Ready (oneSlot readDone) 0 readDone ∧ readDone.dlen = some 5 ∧
      ∀ i, i < 5 → (oneSlot readDone).inAt 0 (3 + i) = [0x68#8, 0x65#8, 0x6C#8, 0x6C#8, 0x6F#8][i]?) ∧
    Inv (oneSlot readRaised) ∧ Ready (oneSlot readRaised) 0 readRaised ∧ readRaised.dlen = some 4 ∧
    (oneSlot readRaised).inAt 0 (3 + 2) = none ∧ (∀ i, i < 2 → ((oneSlot readRaised).inAt 0 (3 + i)).isSome) ∧
    ((oneSlot setTxSlot).slotAt 0 = some setTxSlot ∧ setTxSlot.kind ∉ [Kind.readBuffer]) ∧
    (oneSlot { readSlot with phase := .inFlight }).slotAt 0 = some { readSlot with phase := .inFlight } :=
  ⟨⟨inv_oneSlot (by decide) _ _, ready_oneSlot rfl, rfl, by decide⟩, inv_oneSlot (by decide) _ _, ready_oneSlot rfl, rfl,
    rfl, by decide, ⟨rfl, by decide⟩, rfl⟩

theorem witness_GetStatusDecodesItsSubFields :
    Inv (oneSlot statusDone) ∧ Ready (oneSlot statusDone) 0 statusDone ∧ statusDone.kind = .getStatus ∧
    (oneSlot statusDone).inAt 0 1 = some 0xA5#8 := ⟨inv_oneSlot (by decide) _ _, ready_oneSlot rfl, rfl, rfl⟩

theorem witness_MaskedReadKindsDecodeWithoutFail :
    (Inv (oneSlot packetTypeDone) ∧ Ready (oneSlot packetTypeDone) 0 packetTypeDone ∧
      packetTypeDone.kind = .getPacketType ∧ (oneSlot packetTypeDone).inAt 0 2 = some 0xFD#8) ∧
    (Inv (oneSlot irqDone) ∧ Ready (oneSlot irqDone) 0 irqDone ∧ irqDone.kind = .getIrqStatus ∧
      (oneSlot irqDone).inAt 0 2 = some 0x02#8 ∧ (oneSlot irqDone).inAt 0 3 = some 0x01#8) ∧
    Inv (oneSlot errorsDone) ∧ Ready (oneSlot errorsDone) 0 errorsDone ∧ errorsDone.kind = .getDeviceErrors ∧
    (oneSlot errorsDone).inAt 0 2 = some 0x00#8 ∧ (oneSlot errorsDone).inAt 0 3 = some 0x20#8 :=
  ⟨⟨inv_oneSlot (by decide) _ _, ready_oneSlot rfl, rfl, rfl⟩,
    ⟨inv_oneSlot (by decide) _ _, ready_oneSlot rfl, rfl, rfl, rfl⟩,
    inv_oneSlot (by decide) _ _, ready_oneSlot rfl, rfl, rfl, rfl⟩

theorem witness_CountersDecodeAsBigEndianNaturals :
    (Inv (oneSlot rxDone) ∧ Ready (oneSlot rxDone) 0 rxDone ∧ rxDone.kind = .getRxBufferStatus ∧
      (oneSlot rxDone).inAt 0 2 = some 0x05#8 ∧ (oneSlot rxDone).inAt 0 3 = some 0x80#8) ∧
    Inv (oneSlot statsDone) ∧ Ready (oneSlot statsDone) 0 statsDone ∧ statsDone.kind = .getStatsLora ∧
    (oneSlot statsDone).inAt 0 2 = some 0x01#8 ∧ (oneSlot statsDone).inAt 0 3 = some 0x02#8 ∧
    (oneSlot statsDone).inAt 0 4 = some 0x00#8 ∧ (oneSlot statsDone).inAt 0 5 = some 0x03#8 ∧
    (oneSlot statsDone).inAt 0 6 = some 0xFF#8 ∧ (oneSlot statsDone).inAt 0 7 = some 0xFF#8 :=
  ⟨⟨inv_oneSlot (by decide) _ _, ready_oneSlot rfl, rfl, rfl, rfl⟩,
    inv_oneSlot (by decide) _ _, ready_oneSlot rfl, rfl, rfl, rfl, rfl, rfl, rfl, rfl⟩

theorem witness_EveryAccessorOfACompletedFixedSlotReturns :
    Inv (oneSlot statusDone) ∧ Ready (oneSlot statusDone) 0 statusDone ∧ statusDone.phase = .done ∧
    (fixedCap statusDone.kind).isSome = true ∧ accessorApplies .chipMode statusDone.kind = true :=
  ⟨inv_oneSlot (by decide) _ _, ready_oneSlot rfl, rfl, rfl, rfl⟩

theorem witness_ReadBacksReadOnlyOut :
    Inv (oneSlot setTxSlot) ∧ Ready (oneSlot setTxSlot) 0 setTxSlot ∧ accessorApplies .timeout setTxSlot.kind = true ∧
    isReadBack setTxSlot.kind .timeout = true := ⟨inv_oneSlot (by decide) _ _, ready_oneSlot rfl, rfl, rfl⟩

theorem witness_DecodingBeforeATransferFaults :
    (Inv (oneSlot statusBuilt) ∧ Ready (oneSlot statusBuilt) 0 statusBuilt ∧ statusBuilt.phase = .built ∧
      accessorApplies .status statusBuilt.kind = true ∧ isReadBack statusBuilt.kind .status = false ∧
      firstIndexRead defaultLayout .status = some 1) ∧
    Inv (oneSlot { readSlot with dlen := some 1 }) ∧
    Ready (oneSlot { readSlot with dlen := some 1 }) 0 { readSlot with dlen := some 1 } ∧
    accessorApplies .data readSlot.kind = true ∧ isReadBack readSlot.kind .data = false ∧
    firstIndexRead defaultLayout .data = some 3 ∧ { readSlot with dlen := some 1 }.dlen ≠ some 0 :=
  ⟨⟨inv_oneSlot (by decide) _ _, ready_oneSlot rfl, rfl, rfl, rfl, rfl⟩, inv_oneSlot (by decide) _ _,
    ready_oneSlot rfl, rfl, rfl, rfl, by decide⟩

theorem witness_NoAccessorDependsOnInboundZero : layoutOk defaultConfig.layout = true ∧ layoutOk otherConfig.layout = true := by
  decide

theorem witness_CommonChecksInTheirOrder :
    (oneSlot setTxFlying).fault = none ∧ opSlot (.setDlen 0 1) = some 0 ∧ opName (.setDlen 0 1) = some .setDlen ∧
    (oneSlot setTxFlying).slotAt 1 = none ∧
    opSlot (.access 1 .chipMode) = some 1 ∧ (oneSlot setTxFlying).slotAt 0 = some setTxFlying ∧
    opApplies setTxFlying.kind (.setDlen 0 1) = false ∧ opApplies setTxFlying.kind (.tlen 0) = true ∧
    setTxFlying.phase.isInFlight = true ∧
    ((.timeout, [.setRx, .setTx]) ∈ accessorTable ∧ setTxFlying.kind ∈ [Kind.setRx, .setTx]) ∧
    (.sf, [.setModulationParamsLora]) ∈ accessorTable ∧ setTxFlying.kind ∉ [Kind.setModulationParamsLora] := by decide

theorem witness_NothingRunsAfterAFault :
    { State.reset with fault := some ⟨.noSlot, some 7, .nothing⟩ }.fault = some ⟨.noSlot, some 7, .nothing⟩ := rfl

theorem witness_FaultEntryIsPrecise :
    ∃ t, step { oneSlot statusDone with inputs := [.host (.tlen 5)] } = .next t ∧
      t.fault = some ⟨.noSlot, some 5, .nothing⟩ := ⟨_, rfl, rfl⟩

/-- For StepKeepsTheInvariant and NoStepChangesTheConfiguration: a legal state that has a step. -/
theorem witness_StepKeepsTheInvariant :
    Inv { oneSlot setTxSlot with inputs := [.host (.submit 0)] } ∧
    ∃ t, step { oneSlot setTxSlot with inputs := [.host (.submit 0)] } = .next t :=
  ⟨inv_oneSlot (by decide) _ _, _, rfl⟩

/-- For the statement on frames: a step that is neither a completion nor a SET_DLEN, one that is a completion, and one that is a
SET_DLEN. -/
theorem witness_FramesNeverChangeAndOnlyCompletionWritesIn :
    (Inv { oneSlot setTxSlot with inputs := [.host (.submit 0)] } ∧
      ∃ t b, step { oneSlot setTxSlot with inputs := [.host (.submit 0)] } = .next t ∧ t.slotAt 0 = some b ∧
        (∀ bytes rest, ([.host (.submit 0)] : List Event) ≠ .complete 0 bytes :: rest) ∧
        ∀ n rest, ([.host (.submit 0)] : List Event) ≠ .host (.setDlen 0 n) :: rest) ∧
    (Inv { oneSlot helloSlot with inputs := [.host (.setDlen 0 3)] } ∧
      ∃ t b, step { oneSlot helloSlot with inputs := [.host (.setDlen 0 3)] } = .next t ∧ t.slotAt 0 = some b) ∧
    Inv { oneSlot setTxFlying with inputs := [.complete 0 [1#8, 2#8, 3#8, 4#8]] } ∧
    ∃ t b, step { oneSlot setTxFlying with inputs := [.complete 0 [1#8, 2#8, 3#8, 4#8]] } = .next t ∧ t.slotAt 0 = some b :=
  ⟨⟨inv_oneSlot (by decide) _ _, _, _, rfl, rfl, by simp, by simp⟩, ⟨inv_oneSlot (by decide) _ _, _, _, rfl, rfl⟩,
    inv_oneSlot (by decide) _ _, _, _, rfl, rfl⟩

/-- A construction (no slot before), a submission and a completion. -/
theorem witness_PhaseChangesOnlyAsTheLifecycleSays :
    (∃ t b, step { oneSlot setTxSlot with inputs := [.host (.construct .getStatus)] } = .next t ∧
      (oneSlot setTxSlot).slotAt 1 = none ∧ t.slotAt 1 = some b) ∧
    (∃ t b, step { oneSlot setTxSlot with inputs := [.host (.submit 0)] } = .next t ∧
      (oneSlot setTxSlot).slotAt 0 = some setTxSlot ∧ t.slotAt 0 = some b) ∧
    Inv { oneSlot setTxSlot with inputs := [.host (.construct .getStatus)] } :=
  ⟨⟨_, _, rfl, rfl, rfl⟩, ⟨_, _, rfl, rfl, rfl⟩, inv_oneSlot (by decide) _ _⟩

theorem witness_SlotsAreIndependent :
    Inv { oneSlot statusDone with inputs := [.host (.construct .getStatus)] } ∧
    (∃ t, step { oneSlot statusDone with inputs := [.host (.construct .getStatus)] } = .next t) ∧
    eventSlot (.host (.construct .getStatus)) ≠ some 0 ∧ (oneSlot statusDone).slotAt 0 = some statusDone :=
  ⟨inv_oneSlot (by decide) _ _, ⟨_, rfl⟩, by decide, rfl⟩

theorem witness_HandlesAreNeverReused :
    (∃ t, step { State.reset with nextHandle := 1, inputs := [.host (.construct .getStatus)] } = .next t) ∧
    0 < { State.reset with nextHandle := 1 }.nextHandle ∧ { State.reset with nextHandle := 1 }.slotAt 0 = none :=
  ⟨⟨_, rfl⟩, by decide, rfl⟩

theorem witness_StepRunsTheDecodedInstruction :
    State.reset.fault = none ∧
    { State.reset with inputs := [.host (.constructFrame setTxFrame)] }.inputs = .host (.constructFrame setTxFrame) :: [] ∧
    decode State.reset.config setTxFrame = .ok (.setTx 1) ∧ Instr.wellFormed State.reset.config (.setTx 1) = true := by
  decide

theorem witness_StepRunsTheNextEvent :
    State.reset.fault = none ∧ State.reset.inputs = [] ∧
    (∃ t, { oneSlot statusDone with inputs := [.host (.tlen 0)] }.inputs = .host (.tlen 0) :: [] ∧
      runHostOp (.tlen 0) { oneSlot statusDone with inputs := [.host (.tlen 0)] } = .next t ∧ t.fault = none) ∧
    (∃ t, complete 0 [1#8, 2#8, 3#8, 4#8] { oneSlot setTxFlying with inputs := [.complete 0 [1#8, 2#8, 3#8, 4#8]] } =
      .next t ∧ t.fault = none) ∧
    Inv { oneSlot statusDone with inputs := [.complete 0 [0#8, 0#8]] } ∧
    finished { oneSlot statusDone with inputs := [.complete 0 [0#8, 0#8]] } = true :=
  ⟨rfl, rfl, ⟨_, rfl, rfl, rfl⟩, ⟨_, rfl, rfl⟩, inv_oneSlot (by decide) _ _, rfl⟩

/-- 70_reset_and_hazards.md R478: completions left do not keep a run going, a slot in flight or a host operation does, a fault
ends it. -/
theorem test_finished :
    finished { oneSlot setTxSlot with inputs := [.complete 0 [1#8, 2#8, 3#8, 4#8]] } = true ∧
    finished (oneSlot setTxFlying) = false ∧
    finished { oneSlot setTxSlot with inputs := [.complete 0 [], .host (.drop 0)] } = false ∧
    finished { oneSlot setTxFlying with inputs := [.host (.drop 0)], fault := some ⟨.noSlot, some 5, .nothing⟩ } = true := by
  decide

/-- A type under each order convention, its second entry a field; a reserved entry under each; bits at the ends of them. -/
theorem witness_FieldOffsetsFollowTheDeclaredOrder :
    (bfTypeOk typeTL = true ∧ typeTL.decl = [.field (.other 0) 3 .uint] ++ .field (.other 1) 5 .uint :: []) ∧
    (bfTypeOk typeTM = true ∧ typeTM.decl = [.field (.other 0) 3 .uint] ++ .field (.other 1) 5 .uint :: []) ∧
    (bfTypeOk sleepConfigType = true ∧
      sleepConfigType.decl = [flagEntry .rtcWakeup] ++ .reserved 1 :: [flagEntry .warmStart, .reserved 5] ∧
      ([flagEntry .rtcWakeup].map entryWidth).sum ≤ 1 ∧ 1 < ([flagEntry .rtcWakeup].map entryWidth).sum + 1) ∧
    (bfTypeOk ⟨8, .msbFirst, [flagEntry .txDone, .reserved 7]⟩ = true ∧
      8 - (([flagEntry .txDone].map entryWidth).sum + 7) ≤ 0 ∧ 6 < 8 - ([flagEntry .txDone].map entryWidth).sum) ∧
    fieldPlace typeTL (.other 1) = some ⟨5, .uint, 3⟩ := by decide

theorem witness_WithSetsOneFieldAndKeepsTheRest :
    (bfTypeOk typeTM = true ∧ isBFValue typeTM 0xFF = true ∧ fieldPlace typeTM (.other 0) = some ⟨3, .uint, 5⟩) ∧
    bfTypeOk sleepConfigType = true ∧ isBFValue sleepConfigType 5 = true ∧
    fieldPlace sleepConfigType .warmStart = some ⟨1, .bool, 2⟩ := by decide

/-- Also for FromRawClearsExactlyTheReservedBits. -/
theorem witness_BitfieldRoundTrip :
    bfTypeOk typeTL = true ∧
    ([((.other 1 : FieldName), FieldVal.uint 31), (.other 0, .uint 7)].map Prod.fst).Perm (fieldNames typeTL.decl) ∧
    ∀ fx ∈ [((.other 1 : FieldName), FieldVal.uint 31), (.other 0, .uint 7)],
      ∃ p, fieldPlace typeTL fx.1 = some p ∧ fitsField p fx.2 := by
  refine ⟨by decide, by decide, ?_⟩
  intro fx hfx
  simp only [List.mem_cons, List.not_mem_nil, or_false] at hfx
  rcases hfx with rfl | rfl
  · exact ⟨⟨5, .uint, 3⟩, by decide, rfl, by decide⟩
  · exact ⟨⟨3, .uint, 0⟩, by decide, rfl, by decide⟩

theorem witness_EnumDecodingMasksToTheWidth :
    enumWidthsOk defaultEnumWidths = true ∧ memberOk defaultEnumWidths (.spreadingFactor (.reserved 0x0F#8)) = true ∧
    (0x17#8).toNat % 2 ^ enumWidth defaultEnumWidths .spreadingFactor =
      (0x07#8).toNat % 2 ^ enumWidth defaultEnumWidths .spreadingFactor := by decide

/-- For PrintedMembersHaveThePrintedCodes: the default widths, and wider ones. -/
theorem witness_PrintedMembersHaveThePrintedCodes :
    enumWidthsOk defaultEnumWidths = true ∧ enumWidthsOk { defaultEnumWidths with standbyConfig := 8, bandwidth := 5 } = true ∧
    (.bandwidth .bw41, 0x0A) ∈ enumCodeTable ∧ memberOk defaultConfig.enumWidths (.invertIq .inverted) = true := by decide

/-- A two-valued type whose byte 0x55 stands for value 1, every other byte for value 0. -/
def twoValued : RegConv := .table [0xAA#8, 0x55#8] (List.replicate 85 0 ++ [1] ++ List.replicate 170 0)

theorem witness_RegisterRoundTrip :
    (regConvOk .plain = true ∧ isRegValue .plain 255 = true) ∧
    (regConvOk (.bits sleepConfigType) = true ∧ isRegValue (.bits sleepConfigType) 5 = true) ∧
    regConvOk twoValued = true ∧ isRegValue twoValued 1 = true :=
  ⟨by decide, by decide, by decide +kernel, by decide +kernel⟩

theorem witness_PureFunctionsReturnAndTouchNothing :
    { State.reset with config := registerConfig }.fault = none ∧ bfTypeOk typeTL = true ∧ isBFValue typeTL 0x58 = true ∧
    fieldPlace typeTL (.other 1) = some ⟨5, .uint, 3⟩ ∧ fieldValOk .uint (.uint 0x2B) = true ∧
    memberOk registerConfig.enumWidths (.bandwidth .bw41) = true ∧
    (⟨0x0740#16, .plain⟩ : RegType) ∈ registerConfig.regSet ∧ isRegValue .plain 255 = true := by decide

end Sys2Proof.Tests
end

namespace Sys2Proof.Machine

/-! ## Legal slots stay legal -/

/-- A transfer covers every cell that a completion must write. -/
theorem alwaysReceived_le_transferLength (sl : Slot) : alwaysReceived sl ≤ sl.transferLength := by
  unfold alwaysReceived Slot.transferLength
  cases headerBytes sl.kind <;> simp

/-- SUBMIT keeps a slot legal: XLEN is captured as the transfer length (41_command_contract.md R210). -/
theorem slotInv_submitted {sl : Slot} (hi : SlotInv sl) :
    SlotInv { sl with xlen := sl.transferLength, phase := .inFlight } :=
  { hi with
    xlen_is_tlen := fun _ => rfl
    xlen_bound := transferLength_le hi
    built_unwritten := fun h => nomatch h
    done_written := fun h => nomatch h }

/-- SET_DLEN within its bound keeps a slot legal; the slot is not in flight, so XLEN need not follow DLEN. -/
theorem slotInv_resized {sl : Slot} {n hdr : Nat} (hi : SlotInv sl) (hp : sl.phase.isInFlight = false)
    (hh : headerBytes sl.kind = some hdr) (hn : n + hdr ≤ sl.cap) : SlotInv { sl with dlen := some n } :=
  { hi with
    dlen_variable := fun hdr' h => by
      cases hh.symm.trans h
      exact ⟨n, rfl, hn⟩
    dlen_fixed := fun h => by cases hh.symm.trans h
    xlen_is_tlen := fun h => by
      have hfly : sl.phase = .inFlight := h
      rw [hfly] at hp
      cases hp }

/-- A completion keeps a slot legal: its XLEN bytes lie within CAP and cover what must be received
(41_command_contract.md R211). -/
theorem slotInv_completed {sl : Slot} {bytes : List Byte} (hi : SlotInv sl) (hp : sl.phase = .inFlight)
    (hl : bytes.length = sl.xlen) : SlotInv { sl with inb := Memory.writeFrom sl.inb 0 bytes, phase := .done } :=
  { hi with
    in_canonical := memory_wf_writeFrom 0 bytes hi.in_canonical
    in_bound := fun c hc => by
      rcases mem_writeFrom hc with hold | ⟨-, hnew⟩
      · exact hi.in_bound c hold
      · have hle := hi.xlen_bound
        simp only
        omega
    xlen_is_tlen := fun h => nomatch h
    built_unwritten := fun h => nomatch h
    done_written := fun _ i hlt => by
      have hcover := alwaysReceived_le_transferLength sl
      have hx := hi.xlen_is_tlen hp
      have hreceived : i < alwaysReceived sl := hlt
      have hwritten : i < bytes.length := by omega
      simp [memory_read_writeFrom, hwritten] }

/-- A legal slot has no cell at or above its capacity. -/
theorem read_inb_of_cap_le {sl : Slot} {i : Nat} (hi : SlotInv sl) (hle : sl.cap ≤ i) : Memory.read sl.inb i = none := by
  cases hr : Memory.read sl.inb i with
  | none => rfl
  | some b => exact absurd (hi.in_bound _ (mem_of_get hr)) (Nat.not_lt.mpr hle)

/-! ## Legal states stay legal -/

/-- A slot that a handle names was given that handle. -/
theorem handle_used {s : State} {h : Handle} {sl : Slot} (hi : Inv s) (hs : s.slotAt h = some sl) : h < s.nextHandle :=
  hi.handles_used _ (mem_of_get hs)

/-- A legal slot put at a used handle leaves a legal state. -/
theorem inv_setSlot {s : State} {h : Handle} {sl : Slot} (hi : Inv s) (hu : h < s.nextHandle) (hsl : SlotInv sl) :
    Inv (s.setSlot h sl) where
  config_ok := hi.config_ok
  slots_sorted := sorted_put h sl hi.slots_sorted
  handles_used := fun p hp => by
    rcases mem_put hp with rfl | hp
    · exact hu
    · exact hi.handles_used p hp
  slots_ok := fun p hp => by
    rcases mem_put hp with rfl | hp
    · exact hsl
    · exact hi.slots_ok p hp

theorem inv_eraseSlot {s : State} (h : Handle) (hi : Inv s) : Inv (s.eraseSlot h) where
  config_ok := hi.config_ok
  slots_sorted := sorted_erase h hi.slots_sorted
  handles_used := fun p hp => hi.handles_used p (mem_erase hp)
  slots_ok := fun p hp => hi.slots_ok p (mem_erase hp)

/-- Counting a used handle keeps every handle used. -/
theorem inv_bumpHandle {s : State} (hi : Inv s) : Inv s.bumpHandle :=
  { hi with handles_used := fun p hp => Nat.lt_succ_of_lt (hi.handles_used p hp) }

/-- A construction puts a legal slot at the least unused handle, which counts as used from then on. -/
theorem inv_constructed {s : State} {sl : Slot} (hi : Inv s) (hsl : SlotInv sl) : Inv (constructed s sl) :=
  { inv_setSlot (inv_bumpHandle hi) (Nat.lt_succ_self s.nextHandle) hsl with }

/-- Retiring an event changes no field that the invariant speaks of. -/
theorem inv_retireState {t : State} (e : Event) (rest : List Event) (hi : Inv t) : Inv (retireState e rest t) := by
  cases e <;> exact { hi with }

/-- Every effect of an event keeps the invariant. -/
theorem effect_keeps_inv {s t : State} {e : Event} (he : Effect s e t) (hi : Inv s) : Inv t := by
  cases he with
  | raised _ r => exact { hi with }
  | returned op v => exact { hi with }
  | constructed op sl hb hsl => exact inv_constructed hi hsl
  | submitted h sl hs hp =>
    exact { inv_setSlot hi (handle_used hi hs) (slotInv_submitted (slotInv_of_slotAt hi hs)) with }
  | resized h n hdr sl hs hp hh hn =>
    exact inv_setSlot hi (handle_used hi hs) (slotInv_resized (slotInv_of_slotAt hi hs) hp hh hn)
  | dropped h sl hs hp => exact inv_eraseSlot h hi
  | completed h bytes sl hs hp hl =>
    exact inv_setSlot hi (handle_used hi hs) (slotInv_completed (slotInv_of_slotAt hi hs) hp hl)

/-- Every step keeps the invariant. -/
theorem step_keeps_inv {s t : State} (hi : Inv s) (h : step s = .next t) : Inv t := by
  obtain ⟨-, e, rest, -, ⟨r, rfl⟩ | ⟨u, he, -, rfl⟩⟩ := step_next h
  · exact { hi with }
  · exact inv_retireState e rest (effect_keeps_inv he hi)

/-- Settles O20: a step keeps the invariant, and the slots of a legal state are legal. -/
theorem buffersHaveCapBytesAndTheOpcode : Obligations.BuffersHaveCapBytesAndTheOpcode := by
  intro s t h sl hi hstep hs
  have hsl : SlotInv sl := slotInv_of_slotAt (step_keeps_inv hi hstep) hs
  refine ⟨hsl.out_length, memory_cells_length _ _, fun i hle => ?_, ?_⟩
  · simpa [State.inAt, hs] using read_inb_of_cap_le hsl hle
  · rw [← List.head?_eq_getElem?]
    exact hsl.out_opcode

/-! ## The configuration -/

/-- No effect of an event writes the configuration. -/
theorem effect_config {s t : State} {e : Event} (he : Effect s e t) : t.config = s.config := by
  cases he with
  | raised | returned | constructed | submitted | resized | dropped | completed => rfl

/-- Settles O45: neither an event's effect nor its retirement nor a fault entry writes the configuration. -/
theorem noStepChangesTheConfiguration : Obligations.NoStepChangesTheConfiguration := by
  intro s t h
  obtain ⟨-, e, rest, -, ⟨r, rfl⟩ | ⟨u, he, -, rfl⟩⟩ := step_next h
  · exact setFault_config s r
  · exact (retireState_config e rest u).trans (effect_config he)

end Sys2Proof.Machine

namespace Sys2Proof.Machine

/-! ## The opcode table -/

/-- Every printed row gives the model's opcode, outbound length and header of its kind. -/
theorem opcodeTableR110_row_eq :
    ∀ row ∈ opcodeTableR110,
      (opcodeOf row.1).toNat = row.2.1 ∧ fixedCap row.1 = row.2.2.1 ∧ headerBytes row.1 = row.2.2.2 := by
  decide

/-- The printed table leaves no kind out. -/
theorem mem_opcodeTableR110_kinds (k : Kind) : k ∈ opcodeTableR110.map Prod.fst := by
  cases k <;> decide

/-- The frame shape of every instruction, from the law of each. -/
theorem frameShape : ∀ i : Instr, Laws.FrameShape.Statement i
  | .resetStats => Laws.FrameShape.resetStats
  | .clearIrqStatus mask => Laws.FrameShape.clearIrqStatus mask
  | .setStandby c => Laws.FrameShape.setStandby c
  | .setRx n => Laws.FrameShape.setRx n
  | .setTx n => Laws.FrameShape.setTx n
  | .setSleep n => Laws.FrameShape.setSleep n
  | .setRfFrequency n => Laws.FrameShape.setRfFrequency n
  | .setPacketType p => Laws.FrameShape.setPacketType p
  | .setModulationParamsLora sf bw cr l => Laws.FrameShape.setModulationParamsLora sf bw cr l
  | .setPacketParams p ht n crc iq => Laws.FrameShape.setPacketParams p ht n crc iq
  | .setTxParams p r => Laws.FrameShape.setTxParams p r
  | .setBufferBaseAddress t r => Laws.FrameShape.setBufferBaseAddress t r
  | .writeRegister a b => Laws.FrameShape.writeRegister a b
  | .writeBuffer cap off data => Laws.FrameShape.writeBuffer cap off data
  | .getStatus => Laws.FrameShape.getStatus
  | .getPacketType => Laws.FrameShape.getPacketType
  | .getIrqStatus => Laws.FrameShape.getIrqStatus
  | .getRxBufferStatus => Laws.FrameShape.getRxBufferStatus
  | .getPacketStatusLora => Laws.FrameShape.getPacketStatusLora
  | .getDeviceErrors => Laws.FrameShape.getDeviceErrors
  | .readRegister n => Laws.FrameShape.readRegister n
  | .readBuffer cap off => Laws.FrameShape.readBuffer cap off
  | .clearDeviceErrors => Laws.FrameShape.clearDeviceErrors
  | .setDioIrqParams m a b c => Laws.FrameShape.setDioIrqParams m a b c
  | .getStatsLora => Laws.FrameShape.getStatsLora
  | .setLoraSymbNumTimeout n => Laws.FrameShape.setLoraSymbNumTimeout n
  | .setDio2AsRfSwitchCtrl e => Laws.FrameShape.setDio2AsRfSwitchCtrl e
  | .setDio3AsTcxoCtrl v d => Laws.FrameShape.setDio3AsTcxoCtrl v d

/-- A variable frame always holds its header, whatever capacity its constructor names (44_variable_commands.md R331, R340). -/
theorem headerBytes_le_encode_length (cfg : Config) {i : Instr} {hdr : Nat} (h : headerBytes (kindOf i) = some hdr) :
    hdr ≤ (encode cfg i).length := by
  cases i with
  | writeBuffer cap off data =>
    cases h
    exact Nat.le_add_left 2 data.length
  | readBuffer cap off =>
    cases h
    exact Nat.le_add_left 3 (dummies (cap - 3)).length
  | _ => cases h

/-- Settles O3: the table row by row and kind by kind, the frames by the law of each instruction and the header lemma. -/
theorem opcodeTableIsTheTableOfR110 : Obligations.OpcodeTableIsTheTableOfR110 := by
  refine ⟨opcodeTableR110_row_eq, mem_opcodeTableR110_kinds, rfl, fun cfg i hwf => ?_⟩
  obtain ⟨hhead, hfixed, -, -⟩ := frameShape i cfg hwf
  exact ⟨hhead, hfixed, fun _ => headerBytes_le_encode_length cfg⟩

end Sys2Proof.Machine

namespace Sys2Proof.Machine

/-! ## Every placed entry, and its offset under each order convention -/

/-- Placing gives every declared entry an offset and changes no entry. -/
theorem map_fst_placeLsb (lo : Nat) (es : List BFEntry) : (placeLsb lo es).map Prod.fst = es := by
  induction es generalizing lo with
  | nil => rfl
  | cons e es ih => simp [placeLsb, ih]

theorem map_fst_placeMsb (hi : Nat) (es : List BFEntry) : (placeMsb hi es).map Prod.fst = es := by
  induction es generalizing hi with
  | nil => rfl
  | cons e es ih => simp [placeMsb, ih]

theorem map_fst_placed (T : BFType) : (placed T).map Prod.fst = T.decl := by
  unfold placed
  split
  · exact map_fst_placeLsb 0 T.decl
  · exact map_fst_placeMsb T.width T.decl

/-- An entry lies above the entries before it when the first is lowest. -/
theorem mem_placeLsb_append (lo : Nat) (before : List BFEntry) (e : BFEntry) (after : List BFEntry) :
    (e, lo + (before.map entryWidth).sum) ∈ placeLsb lo (before ++ e :: after) := by
  induction before generalizing lo with
  | nil => exact List.mem_cons_self
  | cons d ds ih =>
    rw [List.map_cons, List.sum_cons, ← Nat.add_assoc]
    exact List.mem_cons_of_mem _ (ih _)

/-- An entry lies below the entries before it when the first is highest. -/
theorem mem_placeMsb_append (hi : Nat) (before : List BFEntry) (e : BFEntry) (after : List BFEntry) :
    (e, hi - ((before.map entryWidth).sum + entryWidth e)) ∈ placeMsb hi (before ++ e :: after) := by
  induction before generalizing hi with
  | nil => simp [placeMsb]
  | cons d ds ih =>
    rw [List.map_cons, List.sum_cons, Nat.add_assoc, ← Nat.sub_sub]
    exact List.mem_cons_of_mem _ (ih _)

theorem mem_placed_lsbFirst {T : BFType} {before after : List BFEntry} {e : BFEntry} (ho : T.order = .lsbFirst)
    (hd : T.decl = before ++ e :: after) : (e, (before.map entryWidth).sum) ∈ placed T := by
  simpa [placed, ho, hd] using mem_placeLsb_append 0 before e after

theorem mem_placed_msbFirst {T : BFType} {before after : List BFEntry} {e : BFEntry} (ho : T.order = .msbFirst)
    (hd : T.decl = before ++ e :: after) :
    (e, T.width - ((before.map entryWidth).sum + entryWidth e)) ∈ placed T := by
  simpa [placed, ho, hd] using mem_placeMsb_append T.width before e after

/-! ## A field is found where it is placed -/

theorem mem_fieldNames {decl : List BFEntry} {f : FieldName} {w : Nat} {ty : FieldType}
    (h : BFEntry.field f w ty ∈ decl) : f ∈ fieldNames decl :=
  List.mem_filterMap.mpr ⟨_, h, rfl⟩

/-- With distinct names, the first entry of a name is the only one. -/
theorem findField_of_mem {ps : List (BFEntry × Nat)} {f : FieldName} {w off : Nat} {ty : FieldType}
    (hn : (fieldNames (ps.map Prod.fst)).Nodup) (h : (BFEntry.field f w ty, off) ∈ ps) :
    findField f ps = some ⟨w, ty, off⟩ := by
  induction ps with
  | nil => cases h
  | cons q ps ih =>
    obtain ⟨e, o⟩ := q
    cases e with
    | field n w' ty' =>
      obtain ⟨hnotin, hn⟩ := List.nodup_cons.mp (show (n :: fieldNames (ps.map Prod.fst)).Nodup from hn)
      rcases List.mem_cons.mp h with heq | h
      · cases heq
        simp [findField]
      · have hne : n ≠ f := by
          rintro rfl
          exact hnotin (mem_fieldNames (List.mem_map_of_mem h))
        rw [findField, if_neg hne]
        exact ih hn h
    | reserved w' =>
      have h : (BFEntry.field f w ty, off) ∈ ps := by simpa using h
      exact ih hn h

/-- The field names of a legal type are distinct. -/
theorem bfTypeOk_nodup {T : BFType} (hT : bfTypeOk T = true) : (fieldNames T.decl).Nodup := by
  simp only [bfTypeOk, Bool.and_eq_true, decide_eq_true_eq] at hT
  exact hT.1.2

/-- Every entry of a legal type is legal. -/
theorem bfTypeOk_entryOk {T : BFType} (hT : bfTypeOk T = true) {e : BFEntry} (he : e ∈ T.decl) : entryOk e = true := by
  simp only [bfTypeOk, Bool.and_eq_true, List.all_eq_true] at hT
  exact hT.1.1.2 e he

/-- The place of a field, said by membership: the converse of `fieldPlace_mem`. -/
theorem fieldPlace_of_mem {T : BFType} (hT : bfTypeOk T = true) {f : FieldName} {w off : Nat} {ty : FieldType}
    (h : (BFEntry.field f w ty, off) ∈ placed T) : fieldPlace T f = some ⟨w, ty, off⟩ :=
  findField_of_mem (by rw [map_fst_placed]; exact bfTypeOk_nodup hT) h

/-- A Boolean field is one bit wide (40_bitfield_codec.md R141). -/
theorem fieldPlace_bool_width {T : BFType} (hT : bfTypeOk T = true) {f : FieldName} {p : FieldPlace}
    (hf : fieldPlace T f = some p) (hb : p.ty = .bool) : p.width = 1 := by
  have hmem : BFEntry.field f p.width p.ty ∈ T.decl := by
    rw [← map_fst_placed T]
    exact List.mem_map_of_mem (fieldPlace_mem hf)
  simpa [entryOk, hb] using bfTypeOk_entryOk hT hmem

/-- No bit at or above the width is reserved. -/
theorem testBit_reservedMask_of_width_le {T : BFType} (hT : bfTypeOk T = true) {i : Nat} (hi : T.width ≤ i) :
    (reservedMask T).testBit i = false := by
  rw [← Bool.not_eq_true, testBit_reservedMask]
  rintro ⟨w, off, hmem, -, hlt⟩
  have hin : off + w ≤ T.width := placed_within hT hmem
  omega

/-- Settles O52: an entry is placed above or below the widths declared before it, names are distinct, so a field is
found at its own entry; RMASK's bits are those of the placed reserved entries. -/
theorem fieldOffsetsFollowTheDeclaredOrder : Obligations.FieldOffsetsFollowTheDeclaredOrder := by
  intro T before after hT
  refine ⟨fun f wd ty hd => ⟨fun ho => ?_, fun ho => ?_⟩, fun wd i hd => ⟨fun ho hle hlt => ?_, fun ho hle hlt => ?_⟩,
    fun f p i hf hle hlt => testBit_reservedMask_field hT hf hle hlt,
    fun i hi => testBit_reservedMask_of_width_le hT hi⟩
  · exact fieldPlace_of_mem hT (mem_placed_lsbFirst ho hd)
  · exact fieldPlace_of_mem hT (mem_placed_msbFirst ho hd)
  · exact (testBit_reservedMask T i).mpr ⟨wd, _, mem_placed_lsbFirst ho hd, hle, hlt⟩
  · have hmem := mem_placed_msbFirst ho hd
    have hin := placed_within hT hmem
    simp only [entryWidth] at hmem hin
    have hsum := bfTypeOk_sum hT
    rw [hd] at hsum
    simp only [List.map_append, List.map_cons, List.sum_append, List.sum_cons, entryWidth] at hsum
    exact (testBit_reservedMask T i).mpr ⟨wd, _, hmem, hle, by omega⟩

/-! ## BF.GET after BF.WITH -/

/-- `(v >> off) & mask(wd)` as arithmetic (40_bitfield_codec.md R145). -/
theorem getBits_eq (v : Nat) (p : FieldPlace) : getBits v p = v / 2 ^ p.offset % 2 ^ p.width := by
  rw [getBits, maskBits, Nat.and_two_pow_sub_one_eq_mod, Nat.shiftRight_eq_div_pow]

/-- The written field holds the operand truncated to its width. -/
theorem getBits_setBits_same (W v x : Nat) (p : FieldPlace) : getBits (setBits W v p x) p = x % 2 ^ p.width := by
  apply Nat.eq_of_testBit_eq
  intro i
  rw [testBit_getBits, testBit_setBits, Nat.testBit_mod_two_pow]
  by_cases hi : i < p.width <;> simp [hi]

/-- A field that shares no bit with the written one keeps its bits. -/
theorem getBits_setBits_apart {W : Nat} {p q : FieldPlace} (v x : Nat) (hq : q.offset + q.width ≤ W)
    (hapart : p.offset + p.width ≤ q.offset ∨ q.offset + q.width ≤ p.offset) :
    getBits (setBits W v p x) q = getBits v q := by
  apply Nat.eq_of_testBit_eq
  intro i
  rw [testBit_getBits, testBit_getBits, testBit_setBits]
  by_cases hi : i < q.width
  · have hin : q.offset + i < W := by omega
    rw [if_neg (by omega)]
    simp [hin]
  · simp [hi]

theorem bfGet_of_place {T : BFType} {f : FieldName} {p : FieldPlace} (hf : fieldPlace T f = some p) (v : Nat) :
    bfGet T v f = some (natFieldVal p.ty (v / 2 ^ p.offset % 2 ^ p.width)) := by
  rw [bfGet, hf, Option.map_some, getBits_eq]

theorem bfWith_of_place {T : BFType} {f : FieldName} {p : FieldPlace} (hf : fieldPlace T f = some p) (v : Nat)
    (x : FieldVal) : bfWith T v f x = setBits T.width v p (fieldValNat x) := by
  rw [bfWith, hf]

/-- `BF.GET` of the field just set: the operand at the field's width (40_bitfield_codec.md R144, R145). -/
theorem bfGet_bfWith_same {T : BFType} {f : FieldName} {p : FieldPlace} (hf : fieldPlace T f = some p) (v : Nat)
    (x : FieldVal) : bfGet T (bfWith T v f x) f = some (natFieldVal p.ty (fieldValNat x % 2 ^ p.width)) := by
  rw [bfWith_of_place hf, bfGet, hf, Option.map_some, getBits_setBits_same]

/-- `BF.WITH` touches no other field (40_bitfield_codec.md R144). -/
theorem bfGet_bfWith_other {T : BFType} (hT : bfTypeOk T = true) {f g : FieldName} (hne : g ≠ f) (v : Nat)
    (x : FieldVal) : bfGet T (bfWith T v f x) g = bfGet T v g := by
  cases hf : fieldPlace T f with
  | none => rw [bfWith, hf]
  | some p =>
    cases hg : fieldPlace T g with
    | none => rw [bfGet, bfGet, hg]; rfl
    | some q =>
      rw [bfWith_of_place hf, bfGet, bfGet, hg, Option.map_some, Option.map_some,
        getBits_setBits_apart _ _ (fieldPlace_within hT hg) (fieldPlace_apart hT hf hg hne.symm)]

/-- `BF.WITH` of a value is a value: the written bits are the field's, so within the width and not reserved. -/
theorem isBFValue_bfWith {T : BFType} (hT : bfTypeOk T = true) {v : Nat} (hv : isBFValue T v = true) (f : FieldName)
    (x : FieldVal) : isBFValue T (bfWith T v f x) = true := by
  cases hf : fieldPlace T f with
  | none => rwa [bfWith, hf]
  | some p =>
    rw [isBFValue_iff] at hv ⊢
    intro i hi
    rw [bfWith_of_place hf, testBit_setBits] at hi
    split at hi
    next hin =>
      have hwithin := fieldPlace_within hT hf
      exact ⟨by omega, testBit_reservedMask_field hT hf hin.1 hin.2⟩
    next hout =>
      rw [Bool.and_eq_true] at hi
      exact hv i hi.2

/-- Settles O53: the laws of `BF.GET` after `BF.WITH`, read at each field type; a Boolean field is one bit. -/
theorem withSetsOneFieldAndKeepsTheRest : Obligations.WithSetsOneFieldAndKeepsTheRest := by
  intro T v f p n b hT hv hf
  refine ⟨fun hty => ⟨?_, ?_, isBFValue_bfWith hT hv f _, fun g hne => bfGet_bfWith_other hT hne v _⟩,
    fun hty => ⟨?_, ?_, isBFValue_bfWith hT hv f _, fun g hne => bfGet_bfWith_other hT hne v _⟩⟩
  · rw [bfGet_of_place hf, hty, natFieldVal]
  · rw [bfGet_bfWith_same hf, hty, natFieldVal, fieldValNat]
  · rw [bfGet_of_place hf, hty, natFieldVal, fieldPlace_bool_width hT hf hty, Nat.pow_one]
  · rw [bfGet_bfWith_same hf, hty, fieldPlace_bool_width hT hf hty]
    cases b <;> rfl

/-! ## The code of a decoded member -/

/-- The member of a code belongs to the enumeration it was looked up in. -/
@[simp] theorem memberEnum_memberOfCode (E : EnumId) (c : Byte) : memberEnum (memberOfCode E c) = E := by
  cases E <;> rfl

/-- A byte below 8 is its low three bits. -/
theorem and_seven_of_lt {c : Byte} (h : c.toNat < 8) : c &&& 7#8 = c := by
  apply BitVec.eq_of_toNat_eq
  rw [BitVec.toNat_and, show (7#8 : Byte).toNat = 2 ^ 3 - 1 from rfl, Nat.and_two_pow_sub_one_eq_mod, Nat.mod_eq_of_lt h]

/-- Every code within the width has a member, and that member has the code (40_bitfield_codec.md R169). -/
theorem encEnum_memberOfCode {ws : EnumWidths} {E : EnumId} {c : Byte} (h : c.toNat < 2 ^ enumWidth ws E) :
    encEnum (memberOfCode E c) = c := by
  cases E with
  | standbyConfig => exact code_ofCodeStandbyConfig c
  | packetType => exact code_ofCodePacketType c
  | spreadingFactor => exact code_ofCodeSpreadingFactor c
  | bandwidth => exact code_ofCodeBandwidth c
  | codingRate => exact code_ofCodeCodingRate c
  | headerType => exact code_ofCodeHeaderType c
  | invertIq => exact code_ofCodeInvertIq c
  | rampTime => exact code_ofCodeRampTime c
  | tcxoVoltage => exact code_ofCodeTcxoVoltage c
  | chipMode => exact (code_ofCodeChipMode c).trans (and_seven_of_lt h)
  | commandStatus => exact (code_ofCodeCommandStatus c).trans (and_seven_of_lt h)

@[simp] theorem memberEnum_decEnum (ws : EnumWidths) (E : EnumId) (b : Byte) : memberEnum (decEnum ws E b) = E :=
  memberEnum_memberOfCode E _

/-- The decoded member has the masked byte as its code (40_bitfield_codec.md R169). -/
theorem encEnum_decEnum (ws : EnumWidths) (E : EnumId) (b : Byte) :
    (encEnum (decEnum ws E b)).toNat = b.toNat % 2 ^ enumWidth ws E := by
  have hfits : (maskByte (enumWidth ws E) b).toNat < 2 ^ enumWidth ws E := by
    rw [maskByte_toNat]
    exact Nat.mod_lt _ (Nat.two_pow_pos _)
  rw [decEnum, encEnum_memberOfCode hfits, maskByte_toNat]

/-- Bits above the width make no difference to `DEC_ENUM`. -/
theorem decEnum_congr {ws : EnumWidths} {E : EnumId} {b b' : Byte}
    (h : b'.toNat % 2 ^ enumWidth ws E = b.toNat % 2 ^ enumWidth ws E) : decEnum ws E b' = decEnum ws E b := by
  have hmask : maskByte (enumWidth ws E) b' = maskByte (enumWidth ws E) b :=
    BitVec.eq_of_toNat_eq (by rw [maskByte_toNat, maskByte_toNat, h])
  rw [decEnum, decEnum, hmask]

/-- What `DEC_ENUM` returns is a member at the configured width. -/
theorem memberOk_decEnum (ws : EnumWidths) (E : EnumId) (b : Byte) : memberOk ws (decEnum ws E b) = true := by
  rw [memberOk, decide_eq_true_eq, memberEnum_decEnum]
  exact decEnum_congr (by rw [encEnum_decEnum, Nat.mod_mod])

/-- `ENC_ENUM` never truncates: a member decodes back from its code, which is therefore a masked one
(40_bitfield_codec.md R168). -/
theorem encEnum_lt_of_memberOk {ws : EnumWidths} {m : Member} (h : memberOk ws m = true) :
    (encEnum m).toNat < 2 ^ enumWidth ws (memberEnum m) := by
  have hcode := encEnum_decEnum ws (memberEnum m) (encEnum m)
  rw [decEnum_encEnum h] at hcode
  rw [hcode]
  exact Nat.mod_lt _ (Nat.two_pow_pos _)

/-- Settles O57: the masked byte is the decoded member's code, so it alone decides the member; a member's code is one. -/
theorem enumDecodingMasksToTheWidth : Obligations.EnumDecodingMasksToTheWidth := by
  intro ws E b _
  exact ⟨fun m hm => encEnum_lt_of_memberOk hm, memberEnum_decEnum ws E b, encEnum_decEnum ws E b, memberOk_decEnum ws E b,
    fun b' h => decEnum_congr h⟩

end Sys2Proof.Machine

namespace Sys2Proof.Machine

/-! ## The command contract on a slot that passes the checks -/

/-- On a slot that passes the common checks, an operation of its kind goes on with that slot. -/
theorem onSlot_ready {h : Handle} {op : OpName} {applies : Kind → Bool} {s : State} {k : Slot → Result} {sl : Slot}
    (hr : Ready s h sl) (ha : applies sl.kind = true) : onSlot h op applies s k = k sl := by
  obtain ⟨hf, hs, hp⟩ := hr
  exact onSlot_ok hf hs ha hp

theorem opcode_ready {s : State} {h : Handle} {sl : Slot} (hr : Ready s h sl) :
    runHostOp (.opcode h) s = returnValue (.byte (opcodeOf sl.kind)) s :=
  onSlot_ready hr rfl

theorem outbound_ready {s : State} {h : Handle} {sl : Slot} (hr : Ready s h sl) :
    runHostOp (.outbound h) s = returnValue (.bytes sl.out) s :=
  onSlot_ready hr rfl

theorem inbound_ready {s : State} {h : Handle} {sl : Slot} (hr : Ready s h sl) :
    runHostOp (.inbound h) s = returnValue (.cells (Memory.cells sl.inb sl.cap)) s :=
  onSlot_ready hr rfl

theorem tlen_ready {s : State} {h : Handle} {sl : Slot} (hr : Ready s h sl) :
    runHostOp (.tlen h) s = returnValue (.nat sl.transferLength) s :=
  onSlot_ready hr rfl

/-! ## What the slot's fields are -/

/-- Each kind stands in the printed table with the model's opcode. -/
theorem opcodeOf_mem_opcodeTableR110 (k : Kind) :
    (k, (opcodeOf k).toNat) ∈ opcodeTableR110.map (fun row => (row.1, row.2.1)) := by
  obtain ⟨row, hrow, rfl⟩ := List.mem_map.mp (mem_opcodeTableR110_kinds k)
  obtain ⟨hopcode, -, -⟩ := opcodeTableR110_row_eq row hrow
  exact List.mem_map.mpr ⟨row, hrow, by rw [hopcode]⟩

/-- The first outbound byte of a legal slot is its opcode (10_state.md R34). -/
theorem out_getElem?_zero {sl : Slot} (hi : SlotInv sl) : sl.out[0]? = some (opcodeOf sl.kind) := by
  rw [← List.head?_eq_getElem?]
  exact hi.out_opcode

/-- A listed cell is what a read of its index answers. -/
theorem memory_cells_getElem? {n i : Nat} (m : Memory) (hlt : i < n) : (m.cells n)[i]? = some (m.read i) := by
  simp [Memory.cells, hlt]

theorem inAt_of_slotAt {s : State} {h : Handle} {sl : Slot} (hs : s.slotAt h = some sl) (i : Nat) :
    s.inAt h i = Memory.read sl.inb i := by
  simp [State.inAt, hs]

/-- A variable slot transfers its header and DLEN bytes (41_command_contract.md R203). -/
theorem transferLength_variable {sl : Slot} {hdr d : Nat} (hh : headerBytes sl.kind = some hdr)
    (hd : sl.dlen = some d) : sl.transferLength = hdr + d := by
  simp [Slot.transferLength, Slot.dataLength, hh, hd]

/-- A fixed slot transfers its whole capacity (41_command_contract.md R203). -/
theorem transferLength_fixed {sl : Slot} (hh : headerBytes sl.kind = none) : sl.transferLength = sl.cap := by
  simp [Slot.transferLength, hh]

/-- A legal variable slot has the DLEN that its transfer length counts. -/
theorem exists_dlen_transferLength {sl : Slot} {hdr : Nat} (hi : SlotInv sl) (hh : headerBytes sl.kind = some hdr) :
    ∃ d, sl.dlen = some d ∧ sl.transferLength = hdr + d := by
  obtain ⟨d, hd, -⟩ := hi.dlen_variable hdr hh
  exact ⟨d, hd, transferLength_variable hh hd⟩

/-- Only the two buffer kinds are variable (10_state.md R31). -/
theorem headerBytes_eq_none {k : Kind} (hw : k ≠ .writeBuffer) (hr : k ≠ .readBuffer) : headerBytes k = none := by
  cases k with
  | writeBuffer => exact absurd rfl hw
  | readBuffer => exact absurd rfl hr
  | _ => rfl

/-- Settles O19: each operation returns a field of the slot, or the opcode or transfer length they give, and the slot of a
legal state is legal. -/
theorem contractOperationsReturnTheSlotsFields : Obligations.ContractOperationsReturnTheSlotsFields := by
  intro s h sl hi hr
  have ⟨_, hs, _⟩ := hr
  have hsl : SlotInv sl := slotInv_of_slotAt hi hs
  have hlen : (Memory.cells sl.inb sl.cap).length = sl.out.length := by rw [memory_cells_length, hsl.out_length]
  refine ⟨⟨_, opcode_ready hr, opcodeOf_mem_opcodeTableR110 sl.kind, out_getElem?_zero hsl⟩,
    ⟨outbound_ready hr, hsl.out_length⟩,
    ⟨_, inbound_ready hr, hlen, fun i hlt => ?_⟩,
    ⟨_, tlen_ready hr, transferLength_le hsl, fun hw => ?_, fun hb => ?_, fun hw hb => ?_⟩⟩
  · rw [memory_cells_getElem? _ hlt, inAt_of_slotAt hs]
  · exact exists_dlen_transferLength hsl (by rw [hw]; rfl)
  · exact exists_dlen_transferLength hsl (by rw [hb]; rfl)
  · exact transferLength_fixed (headerBytes_eq_none hw hb)

end Sys2Proof.Machine

namespace Sys2Proof.Machine

/-! ## The register conversions -/

/-- A value of a type is below `2^W` (40_bitfield_codec.md R141). -/
theorem lt_of_isBFValue {T : BFType} {v : Nat} (h : isBFValue T v = true) : v < 2 ^ T.width := by
  rw [isBFValue, Bool.and_eq_true, decide_eq_true_eq] at h
  exact h.1

/-- The bitfield type of a register is 8 bits wide (42_register_access.md R230). -/
theorem width_of_regConvOk {T : BFType} (h : regConvOk (.bits T) = true) : T.width = 8 := by
  rw [regConvOk, Bool.and_eq_true, beq_iff_eq] at h
  exact h.2

/-- A legal table decodes each code it lists to that code's index. -/
theorem getD_getD_of_regConvOk {enc : List Byte} {dec : List Nat} {v : Nat} (h : regConvOk (.table enc dec) = true)
    (hv : v < enc.length) : dec.getD (enc.getD v dummyByte).toNat 0 = v := by
  rw [regConvOk, Bool.and_eq_true, List.all_eq_true] at h
  exact beq_iff_eq.mp (h.2 v (List.mem_range.mpr hv))

/-- Decoding undoes encoding (42_register_access.md R231): a value of a plain or bitfield register fits its byte, so the
byte keeps it; a table is checked entry by entry. -/
theorem regDec_regEnc {c : RegConv} {v : Nat} (hc : regConvOk c = true) (hv : isRegValue c v = true) :
    regDec c (regEnc c v) = v := by
  cases c with
  | plain =>
    have hlt : v < 256 := decide_eq_true_eq.mp hv
    rw [regEnc, regDec, byteOf_toNat, Nat.mod_eq_of_lt hlt]
  | bits T =>
    have hlt : v < 256 := by simpa [width_of_regConvOk hc] using lt_of_isBFValue hv
    rw [regEnc, regDec, bfToRaw, byteOf_toNat, Nat.mod_eq_of_lt hlt, bfFromRaw_of_value hv]
  | table enc dec => exact getD_getD_of_regConvOk hc (decide_eq_true_eq.mp hv)

/-- The byte form of `BF.FROM_RAW` on an 8-bit type: the reserved bits are cleared, the others kept
(40_bitfield_codec.md R147). -/
theorem byteOf_bfFromRaw {T : BFType} (hT : T.width = 8) (b : Byte) :
    byteOf (bfFromRaw T b.toNat) = b &&& ~~~(BitVec.ofNat 8 (reservedMask T)) := by
  apply BitVec.eq_of_getLsbD_eq
  intro i hi
  rw [byteOf, BitVec.getLsbD_ofNat, testBit_bfFromRaw, hT, BitVec.testBit_toNat, BitVec.getLsbD_and, BitVec.getLsbD_not,
    BitVec.getLsbD_ofNat]
  simp [hi]

/-- Settles O58: decoding undoes encoding in each form of conversion; the other way round, a plain byte is kept and a
bitfield type clears its reserved bits. -/
theorem registerRoundTrip : Obligations.RegisterRoundTrip :=
  ⟨fun _ _ => regDec_regEnc, byteOf_of_toNat, fun _ b hc => byteOf_bfFromRaw (width_of_regConvOk hc) b⟩

end Sys2Proof.Machine

namespace Sys2Proof.Machine

/-! ## Construction and read-back of a fixed write kind -/

/-- An instruction whose meaning is `CONSTRUCT` completes in an unfaulted state with the slot it names
(70_reset_and_hazards.md R461). -/
theorem constructs_of_exec_eq {i : Instr} {s : State} {k : Kind} {cap : Nat} {frame : List Byte} {dlen : Option Nat}
    (hf : s.fault = none) (he : exec i s = construct k cap frame dlen s) :
    Constructs i s (constructed s (newSlot k cap frame dlen (unspecifiedXlen s.nextHandle cap)))
      (builtSlot k cap frame dlen) := by
  refine ⟨he.trans (construct_eq hf), ⟨_, unspecifiedXlen_le s.nextHandle cap, ?_⟩, fun h hne => ?_,
    rfl, rfl, hf, rfl, rfl, rfl, rfl⟩
  · rw [slotAt_constructed, if_pos rfl]; rfl
  · rw [slotAt_constructed, if_neg hne]

/-- An accessor of a slot that passes the common checks returns what its rule reads, and nothing else changes. -/
theorem reads_of_ready {s : State} {h : Handle} {sl : Slot} {a : Accessor} {v : Value} (hr : Ready s h sl)
    (ha : accessorApplies a sl.kind = true) (hv : readAccessor s.config a sl = .ok v) : Reads s h a v := by
  rw [Reads, access_ready hr ha, hv]
  rfl

/-- All the bytes after the opcode, read as one field. -/
theorem fromOut_body {k : Kind} {cap : Nat} {op : Byte} {body : List Byte} {dlen : Option Nat} {x : Nat}
    (f : List Byte → Value) :
    fromOut (newSlot k cap (op :: body) dlen x) (List.range' 1 body.length) f = .ok (f body) := by
  have hread : ∀ i (hi : i < body.length), (newSlot k cap (op :: body) dlen x).outRead (1 + i) = .ok body[i] := by
    intro i hi
    simp [Slot.outRead, newSlot, Nat.add_comm 1 i, hi]
  rw [fromOut, readAll_range_ok 1 rfl hread]

theorem byteOf_eq_byteNo {m n v : Nat} (h : m % 256 = v / 256 ^ n % 256) : byteOf m = byteNo n v :=
  BitVec.eq_of_toNat_eq (by simpa [byteNo] using h)

/-- A natural narrowed to 24 bits is emitted as its bytes 2, 1 and 0 (30_encoding.md R102, 00_scope.md R9). -/
theorem be24_trunc (v : Nat) : be24 (trunc 24 v) = [byteNo 2 v, byteNo 1 v, byteNo 0 v] := by
  rw [be24, trunc, Nat.shiftRight_eq_div_pow, Nat.shiftRight_eq_div_pow, byteOf_eq_byteNo (n := 2) (v := v) (by omega),
    byteOf_eq_byteNo (n := 1) (v := v) (by omega), byteOf_eq_byteNo (n := 0) (v := v) (by omega)]

/-- A 24-bit operand reads back narrowed. -/
theorem beNat_be24_trunc (v : Nat) : beNat (be24 (trunc 24 v)) = v % 2 ^ 24 := by
  rw [beNat_be24, trunc, Nat.mod_mod]

theorem exec_setTx (timeout : Nat) (s : State) :
    exec (.setTx timeout) s = construct .setTx 4 (frameSetTx timeout) none s := rfl

theorem readAccessor_timeout (cfg : Config) (sl : Slot) :
    readAccessor cfg .timeout sl = fromOut sl (List.range' 1 3) natValue := rfl

/-- Settles O6: SetTx constructs the slot with its frame, whose three bytes after the opcode are the narrowed timeout,
and `timeout()` reads those bytes. -/
theorem setTxEmitsTheTimeoutBigEndian : Obligations.SetTxEmitsTheTimeoutBigEndian := by
  intro s timeout hf
  rw [← be24_trunc]
  refine ⟨_, constructs_of_exec_eq hf (exec_setTx timeout s), reads_of_ready (ready_constructed hf) rfl ?_⟩
  calc readAccessor _ .timeout (newSlot .setTx 4 (0x83#8 :: be24 (trunc 24 timeout)) none _)
    _ = .ok (natValue (be24 (trunc 24 timeout))) := (readAccessor_timeout _ _).trans (fromOut_body natValue)
    _ = .ok (.nat (timeout % 2 ^ 24)) := by rw [natValue, beNat_be24_trunc]

end Sys2Proof.Machine

namespace Sys2Proof.Machine

/-! ## Reading a one-byte decoder -/

/-- A decoder of one inbound byte applies its function to that byte (45_decoders.md R370). -/
theorem fromIn_one {sl : Slot} {i : Nat} {b : Byte} (f : List Byte → Value) (hb : sl.inRead i = .ok b) :
    fromIn sl [i] f = .ok (f [b]) := by
  simp [fromIn, readAll, hb]

/-- On a slot that passes the common checks, a decoder of one byte returns its function of that byte once the byte is
written, and nothing else changes (45_decoders.md R370). -/
theorem reads_one_of_inAt {s : State} {h : Handle} {sl : Slot} {a : Accessor} {i : Nat} {b : Byte}
    (g : Byte → Value) (hi : Inv s) (hr : Ready s h sl) (ha : accessorApplies a sl.kind = true)
    (hread : readAccessor s.config a sl = fromIn sl [i] fun bs => g (theByte bs)) (hb : s.inAt h i = some b) :
    Reads s h a (g b) := by
  have ⟨_, hs, _⟩ := hr
  refine reads_of_ready hr ha ?_
  rw [hread, fromIn_one _ (inRead_of_inAt hi hs hb), theByte_one]

/-! ## RSSI and SNR -/

/-- `sext_8` is the two's-complement reading of the byte (00_scope.md R8). -/
theorem sext8_eq_toInt (b : Byte) : sext8 b = b.toInt := by
  rw [sext8, BitVec.toInt_eq_toNat_cond]
  split <;> split <;> omega

/-- `RSSI` is the negated half of the byte (45_decoders.md R371). -/
theorem rssi_eq (b : Byte) : rssi b = -((b.toNat / 2 : Nat) : Int) := rfl

/-- `SNR` is the signed byte's quotient by 4, truncated (45_decoders.md R372). -/
theorem snr_eq_tdiv (b : Byte) : snr b = Int.tdiv b.toInt 4 := by
  rw [snr, quotInt, sext8_eq_toInt]

theorem rssi_range (b : Byte) : -127 ≤ rssi b ∧ rssi b ≤ 0 := by
  have hb := b.isLt
  rw [rssi_eq]
  omega

/-- Of a non-negative byte, truncation rounds down. -/
theorem snr_of_nonneg {b : Byte} (h : 0 ≤ b.toInt) : 4 * snr b ≤ b.toInt ∧ b.toInt < 4 * snr b + 4 := by
  rw [snr_eq_tdiv, Int.tdiv_eq_ediv_of_nonneg h]
  omega

/-- Of a negative byte, truncation rounds up. -/
theorem snr_of_neg {b : Byte} (h : b.toInt < 0) : b.toInt ≤ 4 * snr b ∧ 4 * snr b < b.toInt + 4 := by
  have hq : Int.tdiv b.toInt 4 = -(-b.toInt / 4) := by
    rw [← Int.tdiv_eq_ediv_of_nonneg (by omega), Int.neg_tdiv, Int.neg_neg]
  rw [snr_eq_tdiv, hq]
  omega

/-- The range of `SNR` follows from that of the signed byte, on either side of 0. -/
theorem snr_range (b : Byte) : -32 ≤ snr b ∧ snr b ≤ 31 := by
  have hrange := sext8_range b
  rw [sext8_eq_toInt] at hrange
  rcases lt_or_ge b.toInt 0 with hneg | hnonneg
  · have htrunc := snr_of_neg hneg
    omega
  · have htrunc := snr_of_nonneg hnonneg
    omega

/-- Settles O30: each accessor reads one byte, at its index, and applies `RSSI` or `SNR` to it. -/
theorem packetStatusDecodesRssiSnrSignalRssi : Obligations.PacketStatusDecodesRssiSnrSignalRssi := by
  intro s h sl b2 b3 b4 hi hr hk
  refine ⟨fun hb => ?_, fun hb => ?_, fun hb => ?_⟩
  · rw [← rssi_eq]
    exact reads_one_of_inAt (fun b => .int (rssi b)) hi hr (by rw [hk]; rfl) rfl hb
  · rw [← snr_eq_tdiv]
    exact reads_one_of_inAt (fun b => .int (snr b)) hi hr (by rw [hk]; rfl) rfl hb
  · rw [← rssi_eq]
    exact reads_one_of_inAt (fun b => .int (rssi b)) hi hr (by rw [hk]; rfl) rfl hb

/-- Settles O29: the two formulas, their ranges, and the rounding of `SNR` toward zero on either side of 0. -/
theorem rssiAndSnrOfEveryByte : Obligations.RssiAndSnrOfEveryByte := by
  intro b
  obtain ⟨hrssi_lo, hrssi_hi⟩ := rssi_range b
  obtain ⟨hsnr_lo, hsnr_hi⟩ := snr_range b
  exact ⟨rssi_eq b, hrssi_lo, hrssi_hi, snr_eq_tdiv b, hsnr_lo, hsnr_hi, snr_of_nonneg, snr_of_neg⟩

end Sys2Proof.Machine

namespace Sys2Proof.Machine

/-! ## The invariant from power-on, and what one step can do to one slot -/

/-- Settles O44: each effect of an event puts legal slots at used handles, and retirement touches neither. -/
theorem stepKeepsTheInvariant : Obligations.StepKeepsTheInvariant :=
  fun _ _ => step_keeps_inv

/-- The default configuration is a legal one. -/
theorem defaultConfig_ok : configOk defaultConfig = true := by decide

/-- Settles O43: the default configuration is legal, and there is no slot to be illegal. -/
theorem resetIsEmptyAndLegal : Obligations.ResetIsEmptyAndLegal :=
  ⟨rfl, rfl, rfl,
    { config_ok := defaultConfig_ok
      slots_sorted := List.Pairwise.nil
      handles_used := fun _ hp => nomatch hp
      slots_ok := fun _ hp => nomatch hp }⟩

/-- Settles O42: an event that sets the mark is not retired, and one that is retired left no mark. -/
theorem faultEntryIsPrecise : Obligations.FaultEntryIsPrecise := by
  intro s t r hstep ht
  obtain ⟨hf, e, rest, -, ⟨r', rfl⟩ | ⟨u, -, huf, rfl⟩⟩ := step_next hstep
  · cases ht
    exact ⟨hf, rfl⟩
  · rw [retireState_fault, huf] at ht
    cases ht

/-- What one event can do to the slot of handle `h`, where `next` is the handle the next construction takes: the slot before
and the slot after. -/
inductive SlotChange (next h : Handle) : Event → Option Slot → Option Slot → Prop where
  | kept (e : Event) (o : Option Slot) : SlotChange next h e o o
  | built (op : HostOp) (o : Option Slot) (sl : Slot) (hn : h = next) (hb : sl.phase = .built) :
      SlotChange next h (.host op) o (some sl)
  | submitted (sl : Slot) (hp : sl.phase.isInFlight = false) :
      SlotChange next h (.host (.submit h)) (some sl) (some { sl with xlen := sl.transferLength, phase := .inFlight })
  | resized (n : Nat) (sl : Slot) :
      SlotChange next h (.host (.setDlen h n)) (some sl) (some { sl with dlen := some n })
  | dropped (sl : Slot) : SlotChange next h (.host (.drop h)) (some sl) none
  | completed (bytes : List Byte) (sl : Slot) (hp : sl.phase = .inFlight) (hl : bytes.length = sl.xlen) :
      SlotChange next h (.complete h bytes) (some sl)
        (some { sl with inb := Memory.writeFrom sl.inb 0 bytes, phase := .done })

theorem slotChange_of_ne {next h j : Handle} {e : Event} {o o' : Option Slot} (hc : j = h → SlotChange next j e o o')
    (hne : j ≠ h → o' = o) : SlotChange next j e o o' := by
  by_cases hj : j = h
  · exact hc hj
  · rw [hne hj]
    exact .kept e o

/-- The effect of an event on one slot. -/
theorem effect_slotChange {s t : State} {e : Event} (he : Effect s e t) (j : Handle) :
    SlotChange s.nextHandle j e (s.slotAt j) (t.slotAt j) := by
  cases he with
  | raised | returned => exact .kept _ _
  | constructed op sl hb hi =>
    refine slotChange_of_ne (h := s.nextHandle) (fun hj => ?_) fun hj => ?_
    · rw [slotAt_constructed, if_pos hj]
      exact .built op _ sl hj hb
    · rw [slotAt_constructed, if_neg hj]
  | submitted h sl hs hp =>
    refine slotChange_of_ne (h := h) (fun hj => ?_) fun hj => ?_
    · rw [slotAt_pushHanded, slotAt_setSlot, if_pos hj, hj, hs]
      exact .submitted sl hp
    · rw [slotAt_pushHanded, slotAt_setSlot, if_neg hj]
  | resized h n hdr sl hs =>
    refine slotChange_of_ne (h := h) (fun hj => ?_) fun hj => ?_
    · rw [slotAt_setSlot, if_pos hj, hj, hs]
      exact .resized n sl
    · rw [slotAt_setSlot, if_neg hj]
  | dropped h sl hs =>
    refine slotChange_of_ne (h := h) (fun hj => ?_) fun hj => ?_
    · rw [slotAt_eraseSlot, if_pos hj, hj, hs]
      exact .dropped sl
    · rw [slotAt_eraseSlot, if_neg hj]
  | completed h bytes sl hs hp hl =>
    refine slotChange_of_ne (h := h) (fun hj => ?_) fun hj => ?_
    · rw [slotAt_setSlot, if_pos hj, hj, hs]
      exact .completed bytes sl hp hl
    · rw [slotAt_setSlot, if_neg hj]

/-- The effect of one step on one slot: that of the event at the head of the inputs. -/
theorem step_slotChange {s t : State} (hstep : step s = .next t) (j : Handle) :
    ∃ e rest, s.inputs = e :: rest ∧ SlotChange s.nextHandle j e (s.slotAt j) (t.slotAt j) := by
  obtain ⟨-, e, rest, hin, ⟨r, rfl⟩ | ⟨u, he, -, rfl⟩⟩ := step_next hstep
  · exact ⟨e, rest, hin, .kept e _⟩
  · rw [slotAt_retireState]
    exact ⟨e, rest, hin, effect_slotChange he j⟩

/-- No step takes a handle back. -/
theorem step_nextHandle_le {s t : State} (hstep : step s = .next t) : s.nextHandle ≤ t.nextHandle := by
  obtain ⟨-, e, rest, -, ⟨r, rfl⟩ | ⟨u, he, -, rfl⟩⟩ := step_next hstep
  · exact Nat.le_refl _
  · rw [retireState_nextHandle]
    cases he with
    | constructed op sl hb hi => exact Nat.le_succ _
    | raised | returned | submitted | resized | dropped | completed => exact Nat.le_refl _

/-- Settles O46: of the changes of one slot that a step can make, each writes its own field and no event but its own. -/
theorem framesNeverChangeAndOnlyCompletionWritesIn : Obligations.FramesNeverChangeAndOnlyCompletionWritesIn := by
  intro s t h a b hi hstep ha hb
  obtain ⟨e, rest, hin, hc⟩ := step_slotChange hstep h
  have hused : h < s.nextHandle := handle_used hi ha
  rw [ha, hb] at hc
  cases hc with
  | kept => exact ⟨rfl, rfl, rfl, fun _ => rfl, fun _ => rfl, fun _ => rfl⟩
  | built op _ _ hn => exact absurd hn (Nat.ne_of_lt hused)
  | submitted sl hp => exact ⟨rfl, rfl, rfl, fun _ => rfl, fun _ => rfl, fun hno => absurd hin (hno rest)⟩
  | resized n sl => exact ⟨rfl, rfl, rfl, fun _ => rfl, fun hno => absurd hin (hno n rest), fun _ => rfl⟩
  | completed bytes sl hp hl =>
    exact ⟨rfl, rfl, rfl, fun hno => absurd hin (hno bytes rest), fun _ => rfl, fun _ => rfl⟩

/-- Settles O47: a construction leaves its slot built; of the changes of a slot, SUBMIT and COMPLETE alone move PHASE. -/
theorem phaseChangesOnlyAsTheLifecycleSays : Obligations.PhaseChangesOnlyAsTheLifecycleSays := by
  intro s t h b hi hstep hb
  obtain ⟨e, rest, hin, hc⟩ := step_slotChange hstep h
  refine ⟨fun hnone => ?_, fun a ha => ?_⟩
  · rw [hnone, hb] at hc
    cases hc with
    | built op _ _ hn hphase => exact hphase
  · have hused : h < s.nextHandle := handle_used hi ha
    rw [ha, hb] at hc
    cases hc with
    | kept => exact .inl ⟨rfl, rfl⟩
    | built op _ _ hn => exact absurd hn (Nat.ne_of_lt hused)
    | submitted sl hp => exact .inr (.inl ⟨rest, hin, hp, rfl, rfl⟩)
    | resized n sl => exact .inl ⟨rfl, rfl⟩
    | completed bytes sl hp hl => exact .inr (.inr ⟨bytes, rest, hin, hp, hl, rfl, rfl⟩)

/-- Settles O48: every change of a slot but a construction is by an event on that slot, and a construction takes an unused
handle. -/
theorem slotsAreIndependent : Obligations.SlotsAreIndependent := by
  intro s t e rest j a hi hin hstep hne ha
  obtain ⟨e', rest', hin', hc⟩ := step_slotChange hstep j
  have hused : j < s.nextHandle := handle_used hi ha
  cases hin.symm.trans hin'
  rw [ha] at hc
  generalize t.slotAt j = o at hc
  cases hc with
  | kept => rfl
  | built op _ _ hn => exact absurd hn (Nat.ne_of_lt hused)
  | submitted | resized | dropped | completed => exact absurd rfl hne

/-- Settles O49: a construction takes the next handle, which is above every used one, and nothing else fills a handle. -/
theorem handlesAreNeverReused : Obligations.HandlesAreNeverReused := by
  intro s t h hstep hused
  refine ⟨Nat.lt_of_lt_of_le hused (step_nextHandle_le hstep), fun hnone => ?_⟩
  obtain ⟨e, rest, -, hc⟩ := step_slotChange hstep h
  rw [hnone] at hc
  generalize t.slotAt h = o at hc ⊢
  cases hc with
  | kept => rfl
  | built op _ _ hn => exact absurd hn (Nat.ne_of_lt hused)

end Sys2Proof.Machine

namespace Sys2Proof.Machine

/-! ## The bitfield types of a legal layout, and a bitfield operand in its bytes -/

/-- What `typeHas` checks, as propositions. -/
theorem typeHas_iff {T : BFType} {w : Nat} {fields : List (FieldName × Nat × FieldType)} :
    typeHas T w fields = true ↔ bfTypeOk T = true ∧ T.width = w ∧
      (∀ f ∈ fields, ∃ p, fieldPlace T f.1 = some p ∧ p.width = f.2.1 ∧ p.ty = f.2.2) ∧
      ∀ n ∈ fieldNames T.decl, n ∈ fields.map Prod.fst := by
  simp only [typeHas, Bool.and_eq_true, beq_iff_eq, List.all_eq_true, Option.any_eq_true, List.contains_iff_mem, and_assoc]

/-- What `typesOk` checks of the types that a slot's bytes are read by. -/
theorem typesOk_types {L : CmdLayout} (h : typesOk L = true) :
    typeHas L.sleepConfigType 8 [(.rtcWakeup, 1, .bool), (.warmStart, 1, .bool)] = true ∧
    typeHas L.statusType 8 [(.commandStatus, 3, .uint), (.chipMode, 3, .uint)] = true ∧
    typeHas L.irqType 16 irqFields = true ∧
    typeHas L.irqTypeBit14 16 (irqFields ++ [(.lrFhssHop, 1, .bool)]) = true ∧
    typeHas L.opErrorType 16 opErrorFields = true := by
  simp only [typesOk, Bool.and_eq_true] at h
  obtain ⟨⟨⟨⟨⟨⟨⟨hsleep, -⟩, hstatus⟩, hirq⟩, -⟩, hirq14⟩, -⟩, herr⟩ := h
  exact ⟨hsleep, hstatus, hirq, hirq14, herr⟩

theorem layoutOk_typesOk {L : CmdLayout} (h : layoutOk L = true) : typesOk L = true := by
  rw [layoutOk_iff] at h
  obtain ⟨-, -, -, -, -, -, -, -, -, -, -, htypes⟩ := h
  exact htypes

theorem sleepConfigType_width {L : CmdLayout} (h : layoutOk L = true) : L.sleepConfigType.width = 8 := by
  obtain ⟨hsleep, -⟩ := typesOk_types (layoutOk_typesOk h)
  exact (typeHas_iff.mp hsleep).2.1

/-- `Irq` is 16 bits wide, whether bit 14 is named or not (40_bitfield_codec.md R162, R163). -/
theorem irqTypeOf_width {cfg : Config} (h : layoutOk cfg.layout = true) : (irqTypeOf cfg).width = 16 := by
  obtain ⟨-, -, hirq, hirq14, -⟩ := typesOk_types (layoutOk_typesOk h)
  unfold irqTypeOf
  split
  · exact (typeHas_iff.mp hirq14).2.1
  · exact (typeHas_iff.mp hirq).2.1

/-- `BF.FROM_RAW` gives a value of the type (40_bitfield_codec.md R147, R148). -/
theorem isBFValue_bfFromRaw (T : BFType) (r : Nat) : isBFValue T (bfFromRaw T r) = true := by
  rw [isBFValue_iff]
  intro i hi
  rw [testBit_bfFromRaw, Bool.and_eq_true, Bool.and_eq_true, decide_eq_true_eq, Bool.not_eq_true'] at hi
  exact ⟨hi.1.1, hi.2⟩

/-- The masked operand, emitted in enough bits and read back, is the masked operand (30_encoding.md R105). -/
theorem bfFromRaw_bfOperand_mod (T : BFType) (v : Nat) : bfFromRaw T (bfOperand T v % 2 ^ T.width) = bfOperand T v := by
  have hv : isBFValue T (bfOperand T v) = true := isBFValue_bfFromRaw T v
  rw [Nat.mod_eq_of_lt (lt_of_isBFValue hv), bfFromRaw_of_value hv]

theorem bfFromRaw_beNat_be16 {T : BFType} (hw : T.width = 16) (v : Nat) :
    bfFromRaw T (beNat (be16 (bfOperand T v))) = bfOperand T v := by
  rw [beNat_be16, ← hw, bfFromRaw_bfOperand_mod]

theorem bfFromRaw_byteOf {T : BFType} (hw : T.width = 8) (v : Nat) :
    bfFromRaw T (byteOf (bfOperand T v)).toNat = bfOperand T v := by
  rw [byteOf_toNat, show 256 = 2 ^ T.width by rw [hw]; rfl, bfFromRaw_bfOperand_mod]

/-- On a value of the type the mask does nothing. -/
theorem bfOperand_of_value {T : BFType} {v : Nat} (h : isBFValue T v = true) : bfOperand T v = v :=
  bfFromRaw_of_value h

/-- The byte emitted for a member decodes to it (30_encoding.md R106). -/
theorem decEnum_encByte {ws : EnumWidths} {m : Member} (h : memberOk ws m = true) :
    decEnum ws (memberEnum m) (encByte ws m) = m := by
  rw [encByte_of_memberOk h, decEnum_encEnum h]

/-- Big-endian bytes hold a natural below 256 for each of them. -/
theorem beNat_lt (bs : List Byte) : beNat bs < 256 ^ bs.length := by
  induction bs using List.reverseRecOn with
  | nil => exact Nat.one_pos
  | append_singleton bs b ih =>
    have hb := b.isLt
    rw [beNat, List.foldl_append, ← beNat, List.length_append, Nat.pow_add]
    simp only [List.foldl_cons, List.foldl_nil, List.length_cons, List.length_nil]
    omega

theorem fitsBits_iff {w v : Nat} : fitsBits w v = true ↔ v < 2 ^ w := decide_eq_true_iff

/-- What is read from a field fits it (30_encoding.md R102). -/
theorem fitsBits_beNat {w : Nat} {bs : List Byte} (h : 8 * bs.length ≤ w) : fitsBits w (beNat bs) = true := by
  rw [fitsBits_iff]
  calc beNat bs
    _ < 256 ^ bs.length := beNat_lt bs
    _ = 2 ^ (8 * bs.length) := by rw [Nat.pow_mul]
    _ ≤ 2 ^ w := Nat.pow_le_pow_right (by omega) h

theorem fieldAt_length_le (rest : List Byte) (p w : Nat) : (fieldAt rest p w).length ≤ w := List.length_take_le w _

theorem fitsBits_beNat_fieldAt (rest : List Byte) (p w : Nat) : fitsBits (8 * w) (beNat (fieldAt rest p w)) = true :=
  fitsBits_beNat (Nat.mul_le_mul_left 8 (fieldAt_length_le rest p w))

theorem fitsBits_toNat (b : Byte) : fitsBits 8 b.toNat = true := fitsBits_iff.mpr b.isLt

theorem fitsSigned8_sext8 (b : Byte) : fitsSigned8 (sext8 b) = true := by
  obtain ⟨hlo, hhi⟩ := sext8_range b
  simp [fitsSigned8, hlo, hhi]

/-- A power that fits the signed byte is read back whole (30_encoding.md R103). -/
theorem sext8_signedByte_of_fits {x : Int} (h : fitsSigned8 x = true) : sext8 (signedByte x) = x := by
  simp only [fitsSigned8, Bool.and_eq_true, decide_eq_true_eq] at h
  rw [sext8_signedByte, Int.bmod_def]
  split <;> omega

/-- One byte of a placed frame, read back from the bytes after the opcode. -/
theorem theByte_fieldAt_layBody {cap p : Nat} {fields : List (Nat × List Byte)} {b : Byte}
    (hfit : fieldsFit cap (fieldSpans fields) = true) (hf : (p, [b]) ∈ fields) :
    theByte (fieldAt (layBody cap fields) p 1) = b := by
  rw [show 1 = [b].length from rfl, fieldAt_layBody hfit hf, theByte_one]

/-! ## Decoding the frame of an instruction -/

/-- A frame that begins with the opcode of a kind is decoded as one of that kind (30_encoding.md R112). -/
theorem decode_opcodeOf (cfg : Config) (k : Kind) (rest : List Byte) :
    decode cfg (opcodeOf k :: rest) = decodeBody cfg k rest := by
  rw [decode, kindOfOpcode_opcodeOf]

theorem decode_layFrame (cfg : Config) (k : Kind) (cap : Nat) (fields : List (Nat × List Byte)) :
    decode cfg (layFrame (opcodeOf k) cap fields) = decodeBody cfg k (layBody cap fields) :=
  decode_opcodeOf cfg k _

/-- A member emitted into a placed frame, decoded from its place. -/
theorem decEnum_fieldAt_layBody {ws : EnumWidths} {cap p : Nat} {fields : List (Nat × List Byte)} {m : Member}
    (hfit : fieldsFit cap (fieldSpans fields) = true) (hf : (p, [encByte ws m]) ∈ fields) (hm : memberOk ws m = true) :
    decEnum ws (memberEnum m) (theByte (fieldAt (layBody cap fields) p 1)) = m := by
  rw [theByte_fieldAt_layBody hfit hf, decEnum_encByte hm]

/-! A frame whose fields CMD_LAYOUT places decodes to the instruction whose operands its fields hold. -/

section Fields

variable {cfg : Config} {rest : List Byte}

theorem decodeBody_setModulationParamsLora {sf : SpreadingFactor} {bw : Bandwidth} {cr : CodingRate} {ldro : Bool}
    (hl : rest.length = 4)
    (hsf : decEnum cfg.enumWidths .spreadingFactor (theByte (fieldAt rest cfg.layout.sf 1)) = .spreadingFactor sf)
    (hbw : decEnum cfg.enumWidths .bandwidth (theByte (fieldAt rest cfg.layout.bw 1)) = .bandwidth bw)
    (hcr : decEnum cfg.enumWidths .codingRate (theByte (fieldAt rest cfg.layout.cr 1)) = .codingRate cr)
    (hldro : byteBool (theByte (fieldAt rest cfg.layout.lowDataRateOptimize 1)) = ldro) :
    decodeBody cfg .setModulationParamsLora rest = .ok (.setModulationParamsLora sf bw cr ldro) := by
  obtain rfl := Member.spreadingFactor.inj hsf
  obtain rfl := Member.bandwidth.inj hbw
  obtain rfl := Member.codingRate.inj hcr
  subst hldro
  exact if_pos hl

theorem decodeBody_setPacketParams {pre len : Nat} {ht : HeaderType} {crc : Bool} {iq : InvertIq}
    (hl : rest.length = 6) (hpre : beNat (fieldAt rest cfg.layout.preambleLength 2) = pre)
    (hht : decEnum cfg.enumWidths .headerType (theByte (fieldAt rest cfg.layout.headerType 1)) = .headerType ht)
    (hlen : (theByte (fieldAt rest cfg.layout.payloadLength 1)).toNat = len)
    (hcrc : byteBool (theByte (fieldAt rest cfg.layout.crcOn 1)) = crc)
    (hiq : decEnum cfg.enumWidths .invertIq (theByte (fieldAt rest cfg.layout.invertIq 1)) = .invertIq iq) :
    decodeBody cfg .setPacketParams rest = .ok (.setPacketParams pre ht len crc iq) := by
  obtain rfl := Member.headerType.inj hht
  obtain rfl := Member.invertIq.inj hiq
  subst hpre hlen hcrc
  exact if_pos hl

theorem decodeBody_setTxParams {power : Int} {ramp : RampTime} (hl : rest.length = 2)
    (hpower : sext8 (theByte (fieldAt rest cfg.layout.power 1)) = power)
    (hramp : decEnum cfg.enumWidths .rampTime (theByte (fieldAt rest cfg.layout.rampTime 1)) = .rampTime ramp) :
    decodeBody cfg .setTxParams rest = .ok (.setTxParams power ramp) := by
  obtain rfl := Member.rampTime.inj hramp
  subst hpower
  exact if_pos hl

theorem decodeBody_setBufferBaseAddress {tx rx : Nat} (hl : rest.length = 2)
    (htx : (theByte (fieldAt rest cfg.layout.txBase 1)).toNat = tx)
    (hrx : (theByte (fieldAt rest cfg.layout.rxBase 1)).toNat = rx) :
    decodeBody cfg .setBufferBaseAddress rest = .ok (.setBufferBaseAddress tx rx) := by
  subst htx hrx
  exact if_pos hl

theorem decodeBody_setDioIrqParams {m a b c : Nat} (hl : rest.length = 8)
    (hm : bfFromRaw (irqTypeOf cfg) (beNat (fieldAt rest cfg.layout.irqMask 2)) = m)
    (ha : bfFromRaw (irqTypeOf cfg) (beNat (fieldAt rest cfg.layout.dio1Mask 2)) = a)
    (hb : bfFromRaw (irqTypeOf cfg) (beNat (fieldAt rest cfg.layout.dio2Mask 2)) = b)
    (hc : bfFromRaw (irqTypeOf cfg) (beNat (fieldAt rest cfg.layout.dio3Mask 2)) = c) :
    decodeBody cfg .setDioIrqParams rest = .ok (.setDioIrqParams m a b c) := by
  subst hm ha hb hc
  exact if_pos hl

theorem decodeBody_setDio3AsTcxoCtrl {v : TcxoVoltage} {delay : Nat} (hl : rest.length = 4)
    (hv : decEnum cfg.enumWidths .tcxoVoltage (theByte (fieldAt rest cfg.layout.voltage 1)) = .tcxoVoltage v)
    (hdelay : beNat (fieldAt rest cfg.layout.delay 3) = delay) :
    decodeBody cfg .setDio3AsTcxoCtrl rest = .ok (.setDio3AsTcxoCtrl v delay) := by
  obtain rfl := Member.tcxoVoltage.inj hv
  subst hdelay
  exact if_pos hl

end Fields

/-- An 8-bit operand that fits its byte is read back whole. -/
theorem byteOf_toNat_of_fits {v : Nat} (h : fitsBits 8 v = true) : (byteOf v).toNat = v := by
  rw [byteOf_toNat]
  exact Nat.mod_eq_of_lt (fitsBits_iff.mp h)

theorem trunc_of_fits {w v : Nat} (h : fitsBits w v = true) : trunc w v = v := Nat.mod_eq_of_lt (fitsBits_iff.mp h)

theorem beNat_be16_of_fits {v : Nat} (h : fitsBits 16 v = true) : beNat (be16 (trunc 16 v)) = v := by
  rw [beNat_be16, trunc_of_fits h, Nat.mod_eq_of_lt (fitsBits_iff.mp h)]

theorem beNat_be24_of_fits {v : Nat} (h : fitsBits 24 v = true) : beNat (be24 (trunc 24 v)) = v := by
  rw [beNat_be24, trunc_of_fits h, Nat.mod_eq_of_lt (fitsBits_iff.mp h)]

theorem beNat_be32_of_fits {v : Nat} (h : fitsBits 32 v = true) : beNat (be32 (trunc 32 v)) = v := by
  rw [beNat_be32, trunc_of_fits h, Nat.mod_eq_of_lt (fitsBits_iff.mp h)]

theorem beNat_fieldAt_layBody {cap p : Nat} {fields : List (Nat × List Byte)} {bs : List Byte}
    (hfit : fieldsFit cap (fieldSpans fields) = true) (hf : (p, bs) ∈ fields) :
    beNat (fieldAt (layBody cap fields) p bs.length) = beNat bs := by
  rw [fieldAt_layBody hfit hf]

/-- A value of a 16-bit type, emitted big-endian and read back (30_encoding.md R105). -/
theorem bfFromRaw_beNat_of_value {T : BFType} (hw : T.width = 16) {v : Nat} (h : isBFValue T v = true) :
    bfFromRaw T (beNat (be16 (bfOperand T v))) = v := by
  rw [bfFromRaw_beNat_be16 hw, bfOperand_of_value h]

/-- Settles O1: the decoder reads every field at the place where the frame holds it, by the inverse of the form it was
emitted in, and a well-formed operand survives that form. -/
theorem decodeOfEncodeIsTheInstruction : Obligations.DecodeOfEncodeIsTheInstruction := by
  intro cfg i hcfg hwf
  have hlay := configOk_layout hcfg
  obtain ⟨hmod, hpkt, htx, hbase, hdio, htcxo, -⟩ := (layoutOk_iff cfg.layout).mp hlay
  cases i with
  | clearIrqStatus mask =>
    exact congrArg (Except.ok ∘ Instr.clearIrqStatus) (bfFromRaw_beNat_of_value (irqTypeOf_width hlay) hwf)
  | setStandby c => exact congrArg (Except.ok ∘ Instr.setStandby) (Member.standbyConfig.inj (decEnum_encByte hwf))
  | setRx timeout => exact congrArg (Except.ok ∘ Instr.setRx) (beNat_be24_of_fits hwf)
  | setTx timeout => exact congrArg (Except.ok ∘ Instr.setTx) (beNat_be24_of_fits hwf)
  | setSleep config =>
    exact congrArg (Except.ok ∘ Instr.setSleep)
      ((bfFromRaw_byteOf (sleepConfigType_width hlay) config).trans (bfOperand_of_value hwf))
  | setRfFrequency w => exact congrArg (Except.ok ∘ Instr.setRfFrequency) (beNat_be32_of_fits hwf)
  | setPacketType p => exact congrArg (Except.ok ∘ Instr.setPacketType) (Member.packetType.inj (decEnum_encByte hwf))
  | setModulationParamsLora sf bw cr ldro =>
    simp only [Instr.wellFormed, Bool.and_eq_true] at hwf
    obtain ⟨⟨hsf, hbw⟩, hcr⟩ := hwf
    refine (decode_layFrame cfg .setModulationParamsLora 5 _).trans ?_
    exact decodeBody_setModulationParamsLora (layBody_length 5 _) (decEnum_fieldAt_layBody hmod (by simp) hsf)
      (decEnum_fieldAt_layBody hmod (by simp) hbw) (decEnum_fieldAt_layBody hmod (by simp) hcr)
      ((congrArg byteBool (theByte_fieldAt_layBody hmod (by simp))).trans (byteBool_boolByte ldro))
  | setPacketParams pre ht len crc iq =>
    simp only [Instr.wellFormed, Bool.and_eq_true] at hwf
    obtain ⟨⟨⟨hpre, hht⟩, hlen⟩, hiq⟩ := hwf
    refine (decode_layFrame cfg .setPacketParams 7 _).trans ?_
    exact decodeBody_setPacketParams (layBody_length 7 _)
      ((beNat_fieldAt_layBody hpkt (bs := be16 (trunc 16 pre)) (by simp)).trans (beNat_be16_of_fits hpre))
      (decEnum_fieldAt_layBody hpkt (by simp) hht)
      ((congrArg BitVec.toNat (theByte_fieldAt_layBody hpkt (by simp))).trans (byteOf_toNat_of_fits hlen))
      ((congrArg byteBool (theByte_fieldAt_layBody hpkt (by simp))).trans (byteBool_boolByte crc))
      (decEnum_fieldAt_layBody hpkt (by simp) hiq)
  | setTxParams power ramp =>
    rw [Instr.wellFormed, Bool.and_eq_true] at hwf
    refine (decode_layFrame cfg .setTxParams 3 _).trans ?_
    exact decodeBody_setTxParams (layBody_length 3 _)
      ((congrArg sext8 (theByte_fieldAt_layBody htx (by simp))).trans (sext8_signedByte_of_fits hwf.1))
      (decEnum_fieldAt_layBody htx (by simp) hwf.2)
  | setBufferBaseAddress tx rx =>
    rw [Instr.wellFormed, Bool.and_eq_true] at hwf
    refine (decode_layFrame cfg .setBufferBaseAddress 3 _).trans ?_
    exact decodeBody_setBufferBaseAddress (layBody_length 3 _)
      ((congrArg BitVec.toNat (theByte_fieldAt_layBody hbase (by simp))).trans (byteOf_toNat_of_fits hwf.1))
      ((congrArg BitVec.toNat (theByte_fieldAt_layBody hbase (by simp))).trans (byteOf_toNat_of_fits hwf.2))
  | writeRegister addr b =>
    exact congrArg (fun a => Except.ok (Instr.writeRegister a b)) (beNat_be16_of_fits hwf)
  | writeBuffer cap off data =>
    simp only [Instr.wellFormed, Bool.and_eq_true, decide_eq_true_eq] at hwf
    obtain ⟨⟨hcap, hoff⟩, hlen⟩ := hwf
    calc decode cfg (encode cfg (.writeBuffer cap off data))
      _ = .ok (.writeBuffer (data.length + 2) (byteOf off).toNat data) := rfl
      _ = .ok (.writeBuffer cap off data) := by rw [byteOf_toNat_of_fits hoff, hlen, Nat.sub_add_cancel hcap]
  | readRegister addr => exact congrArg (Except.ok ∘ Instr.readRegister) (beNat_be16_of_fits hwf)
  | readBuffer cap off =>
    rw [Instr.wellFormed, Bool.and_eq_true, decide_eq_true_eq] at hwf
    calc decode cfg (encode cfg (.readBuffer cap off))
      _ = .ok (.readBuffer ((dummies (cap - 3)).length + 3) (byteOf off).toNat) := rfl
      _ = .ok (.readBuffer cap off) := by
        rw [byteOf_toNat_of_fits hwf.2, dummies_length, Nat.sub_add_cancel hwf.1]
  | setDioIrqParams m a b c =>
    simp only [Instr.wellFormed, Bool.and_eq_true] at hwf
    obtain ⟨⟨⟨hm, ha⟩, hb⟩, hc⟩ := hwf
    have hread : ∀ {p v : Nat} {fields : List (Nat × List Byte)}, fieldsFit 9 (fieldSpans fields) = true →
        (p, be16 (bfOperand (irqTypeOf cfg) v)) ∈ fields → isBFValue (irqTypeOf cfg) v = true →
        bfFromRaw (irqTypeOf cfg) (beNat (fieldAt (layBody 9 fields) p 2)) = v := fun hfit hf hv =>
      (congrArg (bfFromRaw (irqTypeOf cfg)) (beNat_fieldAt_layBody hfit hf)).trans
        (bfFromRaw_beNat_of_value (irqTypeOf_width hlay) hv)
    refine (decode_layFrame cfg .setDioIrqParams 9 _).trans ?_
    exact decodeBody_setDioIrqParams (layBody_length 9 _) (hread hdio (by simp) hm) (hread hdio (by simp) ha)
      (hread hdio (by simp) hb) (hread hdio (by simp) hc)
  | setLoraSymbNumTimeout n => exact congrArg (Except.ok ∘ Instr.setLoraSymbNumTimeout) (byteOf_toNat_of_fits hwf)
  | setDio2AsRfSwitchCtrl en => exact congrArg (Except.ok ∘ Instr.setDio2AsRfSwitchCtrl) (byteBool_boolByte en)
  | setDio3AsTcxoCtrl v delay =>
    rw [Instr.wellFormed, Bool.and_eq_true] at hwf
    refine (decode_layFrame cfg .setDio3AsTcxoCtrl 5 _).trans ?_
    exact decodeBody_setDio3AsTcxoCtrl (layBody_length 5 _) (decEnum_fieldAt_layBody htcxo (by simp) hwf.1)
      ((beNat_fieldAt_layBody htcxo (bs := be24 (trunc 24 delay)) (by simp)).trans (beNat_be24_of_fits hwf.2))
  | resetStats | getStatus | getPacketType | getIrqStatus | getRxBufferStatus | getPacketStatusLora | getDeviceErrors
  | clearDeviceErrors | getStatsLora => rfl

end Sys2Proof.Machine

namespace Sys2Proof.Machine

/-! ## What decodes: the length decides, and the instruction is well-formed -/

/-- A kind with a fixed length has it alone. -/
theorem hasLengthOf_fixed {k : Kind} {n m : Nat} (hc : fixedCap k = some n) (hh : headerBytes k = none) :
    hasLengthOf k m ↔ m = n := by
  simp [hasLengthOf, hc, hh]

/-- A variable kind has every length that holds its header. -/
theorem hasLengthOf_variable {k : Kind} {hdr m : Nat} (hc : fixedCap k = none) (hh : headerBytes k = some hdr) :
    hasLengthOf k m ↔ hdr ≤ m := by
  simp [hasLengthOf, hc, hh]

/-- `i` is what the decoder reads from a body of kind `k`: well-formed, of that kind, its frame as long as the body's. -/
def DecodesTo (cfg : Config) (k : Kind) (rest : List Byte) (i : Instr) : Prop :=
  decodeBody cfg k rest = .ok i ∧ kindOf i = k ∧ i.wellFormed cfg = true ∧ (encode cfg i).length = rest.length + 1

/-- Of a fixed kind the frame's length is the kind's, so it need not be shown. -/
theorem decodesTo_fixed {cfg : Config} {k : Kind} {rest : List Byte} {i : Instr} {n : Nat} (hc : fixedCap k = some n)
    (hl : rest.length + 1 = n) (hd : decodeBody cfg k rest = .ok i) (hk : kindOf i = k) (hwf : i.wellFormed cfg = true) :
    ∃ i, DecodesTo cfg k rest i := by
  subst hk
  obtain ⟨-, hlen, -⟩ := frameShape i cfg hwf
  exact ⟨i, hd, rfl, hwf, (hlen n hc).trans hl.symm⟩

/-- A body that gives a frame of its kind's length decodes, whatever its bytes. -/
theorem decodeBody_of_hasLength (cfg : Config) {k : Kind} {rest : List Byte} (h : hasLengthOf k (rest.length + 1)) :
    ∃ i, DecodesTo cfg k rest i := by
  cases k with
  | writeBuffer =>
    rw [hasLengthOf_variable rfl rfl] at h
    match rest, h with
    | off :: data, _ => exact ⟨_, rfl, rfl, by simp [Instr.wellFormed, fitsBits_toNat], rfl⟩
  | readBuffer =>
    rw [hasLengthOf_variable rfl rfl] at h
    match rest, h with
    | off :: _ :: space, _ =>
      exact ⟨_, rfl, rfl, by simp [Instr.wellFormed, fitsBits_toNat], by simp [encode, frameReadBuffer]⟩
  | clearIrqStatus =>
    have hl := (hasLengthOf_fixed rfl rfl).mp h
    match rest, hl with
    | [_, _], hl => exact decodesTo_fixed rfl hl rfl rfl (isBFValue_bfFromRaw _ _)
  | setStandby =>
    have hl := (hasLengthOf_fixed rfl rfl).mp h
    match rest, hl with
    | [c], hl => exact decodesTo_fixed rfl hl rfl rfl (memberOk_decEnum cfg.enumWidths .standbyConfig c)
  | setRx | setTx =>
    have hl := (hasLengthOf_fixed rfl rfl).mp h
    match rest, hl with
    | [_, _, _], hl => exact decodesTo_fixed rfl hl rfl rfl (fitsBits_beNat (Nat.le_refl _))
  | setSleep =>
    have hl := (hasLengthOf_fixed rfl rfl).mp h
    match rest, hl with
    | [_], hl => exact decodesTo_fixed rfl hl rfl rfl (isBFValue_bfFromRaw _ _)
  | setRfFrequency =>
    have hl := (hasLengthOf_fixed rfl rfl).mp h
    match rest, hl with
    | [_, _, _, _], hl => exact decodesTo_fixed rfl hl rfl rfl (fitsBits_beNat (Nat.le_refl _))
  | setPacketType =>
    have hl := (hasLengthOf_fixed rfl rfl).mp h
    match rest, hl with
    | [c], hl => exact decodesTo_fixed rfl hl rfl rfl (memberOk_decEnum cfg.enumWidths .packetType c)
  | setModulationParamsLora =>
    have hl := (hasLengthOf_fixed rfl rfl).mp h
    refine decodesTo_fixed rfl hl (decodeBody_setModulationParamsLora (Nat.succ.inj hl) rfl rfl rfl rfl) rfl ?_
    simp only [Instr.wellFormed, Bool.and_eq_true]
    exact ⟨⟨memberOk_decEnum _ .spreadingFactor _, memberOk_decEnum _ .bandwidth _⟩,
      memberOk_decEnum _ .codingRate _⟩
  | setPacketParams =>
    have hl := (hasLengthOf_fixed rfl rfl).mp h
    refine decodesTo_fixed rfl hl (decodeBody_setPacketParams (Nat.succ.inj hl) rfl rfl rfl rfl rfl) rfl ?_
    simp only [Instr.wellFormed, Bool.and_eq_true]
    exact ⟨⟨⟨fitsBits_beNat_fieldAt rest _ 2, memberOk_decEnum _ .headerType _⟩, fitsBits_toNat _⟩,
      memberOk_decEnum _ .invertIq _⟩
  | setTxParams =>
    have hl := (hasLengthOf_fixed rfl rfl).mp h
    refine decodesTo_fixed rfl hl (decodeBody_setTxParams (Nat.succ.inj hl) rfl rfl) rfl ?_
    rw [Instr.wellFormed, Bool.and_eq_true]
    exact ⟨fitsSigned8_sext8 _, memberOk_decEnum _ .rampTime _⟩
  | setBufferBaseAddress =>
    have hl := (hasLengthOf_fixed rfl rfl).mp h
    refine decodesTo_fixed rfl hl (decodeBody_setBufferBaseAddress (Nat.succ.inj hl) rfl rfl) rfl ?_
    rw [Instr.wellFormed, Bool.and_eq_true]
    exact ⟨fitsBits_toNat _, fitsBits_toNat _⟩
  | writeRegister =>
    have hl := (hasLengthOf_fixed rfl rfl).mp h
    match rest, hl with
    | [_, _, _], hl => exact decodesTo_fixed rfl hl rfl rfl (fitsBits_beNat (Nat.le_refl _))
  | readRegister =>
    have hl := (hasLengthOf_fixed rfl rfl).mp h
    match rest, hl with
    | [_, _, _, _], hl => exact decodesTo_fixed rfl hl rfl rfl (fitsBits_beNat (Nat.le_refl _))
  | setDioIrqParams =>
    have hl := (hasLengthOf_fixed rfl rfl).mp h
    refine decodesTo_fixed rfl hl (decodeBody_setDioIrqParams (Nat.succ.inj hl) rfl rfl rfl rfl) rfl ?_
    simp [Instr.wellFormed, isBFValue_bfFromRaw]
  | setLoraSymbNumTimeout =>
    have hl := (hasLengthOf_fixed rfl rfl).mp h
    match rest, hl with
    | [n], hl => exact decodesTo_fixed rfl hl rfl rfl (fitsBits_toNat n)
  | setDio2AsRfSwitchCtrl =>
    have hl := (hasLengthOf_fixed rfl rfl).mp h
    match rest, hl with
    | [_], hl => exact decodesTo_fixed rfl hl rfl rfl rfl
  | setDio3AsTcxoCtrl =>
    have hl := (hasLengthOf_fixed rfl rfl).mp h
    refine decodesTo_fixed rfl hl (decodeBody_setDio3AsTcxoCtrl (Nat.succ.inj hl) rfl rfl) rfl ?_
    rw [Instr.wellFormed, Bool.and_eq_true]
    exact ⟨memberOk_decEnum _ .tcxoVoltage _, fitsBits_beNat_fieldAt rest _ 3⟩
  | resetStats | getStatus | getPacketType | getIrqStatus | getRxBufferStatus | getPacketStatusLora | getDeviceErrors
  | clearDeviceErrors | getStatsLora =>
    have hl := (hasLengthOf_fixed rfl rfl).mp h
    exact decodesTo_fixed rfl hl (if_pos (Nat.succ.inj hl)) rfl rfl

/-- A body that does not is refused by its length. -/
theorem decodeBody_of_not_hasLength (cfg : Config) {k : Kind} {rest : List Byte} (h : ¬ hasLengthOf k (rest.length + 1)) :
    decodeBody cfg k rest = .error (.badLength k (rest.length + 1)) := by
  cases k with
  | writeBuffer =>
    rw [hasLengthOf_variable rfl rfl] at h
    match rest, h with
    | [], _ => rfl
    | _ :: _, h => simp at h
  | readBuffer =>
    rw [hasLengthOf_variable rfl rfl] at h
    match rest, h with
    | [], _ => rfl
    | [_], _ => rfl
    | _ :: _ :: _, h => simp at h
  | clearIrqStatus | setStandby | setRx | setTx | setSleep | setRfFrequency | setPacketType | writeRegister | readRegister
  | setLoraSymbNumTimeout | setDio2AsRfSwitchCtrl =>
    rw [hasLengthOf_fixed rfl rfl] at h
    simp only [decodeBody]
    split
    · exact absurd rfl h
    · rfl
  | resetStats | setModulationParamsLora | setPacketParams | setTxParams | setBufferBaseAddress | getStatus | getPacketType
  | getIrqStatus | getRxBufferStatus | getPacketStatusLora | getDeviceErrors | clearDeviceErrors | setDioIrqParams
  | getStatsLora | setDio3AsTcxoCtrl =>
    rw [hasLengthOf_fixed rfl rfl] at h
    exact if_neg fun hl => h (congrArg Nat.succ hl)

/-- What the decoder answers is read from the body of a known kind, which has the kind's length. -/
theorem decode_ok {cfg : Config} {frame : List Byte} {i : Instr} (h : decode cfg frame = .ok i) :
    i.wellFormed cfg = true ∧ (encode cfg i).length = frame.length := by
  match frame, h with
  | op :: rest, h =>
    rw [decode] at h
    cases hk : kindOfOpcode op with
    | none => rw [hk] at h; cases h
    | some k =>
      rw [hk] at h
      by_cases hl : hasLengthOf k (rest.length + 1)
      · obtain ⟨i', hd, -, hwf, hlen⟩ := decodeBody_of_hasLength cfg hl
        cases hd.symm.trans h
        exact ⟨hwf, hlen⟩
      · cases (decodeBody_of_not_hasLength cfg hl).symm.trans h

/-- What `constructFrame` does is decided by what the decoder answers (log entry 29). -/
theorem constructFrame_of_ok {s : State} {frame : List Byte} {i : Instr} (hf : s.fault = none)
    (hd : decode s.config frame = .ok i) : runHostOp (.constructFrame frame) s = exec i s := by
  rw [runHostOp, reqConstructFrame, unlessFaulted_of_none hf, hd]

theorem constructFrame_of_unknownOpcode {s : State} {frame : List Byte} {b : Byte} (hf : s.fault = none)
    (hd : decode s.config frame = .error (.unknownOpcode b)) :
    runHostOp (.constructFrame frame) s = raise .unknownOpcode none (.number b.toNat) s := by
  rw [runHostOp, reqConstructFrame, unlessFaulted_of_none hf, hd]

theorem constructFrame_of_badLength {s : State} {frame : List Byte} {k : Kind} {n : Nat} (hf : s.fault = none)
    (hd : decode s.config frame = .error (.badLength k n)) :
    runHostOp (.constructFrame frame) s = .refused (.badFrame (.badLength k n)) := by
  rw [runHostOp, reqConstructFrame, unlessFaulted_of_none hf, hd]

theorem constructFrame_nil {s : State} (hf : s.fault = none) :
    runHostOp (.constructFrame []) s = .refused (.badFrame .emptyFrame) :=
  unlessFaulted_of_none hf

/-- Settles O2: the body of a frame decodes exactly at its kind's length, and what it decodes to is well-formed, so its own
frame decodes to it. -/
theorem decodedInstructionIsWellFormed : Obligations.DecodedInstructionIsWellFormed := by
  refine ⟨fun cfg frame i hcfg hd => ?_, fun cfg k rest => ⟨fun hl => ?_, fun hl => ?_⟩, fun s hf =>
    ⟨constructFrame_nil hf, fun k rest hl => ?_⟩⟩
  · obtain ⟨hwf, hlen⟩ := decode_ok hd
    exact ⟨hwf, hlen.symm, decodeOfEncodeIsTheInstruction cfg i hcfg hwf⟩
  · obtain ⟨i, hd, hk, -⟩ := decodeBody_of_hasLength cfg hl
    exact ⟨i, (decode_opcodeOf cfg k rest).trans hd, hk⟩
  · exact (decode_opcodeOf cfg k rest).trans (decodeBody_of_not_hasLength cfg hl)
  · exact constructFrame_of_badLength hf ((decode_opcodeOf s.config k rest).trans (decodeBody_of_not_hasLength s.config hl))

/-! ## The classifier -/

/-- The classifier names a kind only at its opcode (30_encoding.md R112). -/
theorem opcodeOf_of_kindOfOpcode {b : Byte} {k : Kind} (h : kindOfOpcode b = some k) : opcodeOf k = b := by
  unfold kindOfOpcode at h
  split at h
  case h_29 => cases h
  all_goals
    next hb =>
      cases h
      exact BitVec.eq_of_toNat_eq hb.symm

theorem kindOfOpcode_eq_none {b : Byte} (h : ∀ k, opcodeOf k ≠ b) : kindOfOpcode b = none := by
  cases hk : kindOfOpcode b with
  | none => rfl
  | some k => exact absurd (opcodeOf_of_kindOfOpcode hk) (h k)

theorem classify_of_some {s : State} {b : Byte} {k : Kind} (hf : s.fault = none) (hk : kindOfOpcode b = some k) :
    runHostOp (.classify b) s = returnValue (.kind k) s := by
  rw [runHostOp, reqClassify, unlessFaulted_of_none hf, hk]

theorem classify_of_none {s : State} {b : Byte} (hf : s.fault = none) (hk : kindOfOpcode b = none) :
    runHostOp (.classify b) s = raise .unknownOpcode none (.number b.toNat) s := by
  rw [runHostOp, reqClassify, unlessFaulted_of_none hf, hk]

theorem decode_unknownOpcode {cfg : Config} {b : Byte} (rest : List Byte) (hk : kindOfOpcode b = none) :
    decode cfg (b :: rest) = .error (.unknownOpcode b) := by
  rw [decode, hk]

/-- Settles O4: the classifier undoes the opcode table, in both directions. -/
theorem classifierNamesTheKindOfAnOpcode : Obligations.ClassifierNamesTheKindOfAnOpcode := by
  intro s b hf
  refine ⟨fun k hk => ?_, fun hno => ?_⟩
  · subst hk
    exact classify_of_some hf (kindOfOpcode_opcodeOf k)
  · have hnone := kindOfOpcode_eq_none hno
    exact ⟨classify_of_none hf hnone, fun rest =>
      constructFrame_of_unknownOpcode hf (decode_unknownOpcode rest hnone)⟩

/-- Settles O5: the decoder evaluates on each printed word. -/
theorem specExampleFramesDecode : Obligations.SpecExampleFramesDecode :=
  ⟨rfl, rfl, rfl, rfl, rfl, rfl, rfl, rfl, rfl, rfl, rfl, rfl, rfl⟩

/-! ## One event is run, and its end -/

/-- In a faulted state no instruction has a meaning's outcome: each begins with the check of the mark. -/
theorem exec_of_faulted {s : State} {r : FaultRecord} (hf : s.fault = some r) (i : Instr) :
    exec i s = .fault (.halted r) := by
  cases i <;> exact unlessFaulted_of_some hf

/-- A typed register request runs as an address and a byte (42_register_access.md R232). -/
theorem runHostOp_writeRegisterOf (reg : RegType) (v : Nat) (s : State) :
    runHostOp (.writeRegisterOf reg v) s = exec (.writeRegister reg.addr.toNat (regByte s.config reg v)) s := rfl

theorem runHostOp_readRegisterOf (reg : RegType) (s : State) :
    runHostOp (.readRegisterOf reg) s = exec (.readRegister reg.addr.toNat) s := rfl

theorem runHostOp_of_faulted {s : State} {r : FaultRecord} (hf : s.fault = some r) (op : HostOp) :
    runHostOp op s = .fault (.halted r) := by
  cases op with
  | construct i => exact exec_of_faulted hf i
  | writeRegisterOf reg v => exact (runHostOp_writeRegisterOf reg v s).trans (exec_of_faulted hf _)
  | readRegisterOf reg => exact (runHostOp_readRegisterOf reg s).trans (exec_of_faulted hf _)
  | constructFrame | opcode | outbound | inbound | tlen | submit | setDlen | access | drop | pure | classify =>
    exact unlessFaulted_of_some hf

/-- Settles O41: the mark is the first thing that a step, an instruction, an operation and a completion check. -/
theorem nothingRunsAfterAFault : Obligations.NothingRunsAfterAFault := by
  intro s r hf
  refine ⟨unlessFaulted_of_some hf, fun e => ?_⟩
  cases e with
  | host op => exact runHostOp_of_faulted hf op
  | complete h bytes => exact unlessFaulted_of_some hf

/-- WriteBuffer constructs exactly when its capacity holds the header and its payload fills the rest
(44_variable_commands.md R331); else it is refused, the capacity first (60_exceptions.md R424). -/
theorem exec_writeBuffer_of_sized {s : State} {cap off : Nat} {data : List Byte} (hf : s.fault = none) (hcap : 2 ≤ cap)
    (hlen : data.length = cap - 2) :
    exec (.writeBuffer cap off data) s = construct .writeBuffer cap (frameWriteBuffer off data) (some (cap - 2)) s := by
  rw [exec, execWriteBuffer, unlessFaulted_of_none hf, if_neg (Nat.not_lt.mpr hcap), if_pos hlen]

theorem exec_writeBuffer_of_badCap {s : State} {cap off : Nat} {data : List Byte} (hf : s.fault = none) (hcap : cap < 2) :
    exec (.writeBuffer cap off data) s = raise .badCap none (.number cap) s := by
  rw [exec, execWriteBuffer, unlessFaulted_of_none hf, if_pos hcap]

theorem exec_writeBuffer_of_payloadLength {s : State} {cap off : Nat} {data : List Byte} (hf : s.fault = none)
    (hcap : 2 ≤ cap) (hlen : data.length ≠ cap - 2) :
    exec (.writeBuffer cap off data) s = raise .payloadLength none (.number data.length) s := by
  rw [exec, execWriteBuffer, unlessFaulted_of_none hf, if_neg (Nat.not_lt.mpr hcap), if_neg hlen]

/-- ReadBuffer constructs exactly when its capacity holds the header (44_variable_commands.md R340). -/
theorem exec_readBuffer_of_sized {s : State} {cap off : Nat} (hf : s.fault = none) (hcap : 3 ≤ cap) :
    exec (.readBuffer cap off) s = construct .readBuffer cap (frameReadBuffer cap off) (some (cap - 3)) s := by
  rw [exec, execReadBuffer, unlessFaulted_of_none hf, if_neg (Nat.not_lt.mpr hcap)]

theorem exec_readBuffer_of_badCap {s : State} {cap off : Nat} (hf : s.fault = none) (hcap : cap < 3) :
    exec (.readBuffer cap off) s = raise .badCap none (.number cap) s := by
  rw [exec, execReadBuffer, unlessFaulted_of_none hf, if_pos hcap]

/-- A well-formed instruction completes: its construction is not refused (60_exceptions.md R423). -/
theorem exec_of_wellFormed {i : Instr} {s : State} (hf : s.fault = none) (hwf : i.wellFormed s.config = true) :
    ∃ sl, exec i s = .next (constructed s sl) := by
  cases i with
  | writeBuffer cap off data =>
    simp only [Instr.wellFormed, Bool.and_eq_true, decide_eq_true_eq] at hwf
    obtain ⟨⟨hcap, -⟩, hlen⟩ := hwf
    exact ⟨_, (exec_writeBuffer_of_sized hf hcap hlen).trans (construct_eq hf)⟩
  | readBuffer cap off =>
    rw [Instr.wellFormed, Bool.and_eq_true, decide_eq_true_eq] at hwf
    exact ⟨_, (exec_readBuffer_of_sized hf hwf.1).trans (construct_eq hf)⟩
  | _ => exact ⟨_, construct_eq hf⟩

/-- An event that sets no mark is run and retired. -/
theorem step_of_runEvent {s t : State} {e : Event} {rest : List Event} (hf : s.fault = none) (hin : s.inputs = e :: rest)
    (hrun : runEvent e s = .next t) (ht : t.fault = none) : step s = .next (retireState e rest t) := by
  rw [step, unlessFaulted_of_none hf, hin, stepEvents, hrun]
  simp only [retire, ht]

/-- Settles O50: the frame request runs what the decoder reads, and a well-formed instruction completes. -/
theorem stepRunsTheDecodedInstruction : Obligations.StepRunsTheDecodedInstruction := by
  intro s frame rest i hf hin hd hwf
  obtain ⟨sl, he⟩ := exec_of_wellFormed hf hwf
  exact ⟨_, he, hf, step_of_runEvent hf hin ((constructFrame_of_ok hf hd).trans he) hf⟩

/-- A completion of no slot, or of one that is not in flight, is no step (41_command_contract.md R211). -/
theorem complete_of_not_inFlight {s : State} {h : Handle} (bytes : List Byte) (hf : s.fault = none)
    (hno : ∀ sl, s.slotAt h = some sl → sl.phase.isInFlight = false) :
    complete h bytes s = .refused (.noTransportStep h) := by
  rw [complete, unlessFaulted_of_none hf]
  cases hs : s.slotAt h with
  | none => rfl
  | some sl =>
    have hp := hno sl hs
    cases hphase : sl.phase with
    | built => simp only [hphase]
    | done => simp only [hphase]
    | inFlight => rw [hphase] at hp; cases hp

/-- When no slot is in flight, no handle names one that is. -/
theorem not_inFlight_of_nothingInFlight {s : State} (hn : nothingInFlight s = true) {h : Handle} {sl : Slot}
    (hs : s.slotAt h = some sl) : sl.phase.isInFlight = false := by
  simp only [nothingInFlight, List.all_eq_true, Bool.not_eq_true'] at hn
  exact hn _ (mem_of_get hs)

theorem finished_of_no_fault {s : State} (hf : s.fault = none) :
    finished s = true ↔ hostDone s = true ∧ nothingInFlight s = true := by
  simp [finished, hf]

/-- A finished run without a fault has no step: what is left is completions, and none has a slot to complete
(70_reset_and_hazards.md R478). -/
theorem step_ne_next_of_finished {s : State} (hf : s.fault = none) (hfin : finished s = true) (t : State) :
    step s ≠ .next t := by
  obtain ⟨hhost, hnone⟩ := (finished_of_no_fault hf).mp hfin
  rw [hostDone_iff] at hhost
  rw [step, unlessFaulted_of_none hf]
  cases hin : s.inputs with
  | nil => exact fun h => nomatch h
  | cons e rest =>
    cases e with
    | host op => exact absurd (hin ▸ List.mem_cons_self) (hhost op)
    | complete h bytes =>
      rw [stepEvents, runEvent, complete_of_not_inFlight bytes hf fun sl => not_inFlight_of_nothingInFlight hnone]
      exact fun h => nomatch h

/-- Settles O51: the step runs the head event and retires it; the end of a run is what `finished` checks, and then every
event left is a completion that is refused. -/
theorem stepRunsTheNextEvent : Obligations.StepRunsTheNextEvent := by
  intro s hf
  refine ⟨fun hin => ?_, fun op rest t hin hrun ht => step_of_runEvent hf hin hrun ht,
    fun h bytes rest t hin hrun ht => step_of_runEvent hf hin hrun ht, fun hi => ?_, step_ne_next_of_finished hf⟩
  · rw [step, unlessFaulted_of_none hf, hin, stepEvents]
  · rw [finished_of_no_fault hf, hostDone_iff, nothingInFlight_iff hi.slots_sorted]

end Sys2Proof.Machine

namespace Sys2Proof.Machine

/-! ## The bytes of a constructed slot -/

/-- The last byte of an operand is its 8-bit form. -/
@[simp] theorem byteNo_zero (v : Nat) : byteNo 0 v = byteOf v := (byteOf_eq_byteNo (by simp)).symm

theorem twoBytes_eq_be16 (v : Nat) : twoBytes v = be16 v := by
  rw [twoBytes, be16, Nat.shiftRight_eq_div_pow, byteOf_eq_byteNo (n := 1) (v := v) (by simp), byteNo_zero]

/-- A natural narrowed to 16 bits is emitted as its bytes 1 and 0 (30_encoding.md R102). -/
theorem be16_trunc (v : Nat) : be16 (trunc 16 v) = [byteNo 1 v, byteNo 0 v] := by
  rw [be16, trunc, Nat.shiftRight_eq_div_pow, byteOf_eq_byteNo (n := 1) (v := v) (by omega),
    byteOf_eq_byteNo (n := 0) (v := v) (by omega)]

theorem be32_trunc (v : Nat) : be32 (trunc 32 v) = [byteNo 3 v, byteNo 2 v, byteNo 1 v, byteNo 0 v] := by
  simp only [be32, trunc, Nat.shiftRight_eq_div_pow]
  rw [byteOf_eq_byteNo (n := 3) (v := v) (by omega), byteOf_eq_byteNo (n := 2) (v := v) (by omega),
    byteOf_eq_byteNo (n := 1) (v := v) (by omega), byteOf_eq_byteNo (n := 0) (v := v) (by omega)]

/-- The statements' own form of a masked operand is the model's. -/
theorem cleared_eq_bfOperand (T : BFType) (v : Nat) : cleared T v = bfOperand T v := by
  apply Nat.eq_of_testBit_eq
  intro i
  rw [bfOperand, bfToRaw, testBit_bfFromRaw, cleared, Nat.testBit_and, Nat.testBit_mod_two_pow, Nat.testBit_xor,
    Nat.testBit_two_pow_sub_one]
  cases decide (i < T.width) <;> simp

/-- The two's-complement byte of an integer (30_encoding.md R103). -/
theorem signedByte_eq_ofInt (x : Int) : signedByte x = BitVec.ofInt 8 x := by
  apply BitVec.eq_of_toNat_eq
  rw [signedByte, BitVec.toNat_ofNat, BitVec.toNat_ofInt]
  omega

/-! ## What each form of field reads back as -/

/-- An unsigned operand reads back narrowed to its field (30_encoding.md R102). -/
theorem natValue_byteOf (v : Nat) : natValue [byteOf v] = .nat (v % 256) := by
  rw [natValue, beNat_one, byteOf_toNat]

theorem natValue_be16_trunc (v : Nat) : natValue (be16 (trunc 16 v)) = .nat (v % 2 ^ 16) := by
  rw [natValue, beNat_be16, trunc, Nat.mod_mod]

theorem natValue_be24_trunc (v : Nat) : natValue (be24 (trunc 24 v)) = .nat (v % 2 ^ 24) := by
  rw [natValue, beNat_be24_trunc]

theorem natValue_be32_trunc (v : Nat) : natValue (be32 (trunc 32 v)) = .nat (v % 2 ^ 32) := by
  rw [natValue, beNat_be32, trunc, Nat.mod_mod]

/-- A masked operand reads back as it was emitted (30_encoding.md R105). -/
theorem bitsValue_byteOf {T : BFType} (hw : T.width = 8) (v : Nat) :
    bitsValue T [byteOf (bfOperand T v)] = .bits (bfOperand T v) := by
  rw [bitsValue, beNat_one, bfFromRaw_byteOf hw]

theorem bitsValue_be16 {T : BFType} (hw : T.width = 16) (v : Nat) :
    bitsValue T (be16 (bfOperand T v)) = .bits (bfOperand T v) := by
  rw [bitsValue, bfFromRaw_beNat_be16 hw]

/-- A member at its width reads back (30_encoding.md R106). -/
theorem enumValue_encByte {cfg : Config} {m : Member} (hm : memberOk cfg.enumWidths m = true) :
    enumValue cfg (memberEnum m) [encByte cfg.enumWidths m] = .member m := by
  rw [enumValue, theByte_one, decEnum_encByte hm]

/-- A Boolean reads back (30_encoding.md R107). -/
theorem boolValue_boolByte (b : Bool) : boolValue [boolByte b] = .bool b := by
  rw [boolValue, theByte_one, byteBool_boolByte]

/-! ## Reading back from OUT -/

/-- Consecutive bytes of OUT that lie within it are all read. -/
theorem fromOut_range {sl : Slot} {p n : Nat} (h : p + n ≤ sl.out.length) (f : List Byte → Value) :
    fromOut sl (List.range' p n) f = .ok (f ((sl.out.drop p).take n)) := by
  have hlen : ((sl.out.drop p).take n).length = n := by simp; omega
  have hread : ∀ i (hi : i < n), sl.outRead (p + i) = .ok ((sl.out.drop p).take n)[i] := by
    intro i hi
    have hin : p + i < sl.out.length := by omega
    simp [Slot.outRead, hin]
  rw [fromOut, readAll_range_ok p hlen hread]

/-- A read-back of consecutive bytes, on a slot that passes the common checks. -/
theorem reads_outRange {s : State} {h : Handle} {sl : Slot} {a : Accessor} {p n : Nat} {f : List Byte → Value} {v : Value}
    (hr : Ready s h sl) (ha : accessorApplies a sl.kind = true)
    (hread : readAccessor s.config a sl = fromOut sl (List.range' p n) f) (hle : p + n ≤ sl.out.length)
    (hv : f ((sl.out.drop p).take n) = v) : Reads s h a v :=
  reads_of_ready hr ha (hread.trans ((fromOut_range hle f).trans (congrArg Except.ok hv)))

section Constructed

variable {s : State} (hf : s.fault = none) {k : Kind} {cap x : Nat} {dlen : Option Nat} {a : Accessor}
  {f : List Byte → Value} {v : Value}
include hf

/-- A read-back of a slot right after its construction. -/
theorem reads_constructed {frame : List Byte} {p n : Nat} (ha : accessorApplies a k = true)
    (hread : readAccessor s.config a (newSlot k cap frame dlen x) =
      fromOut (newSlot k cap frame dlen x) (List.range' p n) f)
    (hle : p + n ≤ frame.length) (hv : f ((frame.drop p).take n) = v) :
    Reads (constructed s (newSlot k cap frame dlen x)) s.nextHandle a v :=
  reads_outRange (ready_constructed hf) ha hread hle hv

/-- A read-back of a placed field of a slot right after its construction. -/
theorem reads_placed {op : Byte} {fields : List (Nat × List Byte)} {p : Nat} {bs : List Byte}
    (hfit : fieldsFit cap (fieldSpans fields) = true) (hmem : (p, bs) ∈ fields) (ha : accessorApplies a k = true)
    (hread : readAccessor s.config a (newSlot k cap (layFrame op cap fields) dlen x) =
      fromOut (newSlot k cap (layFrame op cap fields) dlen x) (List.range' p bs.length) f)
    (hv : f bs = v) : Reads (constructed s (newSlot k cap (layFrame op cap fields) dlen x)) s.nextHandle a v :=
  reads_of_ready (ready_constructed hf) ha (hread.trans ((fromOut_field hfit hmem f).trans (congrArg Except.ok hv)))

end Constructed

/-- A placed frame has its opcode, its length and its fields. -/
theorem frameHas_layFrame {op : Byte} {cap : Nat} {fields : List (Nat × List Byte)} (hcap : 1 ≤ cap)
    (hfit : fieldsFit cap (fieldSpans fields) = true) : FrameHas op cap fields (layFrame op cap fields) :=
  ⟨layFrame_length op fields hcap, rfl, fun _ hf _ hj => layFrame_get_field hfit hf hj⟩

/-! ## The fixed write kinds -/

/-- Settles O7: each operand is emitted big-endian, at its place, and read back from there narrowed. -/
theorem unsignedOperandCommandsEmitBigEndian : Obligations.UnsignedOperandCommandsEmitBigEndian := by
  intro s timeout w tx rx n hf hlay
  obtain ⟨-, -, -, hbase, -⟩ := (layoutOk_iff s.config.layout).mp hlay
  rw [← be24_trunc, ← be32_trunc]
  simp only [byteNo_zero]
  refine ⟨⟨_, constructs_of_exec_eq hf rfl, reads_constructed hf rfl (readAccessor_timeout _ _) (Nat.le_refl _)
      (natValue_be24_trunc timeout)⟩,
    ⟨_, constructs_of_exec_eq hf rfl,
      reads_constructed (p := 1) (n := 4) hf rfl rfl (Nat.le_refl _) (natValue_be32_trunc w)⟩,
    ⟨_, _, constructs_of_exec_eq hf rfl, frameHas_layFrame (by decide) hbase,
      reads_placed hf hbase (.head _) rfl rfl (natValue_byteOf tx),
      reads_placed hf hbase (.tail _ (.head _)) rfl rfl (natValue_byteOf rx)⟩,
    ⟨_, constructs_of_exec_eq hf rfl,
      reads_constructed (p := 1) (n := 1) hf rfl rfl (Nat.le_refl _) (natValue_byteOf n)⟩⟩

/-- Settles O8: each of these frames is the opcode and dummies, for every kind its own number. -/
theorem kindsWithoutOperandsEmitOpcodeAndDummies : Obligations.KindsWithoutOperandsEmitOpcodeAndDummies := by
  intro s hf
  exact ⟨⟨_, constructs_of_exec_eq hf rfl⟩, ⟨_, constructs_of_exec_eq hf rfl⟩, ⟨_, constructs_of_exec_eq hf rfl⟩,
    ⟨_, constructs_of_exec_eq hf rfl⟩, ⟨_, constructs_of_exec_eq hf rfl⟩, ⟨_, constructs_of_exec_eq hf rfl⟩,
    ⟨_, constructs_of_exec_eq hf rfl⟩, ⟨_, constructs_of_exec_eq hf rfl⟩, ⟨_, constructs_of_exec_eq hf rfl⟩⟩

end Sys2Proof.Machine

namespace Sys2Proof.Machine

/-! ## The fixed write kinds with codes, masks and signed bytes -/

/-- Settles O9: the one byte is the member's code, or the masked SleepConfig, and is decoded back. -/
theorem oneByteCommandsEmitTheirCode : Obligations.OneByteCommandsEmitTheirCode := by
  intro s c p config hf hlay
  simp only [byteNo_zero, cleared_eq_bfOperand]
  refine ⟨⟨_, _, constructs_of_exec_eq hf rfl, fun hm => ⟨encByte_of_memberOk hm, ?_⟩⟩,
    ⟨_, _, constructs_of_exec_eq hf rfl, fun hm => ⟨encByte_of_memberOk hm, ?_⟩⟩,
    ⟨_, constructs_of_exec_eq hf rfl, ?_⟩⟩
  · exact reads_constructed (p := 1) (n := 1) hf rfl rfl (Nat.le_refl _) (enumValue_encByte hm)
  · exact reads_constructed (p := 1) (n := 1) hf rfl rfl (Nat.le_refl _) (enumValue_encByte hm)
  · exact reads_constructed (p := 1) (n := 1) hf rfl rfl (Nat.le_refl _)
      (bitsValue_byteOf (sleepConfigType_width hlay) config)

/-- Settles O10: an Irq word is masked, emitted big-endian at its place, and read back as the masked word. -/
theorem irqMasksAreEmittedWithoutReservedBits : Obligations.IrqMasksAreEmittedWithoutReservedBits := by
  intro s mask a b c hf hlay
  obtain ⟨-, -, -, -, hdio, -⟩ := (layoutOk_iff s.config.layout).mp hlay
  have hw := irqTypeOf_width hlay
  simp only [twoBytes_eq_be16, cleared_eq_bfOperand]
  refine ⟨⟨_, constructs_of_exec_eq hf rfl, ?_⟩,
    ⟨_, _, constructs_of_exec_eq hf rfl, frameHas_layFrame (by decide) hdio, ?_, ?_, ?_, ?_⟩⟩
  · exact reads_constructed (p := 1) (n := 2) hf rfl rfl (Nat.le_refl _) (bitsValue_be16 hw mask)
  · exact reads_placed hf hdio (.head _) rfl rfl (bitsValue_be16 hw mask)
  · exact reads_placed hf hdio (.tail _ (.head _)) rfl rfl (bitsValue_be16 hw a)
  · exact reads_placed hf hdio (.tail _ (.tail _ (.head _))) rfl rfl (bitsValue_be16 hw b)
  · exact reads_placed hf hdio (.tail _ (.tail _ (.tail _ (.head _)))) rfl rfl (bitsValue_be16 hw c)

/-- Settles O11: three codes and a Boolean byte, each at its place and decoded back from it. -/
theorem setModulationParamsLoraEmitsFourCodes : Obligations.SetModulationParamsLoraEmitsFourCodes := by
  intro s sf bw cr ldro hf hlay
  obtain ⟨hfit, -⟩ := (layoutOk_iff s.config.layout).mp hlay
  refine ⟨_, _, _, _, _, constructs_of_exec_eq hf rfl, frameHas_layFrame (by decide) hfit, ?_,
    fun hm => ⟨encByte_of_memberOk hm, ?_⟩, fun hm => ⟨encByte_of_memberOk hm, ?_⟩,
    fun hm => ⟨encByte_of_memberOk hm, ?_⟩⟩
  · exact reads_placed hf hfit (.tail _ (.tail _ (.tail _ (.head _)))) rfl rfl (boolValue_boolByte ldro)
  · exact reads_placed hf hfit (.head _) rfl rfl (enumValue_encByte hm)
  · exact reads_placed hf hfit (.tail _ (.head _)) rfl rfl (enumValue_encByte hm)
  · exact reads_placed hf hfit (.tail _ (.tail _ (.head _))) rfl rfl (enumValue_encByte hm)

/-- Settles O12: two numbers, two codes and a Boolean byte, each at its place and read back from it. -/
theorem setPacketParamsEmitsItsFiveFields : Obligations.SetPacketParamsEmitsItsFiveFields := by
  intro s pre ht len crc iq hf hlay
  obtain ⟨-, hfit, -⟩ := (layoutOk_iff s.config.layout).mp hlay
  rw [twoBytes, ← be16_trunc]
  simp only [byteNo_zero]
  refine ⟨_, _, _, _, constructs_of_exec_eq hf rfl, frameHas_layFrame (by decide) hfit, ?_, ?_, ?_,
    fun hm => ⟨encByte_of_memberOk hm, ?_⟩, fun hm => ⟨encByte_of_memberOk hm, ?_⟩⟩
  · exact reads_placed hf hfit (.head _) rfl rfl (natValue_be16_trunc pre)
  · exact reads_placed hf hfit (.tail _ (.tail _ (.head _))) rfl rfl (natValue_byteOf len)
  · exact reads_placed hf hfit (.tail _ (.tail _ (.tail _ (.head _)))) rfl rfl (boolValue_boolByte crc)
  · exact reads_placed hf hfit (.tail _ (.head _)) rfl rfl (enumValue_encByte hm)
  · exact reads_placed hf hfit (.tail _ (.tail _ (.tail _ (.tail _ (.head _))))) rfl rfl (enumValue_encByte hm)

/-- Settles O13: the power's two's-complement byte and the ramp time's code, each at its place and read back from it. -/
theorem setTxParamsEmitsTheSignedPower : Obligations.SetTxParamsEmitsTheSignedPower := by
  intro s power ramp hf hlay
  obtain ⟨-, -, hfit, -⟩ := (layoutOk_iff s.config.layout).mp hlay
  rw [← signedByte_eq_ofInt]
  refine ⟨_, _, _, constructs_of_exec_eq hf rfl, frameHas_layFrame (by decide) hfit, ?_,
    fun hm => ⟨encByte_of_memberOk hm, ?_⟩⟩
  · exact reads_placed hf hfit (.head _) rfl rfl
      (by rw [theByte_one, sext8_signedByte])
  · exact reads_placed hf hfit (.tail _ (.head _)) rfl rfl (enumValue_encByte hm)

/-- Settles O14: the Boolean byte, and the voltage's code and the narrowed delay at their places, each read back. -/
theorem dioControlCommandsEmitTheirFields : Obligations.DioControlCommandsEmitTheirFields := by
  intro s en v delay hf hlay
  obtain ⟨-, -, -, -, -, hfit, -⟩ := (layoutOk_iff s.config.layout).mp hlay
  rw [← be24_trunc]
  refine ⟨⟨_, constructs_of_exec_eq hf rfl, ?_⟩,
    ⟨_, _, _, constructs_of_exec_eq hf rfl, frameHas_layFrame (by decide) hfit, ?_,
      fun hm => ⟨encByte_of_memberOk hm, ?_⟩⟩⟩
  · exact reads_constructed (p := 1) (n := 1) hf rfl rfl (Nat.le_refl _) (boolValue_boolByte en)
  · exact reads_placed hf hfit (.tail _ (.head _)) rfl rfl (natValue_be24_trunc delay)
  · exact reads_placed hf hfit (.head _) rfl rfl (enumValue_encByte hm)

/-! ## The register kinds and the variable kinds -/

theorem tlen_of_eq {s : State} {h : Handle} {sl : Slot} {n : Nat} (hr : Ready s h sl) (hn : sl.transferLength = n) :
    runHostOp (.tlen h) s = returnValue (.nat n) s := by
  rw [tlen_ready hr, hn]

/-- A slot right after its construction tells its transfer length. -/
theorem tlen_constructed {s : State} {k : Kind} {cap x n : Nat} {frame : List Byte} {dlen : Option Nat}
    (hf : s.fault = none) (hn : (newSlot k cap frame dlen x).transferLength = n) :
    runHostOp (.tlen s.nextHandle) (constructed s (newSlot k cap frame dlen x)) =
      returnValue (.nat n) (constructed s (newSlot k cap frame dlen x)) :=
  tlen_of_eq (ready_constructed hf) hn

/-- The byte of a value of a register of REG_SET is the encoded one (42_register_access.md R232). -/
theorem regByte_of_mem {cfg : Config} {reg : RegType} {v : Nat} (hr : reg ∈ cfg.regSet)
    (hv : isRegValue reg.conv v = true) : regByte cfg reg v = regEnc reg.conv v := by
  simp [regByte, hr, hv]

/-- The value of a byte under a register of REG_SET is the decoded one. -/
theorem regValue_of_mem {cfg : Config} {reg : RegType} (hr : reg ∈ cfg.regSet) (b : Byte) :
    regValue cfg reg b = regDec reg.conv b :=
  if_pos (List.contains_iff_mem.mpr hr)

/-- No accessor of WriteRegister decodes an inbound byte (42_register_access.md R233, R237). -/
theorem isReadBack_of_writeRegister {a : Accessor} (ha : accessorApplies a .writeRegister = true) :
    isReadBack .writeRegister a = true := by
  cases a with
  | address | rawValue => rfl
  | _ => cases ha

/-- Settles O15: the frame, its read-backs and TLEN; the typed request is the datapath one of the register's byte. -/
theorem writeRegisterEmitsAddressThenByte : Obligations.WriteRegisterEmitsAddressThenByte := by
  intro s addr b hf
  have hframe : [0x0D#8, byteNo 1 addr, byteNo 0 addr, b] = frameWriteRegister addr b := by
    rw [frameWriteRegister, be16_trunc]
    rfl
  rw [hframe]
  refine ⟨fun reg v => ⟨_, runHostOp_writeRegisterOf reg v s, fun hr hv => regByte_of_mem hr hv⟩,
    _, constructs_of_exec_eq hf rfl, ?_, ?_, tlen_constructed hf rfl, fun a => isReadBack_of_writeRegister⟩
  · exact reads_constructed (p := 1) (n := 2) hf rfl rfl (by simp [frameWriteRegister, be16]) (natValue_be16_trunc addr)
  · exact reads_constructed (p := 3) (n := 1) (f := fun bs => .byte (theByte bs)) hf rfl rfl
      (by simp [frameWriteRegister, be16]) (congrArg Value.byte (theByte_one b))

/-- Settles O16: the frame, its read-back and TLEN; the typed request is the datapath one of the register's address. -/
theorem readRegisterEmitsAddressThenDummies : Obligations.ReadRegisterEmitsAddressThenDummies := by
  intro s addr hf
  have hframe : [0x1D#8, byteNo 1 addr, byteNo 0 addr, 0x00#8, 0x00#8] = frameReadRegister addr := by
    rw [frameReadRegister, be16_trunc]
    rfl
  rw [hframe]
  refine ⟨fun reg => runHostOp_readRegisterOf reg s, _, constructs_of_exec_eq hf rfl, ?_, tlen_constructed hf rfl⟩
  exact reads_constructed (p := 1) (n := 2) hf rfl rfl (by simp [frameReadRegister, be16])
    (natValue_be16_trunc addr)

/-- DLEN of a slot that passes the common checks. -/
theorem reads_dataLength {s : State} {h : Handle} {sl : Slot} {d : Nat} (hr : Ready s h sl)
    (ha : accessorApplies .dataLength sl.kind = true) (hd : sl.dlen = some d) : Reads s h .dataLength (.nat d) :=
  reads_of_ready hr ha (by rw [readAccessor, Slot.dataLength, hd]; rfl)

/-- The payload of a WriteBuffer slot is the DLEN bytes after its header (44_variable_commands.md R334). -/
theorem reads_payload {s : State} {h : Handle} {sl : Slot} {d : Nat} (hr : Ready s h sl) (hk : sl.kind = .writeBuffer)
    (hd : sl.dlen = some d) (hle : 2 + d ≤ sl.out.length) {data : List Byte} (hdata : (sl.out.drop 2).take d = data) :
    Reads s h .payload (.bytes data) := by
  refine reads_outRange (p := 2) (n := d) hr (by rw [hk]; rfl) ?_ hle (congrArg Value.bytes hdata)
  rw [readAccessor, Slot.dataLength, hd]
  rfl

/-- Settles O17: an exact payload constructs the slot, which reads it back; else the capacity is checked, then the length. -/
theorem writeBufferConstructsOrIsRefused : Obligations.WriteBufferConstructsOrIsRefused := by
  intro s cap offset data hf
  refine ⟨fun hcap hlen => ?_, exec_writeBuffer_of_badCap hf, exec_writeBuffer_of_payloadLength hf⟩
  have hout : (frameWriteBuffer offset data).length = cap := by simp [frameWriteBuffer]; omega
  have hdata : ((frameWriteBuffer offset data).drop 2).take (cap - 2) = data := List.take_of_length_le (Nat.le_of_eq hlen)
  rw [byteNo_zero]
  refine ⟨_, constructs_of_exec_eq hf (exec_writeBuffer_of_sized hf hcap hlen),
    reads_dataLength (ready_constructed hf) rfl rfl, ?_, ?_, tlen_constructed hf ?_⟩
  · exact reads_constructed (p := 1) (n := 1) hf rfl rfl (hcap.trans hout.ge) (natValue_byteOf offset)
  · exact reads_payload (ready_constructed hf) rfl rfl ((Nat.add_sub_cancel' hcap).trans_le hout.ge) hdata
  · rw [transferLength_variable (hdr := 2) rfl rfl, Nat.add_sub_cancel' hcap]

/-- Settles O18: a capacity that holds the header constructs the slot; with no data bytes `data()` reads none. -/
theorem readBufferConstructsOrIsRefused : Obligations.ReadBufferConstructsOrIsRefused := by
  intro s cap offset hf
  refine ⟨fun hcap => ?_, exec_readBuffer_of_badCap hf⟩
  have hout : 3 ≤ (frameReadBuffer cap offset).length := by simp [frameReadBuffer]
  rw [byteNo_zero]
  refine ⟨_, constructs_of_exec_eq hf (exec_readBuffer_of_sized hf hcap),
    reads_dataLength (ready_constructed hf) rfl rfl, ?_, tlen_constructed hf ?_, fun hthree => ?_⟩
  · exact reads_constructed (p := 1) (n := 1) hf rfl rfl (Nat.le_trans (by decide) hout) (natValue_byteOf offset)
  · rw [transferLength_variable (hdr := 3) rfl rfl, Nat.add_sub_cancel' hcap]
  · subst hthree
    exact reads_of_ready (ready_constructed hf) rfl rfl

end Sys2Proof.Machine

namespace Sys2Proof.Machine

/-! ## The common checks -/

/-- Every operation on a slot begins with the common checks, under its name and its kinds (60_exceptions.md R424). -/
theorem runHostOp_eq_onSlot {op : HostOp} {h : Handle} {nm : OpName} (hs : opSlot op = some h) (hn : opName op = some nm) :
    ∃ k : State → Slot → Result, ∀ s, runHostOp op s = onSlot h nm (fun kd => opApplies kd op) s (k s) := by
  cases op with
  | construct | constructFrame | writeRegisterOf | readRegisterOf | pure | classify => cases hs
  | opcode | outbound | inbound | tlen | submit | setDlen | access | drop =>
    cases hs
    cases hn
    exact ⟨_, fun _ => rfl⟩

/-- An operation is refused on the kinds it does not apply to and faults on the others while in flight. -/
theorem onlyOn_of_opApplies {ks : List Kind} {op : HostOp} {h : Handle} {nm : OpName} (s : State)
    (hs : opSlot op = some h) (hn : opName op = some nm) (ha : ∀ k, opApplies k op = true ↔ k ∈ ks) :
    OnlyOn ks op nm h s := by
  intro sl hf hsl
  obtain ⟨k, hk⟩ := runHostOp_eq_onSlot hs hn
  rw [hk]
  refine ⟨fun hnot => onSlot_wrongKind hf hsl ?_, fun hmem => onSlot_inFlight hf hsl ((ha sl.kind).mpr hmem)⟩
  rwa [← Bool.not_eq_true, ha]

theorem accessorApplies_iff {a : Accessor} {k : Kind} : accessorApplies a k = true ↔ k ∈ accessorKinds a :=
  List.contains_iff_mem

/-- An accessor belongs to the kinds the model lists for it. -/
theorem onlyOn_access (a : Accessor) {ks : List Kind} (hks : accessorKinds a = ks) (h : Handle) (s : State) :
    OnlyOn ks (.access h a) (.accessor a) h s :=
  onlyOn_of_opApplies s rfl rfl fun k => by rw [← hks]; exact accessorApplies_iff

/-- The printed table of accessors lists the model's kinds. -/
theorem accessorKinds_of_mem_accessorTable : ∀ row ∈ accessorTable, accessorKinds row.1 = row.2 := by decide

/-- The printed table leaves out the typed form of `value` alone. -/
theorem mem_accessorTable_or_valueAs (a : Accessor) : a ∈ accessorTable.map Prod.fst ∨ ∃ reg, a = .valueAs reg := by
  cases a with
  | valueAs reg => exact .inr ⟨reg, rfl⟩
  | _ => exact .inl (by decide)

/-- Settles O40: the checks in their order, as every operation on a slot makes them, and the printed table of accessors. -/
theorem commonChecksInTheirOrder : Obligations.CommonChecksInTheirOrder := by
  refine ⟨fun s op h nm hf hs hn => ?_, fun s h =>
    ⟨fun row hrow => ?_, fun reg => onlyOn_access (.valueAs reg) rfl h s⟩, mem_accessorTable_or_valueAs⟩
  · obtain ⟨k, hk⟩ := runHostOp_eq_onSlot hs hn
    rw [hk]
    exact ⟨fun hnone => onSlot_absent hf hnone, fun sl hsl ha => onSlot_wrongKind hf hsl ha,
      fun sl hsl ha hp => onSlot_inFlight hf hsl ha hp⟩
  · exact onlyOn_access row.1 (accessorKinds_of_mem_accessorTable row hrow) h s

/-! ## SUBMIT and COMPLETE -/

/-- The state after a submission. -/
def submitted (s : State) (h : Handle) (sl : Slot) : State :=
  (s.setSlot h { sl with xlen := sl.transferLength, phase := .inFlight }).pushHanded
    ⟨h, sl.out.take sl.transferLength, sl.transferLength⟩

/-- The state after a completion. -/
def completed (s : State) (h : Handle) (sl : Slot) (bytes : List Byte) : State :=
  s.setSlot h { sl with inb := Memory.writeFrom sl.inb 0 bytes, phase := .done }

theorem slotAt_setSlot_self (s : State) (h : Handle) (sl : Slot) : (s.setSlot h sl).slotAt h = some sl := by simp

theorem slotAt_setSlot_of_ne (s : State) {h j : Handle} (sl : Slot) (hne : j ≠ h) :
    (s.setSlot h sl).slotAt j = s.slotAt j := by simp [hne]

theorem submit_ready {s : State} {h : Handle} {sl : Slot} (hr : Ready s h sl) :
    runHostOp (.submit h) s = .next (submitted s h sl) :=
  onSlot_ready hr rfl

theorem slotAt_submitted (s : State) (h : Handle) (sl : Slot) :
    (submitted s h sl).slotAt h = some { sl with xlen := sl.transferLength, phase := .inFlight } :=
  slotAt_setSlot_self s h _

theorem slotAt_completed (s : State) (h : Handle) (sl : Slot) (bytes : List Byte) :
    (completed s h sl bytes).slotAt h = some { sl with inb := Memory.writeFrom sl.inb 0 bytes, phase := .done } :=
  slotAt_setSlot_self s h _

theorem complete_inFlight {s : State} {h : Handle} {sl : Slot} {bytes : List Byte} (hf : s.fault = none)
    (hs : s.slotAt h = some sl) (hp : sl.phase = .inFlight) (hl : bytes.length = sl.xlen) :
    complete h bytes s = .next (completed s h sl bytes) := by
  rw [complete, unlessFaulted_of_none hf, hs]
  simp only [hp, hl, if_true, completed]

theorem complete_of_length_ne {s : State} {h : Handle} {sl : Slot} {bytes : List Byte} (hf : s.fault = none)
    (hs : s.slotAt h = some sl) (hp : sl.phase = .inFlight) (hl : bytes.length ≠ sl.xlen) :
    complete h bytes s = raise .transportLength (some h) (.number bytes.length) s := by
  rw [complete, unlessFaulted_of_none hf, hs]
  simp only [hp, hl, if_false]

/-- A completion writes the cells of its bytes and leaves the others (41_command_contract.md R211). -/
theorem inAt_completed {s : State} {h : Handle} {sl : Slot} (hs : s.slotAt h = some sl) (bytes : List Byte) (i : Nat) :
    (completed s h sl bytes).inAt h i = if i < bytes.length then bytes[i]? else s.inAt h i := by
  rw [inAt_of_slotAt (slotAt_completed s h sl bytes), memory_read_writeFrom, inAt_of_slotAt hs]
  simp

theorem outAt_of_slotAt {s : State} {h : Handle} {sl : Slot} (hs : s.slotAt h = some sl) (i : Nat) :
    s.outAt h i = sl.out[i]? := by
  rw [State.outAt, hs, Option.bind_some]

/-- Settles O22: SUBMIT replaces the slot and hands its frame over, and touches nothing else. -/
theorem submitGoesInFlight : Obligations.SubmitGoesInFlight := by
  intro s h sl hr
  have ⟨hf, _, _⟩ := hr
  exact ⟨_, submit_ready hr, slotAt_submitted s h sl, fun j hne => slotAt_setSlot_of_ne s _ hne, rfl, hf,
    rfl, rfl, rfl, rfl, rfl⟩

/-- Settles O23: COMPLETE replaces the slot by one with the bytes written and the phase DONE, and touches nothing else. -/
theorem completeWritesExactlyTheTransferredCells : Obligations.CompleteWritesExactlyTheTransferredCells := by
  intro s h sl bytes hf hs hp hx
  refine ⟨_, _, complete_inFlight hf hs hp hx.symm, slotAt_completed s h sl bytes, rfl, rfl, rfl, rfl, rfl, rfl,
    fun i hlt => ?_, fun i hle => ?_, fun j hne => slotAt_setSlot_of_ne s _ hne, hf, rfl, rfl, rfl, rfl, rfl, rfl⟩
  · rw [inAt_completed hs, if_pos hlt]
  · rw [inAt_completed hs, if_neg (Nat.not_lt.mpr hle)]

/-- Settles O24: the checks of COMPLETE, flight before length. -/
theorem completionChecksFlightThenLength : Obligations.CompletionChecksFlightThenLength := by
  intro s h bytes hf
  refine ⟨fun sl hs hp hl => complete_of_length_ne hf hs hp hl, fun sl hs hp => ?_, fun hnone => ?_⟩
  · refine complete_of_not_inFlight bytes hf fun sl' hs' => ?_
    cases hs.symm.trans hs'
    exact hp
  · refine complete_of_not_inFlight bytes hf fun sl' hs' => ?_
    cases hnone.symm.trans hs'

/-- The submission of a slot, said with its transfer length: TLEN tells it, the transport gets as many bytes, and OUT
stays. -/
theorem submit_transfer {s : State} {h : Handle} {sl : Slot} (hi : Inv s) (hr : Ready s h sl) {n : Nat}
    (hn : sl.transferLength = n) :
    runHostOp (.tlen h) s = .next { s with returned := s.returned ++ [.nat n] } ∧
      (submitted s h sl).handed = s.handed ++ [⟨h, sl.out.take n, n⟩] ∧ (sl.out.take n).length = n ∧
      ∀ i, (submitted s h sl).outAt h i = s.outAt h i := by
  subst hn
  have ⟨_, hs, _⟩ := hr
  have hsl := slotInv_of_slotAt hi hs
  refine ⟨tlen_of_eq hr rfl, rfl, ?_, fun i => ?_⟩
  · rw [List.length_take, hsl.out_length, Nat.min_eq_left (transferLength_le hsl)]
  · rw [outAt_of_slotAt (slotAt_submitted s h sl), outAt_of_slotAt hs]

/-- The completion of a submission with as many bytes as its transfer has. -/
theorem complete_submitted {s : State} {h : Handle} {sl : Slot} (hr : Ready s h sl) {bytes : List Byte}
    (hl : bytes.length = sl.transferLength) :
    ∃ u, complete h bytes (submitted s h sl) = .next u ∧
      u.slotAt h = some { sl with
        xlen := sl.transferLength, inb := Memory.writeFrom sl.inb 0 bytes, phase := .done } ∧ u.fault = none ∧
      ∀ i, u.inAt h i = if i < bytes.length then bytes[i]? else s.inAt h i := by
  have ⟨hf, hs, _⟩ := hr
  refine ⟨_, complete_inFlight hf (slotAt_submitted s h sl) rfl hl, slotAt_completed _ h _ bytes, hf, fun i => ?_⟩
  rw [inAt_completed (slotAt_submitted s h sl), inAt_of_slotAt (slotAt_submitted s h sl), inAt_of_slotAt hs]

/-- Settles O21: the transfer length of a variable slot is its header and DLEN; submission and completion follow it. -/
theorem variableTransfersAreHeaderAndDlenBytes : Obligations.VariableTransfersAreHeaderAndDlenBytes := by
  intro s h sl d hi hr hd
  refine ⟨fun hk => ?_, fun hk => ?_⟩
  · have hn : sl.transferLength = 2 + d := transferLength_variable (by rw [hk]; rfl) hd
    obtain ⟨htlen, hhanded, hlen, hout⟩ := submit_transfer hi hr hn
    exact ⟨htlen, _, submit_ready hr, hhanded, hlen, hout⟩
  · have hn : sl.transferLength = 3 + d := transferLength_variable (by rw [hk]; rfl) hd
    obtain ⟨htlen, hhanded, hlen, hout⟩ := submit_transfer hi hr hn
    refine ⟨htlen, _, submit_ready hr, hhanded, hlen, hout, fun bytes hl => ?_⟩
    obtain ⟨u, hu, -, -, hin⟩ := complete_submitted hr (hl.trans hn.symm)
    refine ⟨u, hu, fun i hlt => ?_, fun i hle => ?_⟩
    · rw [hin, if_pos (hl ▸ hlt)]
    · rw [hin, if_neg (Nat.not_lt.mpr (hl ▸ hle))]

/-! ## SET_DLEN and DROP -/

/-- The variable kinds by name (10_state.md R31). -/
theorem isVariable_iff (k : Kind) : isVariable k = true ↔ k ∈ [Kind.writeBuffer, Kind.readBuffer] := by
  cases k <;> decide

theorem setDlen_of_le {s : State} {h : Handle} {sl : Slot} {n hdr : Nat} (hr : Ready s h sl)
    (hh : headerBytes sl.kind = some hdr) (hn : n + hdr ≤ sl.cap) :
    runHostOp (.setDlen h n) s = .next (s.setSlot h { sl with dlen := some n }) := by
  refine (onSlot_ready hr (by rw [isVariable, hh]; rfl)).trans (if_pos ?_)
  rwa [hh]

theorem setDlen_of_lt {s : State} {h : Handle} {sl : Slot} {n hdr : Nat} (hr : Ready s h sl)
    (hh : headerBytes sl.kind = some hdr) (hn : sl.cap < n + hdr) :
    runHostOp (.setDlen h n) s = raise .contractDlen (some h) (.number n) s := by
  refine (onSlot_ready hr (by rw [isVariable, hh]; rfl)).trans (if_neg (Nat.not_le.mpr ?_))
  rwa [hh]

/-- A legal variable slot has room for its header. -/
theorem headerBytes_le_cap {sl : Slot} {hdr : Nat} (hi : SlotInv sl) (hh : headerBytes sl.kind = some hdr) :
    hdr ≤ sl.cap := by
  obtain ⟨d, -, hle⟩ := hi.dlen_variable hdr hh
  omega

/-- Settles O25: within the bound the slot is replaced by one with that DLEN; beyond it the mark is set. -/
theorem setDlenOnReadBuffer : Obligations.SetDlenOnReadBuffer := by
  refine ⟨fun s h n => onlyOn_of_opApplies s rfl rfl isVariable_iff, fun s h sl n hi hr hk => ?_⟩
  have ⟨hf, hs, _⟩ := hr
  have hh : headerBytes sl.kind = some 3 := by rw [hk]; rfl
  have hcap := headerBytes_le_cap (slotInv_of_slotAt hi hs) hh
  refine ⟨fun hle => ⟨_, setDlen_of_le hr hh (by omega), slotAt_setSlot_self s h _,
    fun j hne => slotAt_setSlot_of_ne s _ hne, hf, rfl, rfl, rfl, rfl, rfl, rfl⟩, fun hlt => ?_⟩
  exact setDlen_of_lt hr hh (by omega)

/-- Settles O26: as for ReadBuffer, and the new DLEN is what TLEN and the payload count. -/
theorem setDlenOnWriteBuffer : Obligations.SetDlenOnWriteBuffer := by
  intro s h sl n hi hr hk
  have ⟨hf, hs, hp⟩ := hr
  have hsl := slotInv_of_slotAt hi hs
  have hh : headerBytes sl.kind = some 2 := by rw [hk]; rfl
  have hcap := headerBytes_le_cap hsl hh
  refine ⟨fun hle => ?_, fun hlt => setDlen_of_lt hr hh (by omega)⟩
  have hr' : Ready (s.setSlot h { sl with dlen := some n }) h { sl with dlen := some n } :=
    ⟨hf, slotAt_setSlot_self s h _, hp⟩
  refine ⟨_, setDlen_of_le hr hh (by omega), slotAt_setSlot_self s h _, fun j hne => slotAt_setSlot_of_ne s _ hne, hf,
    rfl, rfl, rfl, rfl, rfl, rfl, tlen_of_eq hr' (transferLength_variable hh rfl), reads_payload hr' hk rfl ?_ rfl⟩
  have hout : sl.out.length = sl.cap := hsl.out_length
  simp only
  omega

/-- Settles O27: DROP erases the slot alone, and the next operation on the handle finds none. -/
theorem dropRemovesTheSlot : Obligations.DropRemovesTheSlot := by
  intro s h sl hr
  have ⟨hf, _, _⟩ := hr
  have hnone : (s.eraseSlot h).slotAt h = none := by simp
  exact ⟨_, onSlot_ready hr rfl, hnone, fun j hne => by simp [hne], hf, rfl, rfl, rfl, rfl, rfl, rfl,
    onSlot_absent hf hnone⟩

end Sys2Proof.Machine

namespace Sys2Proof.Machine

/-! ## Decoders of written and of unwritten cells -/

/-- A cell within the space that nothing has written is read as unwritten (10_state.md R35). -/
theorem inRead_of_read_none {sl : Slot} {i : Nat} (hlt : i < sl.cap) (hr : Memory.read sl.inb i = none) :
    sl.inRead i = .error (.unwritten i) := by
  rw [Slot.inRead, if_pos hlt, hr]

theorem inRead_of_read_some {sl : Slot} {i : Nat} {b : Byte} (hlt : i < sl.cap) (hr : Memory.read sl.inb i = some b) :
    sl.inRead i = .ok b := by
  rw [Slot.inRead, if_pos hlt, hr]

theorem inRead_of_inAt_none {s : State} {h : Handle} {sl : Slot} {i : Nat} (hs : s.slotAt h = some sl)
    (hlt : i < sl.cap) (hn : s.inAt h i = none) : sl.inRead i = .error (.unwritten i) :=
  inRead_of_read_none hlt ((inAt_of_slotAt hs i).symm.trans hn)

/-- An accessor that meets an unwritten cell raises UNWRITTEN_IN at its index (60_exceptions.md R424). -/
theorem access_unwritten {s : State} {h : Handle} {sl : Slot} {a : Accessor} {i : Nat} (hr : Ready s h sl)
    (ha : accessorApplies a sl.kind = true) (hread : readAccessor s.config a sl = .error (.unwritten i)) :
    runHostOp (.access h a) s = raise .unwrittenIn (some h) (.number i) s := by
  rw [access_ready hr ha, hread]
  rfl

theorem fromIn_error {sl : Slot} {is : List Nat} {e : ReadStop} (f : List Byte → Value)
    (hread : readAll sl.inRead is = .error e) : fromIn sl is f = .error e := by
  rw [fromIn, hread]

theorem fromIn_ok {sl : Slot} {is : List Nat} {bs : List Byte} (f : List Byte → Value)
    (hread : readAll sl.inRead is = .ok bs) : fromIn sl is f = .ok (f bs) := by
  rw [fromIn, hread]

/-- A decoder of one inbound byte, and of two, once they are written. -/
theorem reads_fromIn_one {s : State} {h : Handle} {sl : Slot} {a : Accessor} {i : Nat} {b : Byte} {f : List Byte → Value}
    (hi : Inv s) (hr : Ready s h sl) (ha : accessorApplies a sl.kind = true)
    (hread : readAccessor s.config a sl = fromIn sl [i] f) (hb : s.inAt h i = some b) : Reads s h a (f [b]) := by
  have ⟨_, hs, _⟩ := hr
  exact reads_of_ready hr ha (hread.trans (fromIn_one f (inRead_of_inAt hi hs hb)))

theorem reads_fromIn_two {s : State} {h : Handle} {sl : Slot} {a : Accessor} {i : Nat} {b c : Byte}
    {f : List Byte → Value} (hi : Inv s) (hr : Ready s h sl) (ha : accessorApplies a sl.kind = true)
    (hread : readAccessor s.config a sl = fromIn sl (bytes2 i) f) (hb : s.inAt h i = some b)
    (hc : s.inAt h (i + 1) = some c) : Reads s h a (f [b, c]) := by
  have ⟨_, hs, _⟩ := hr
  refine reads_of_ready hr ha (hread.trans (fromIn_ok f ?_))
  simp [bytes2, readAll, inRead_of_inAt hi hs hb, inRead_of_inAt hi hs hc]

/-! ## `value()` and `data()` -/

/-- Settles O31: one byte, at index 4, in both forms; the typed form decodes it by the register it names. -/
theorem readRegisterValueIsTheLastByte : Obligations.ReadRegisterValueIsTheLastByte := by
  refine ⟨fun s h => ⟨onlyOn_access .value rfl h s, fun reg => onlyOn_access (.valueAs reg) rfl h s⟩,
    fun s h sl hi hr hk => ?_⟩
  have ⟨_, hs, _⟩ := hr
  refine ⟨fun b hb => ⟨?_, fun reg => ⟨regValue s.config reg b, ?_, fun hreg => regValue_of_mem hreg b⟩⟩,
    fun hn => ?_⟩
  · exact reads_one_of_inAt .byte hi hr (by rw [hk]; rfl) rfl hb
  · exact reads_one_of_inAt (fun b => .nat (regValue s.config reg b)) hi hr (by rw [hk]; rfl) rfl hb
  · have hcap : sl.cap = 5 := (slotInv_of_slotAt hi hs).cap_fixed 5 (by rw [hk]; rfl)
    have hstop : readAll sl.inRead [4] = .error (.unwritten 4) := by
      rw [readAll, inRead_of_inAt_none hs (by omega) hn]
    exact ⟨access_unwritten hr (by rw [hk]; rfl) (fromIn_error _ hstop),
      fun reg => access_unwritten hr (by rw [hk]; rfl) (fromIn_error _ hstop)⟩

/-- `data()` reads DLEN bytes from IN[3] on (44_variable_commands.md R345). -/
theorem readAccessor_data (cfg : Config) {sl : Slot} {d : Nat} (hd : sl.dlen = some d) :
    readAccessor cfg .data sl = fromIn sl (List.range' 3 d) .bytes := by
  rw [readAccessor, Slot.dataLength, hd, Option.getD_some]

theorem reads_data {s : State} {h : Handle} {sl : Slot} {d : Nat} {bs : List Byte} (hi : Inv s) (hr : Ready s h sl)
    (hk : sl.kind = .readBuffer) (hd : sl.dlen = some d) (hl : bs.length = d)
    (hbs : ∀ i, i < d → s.inAt h (3 + i) = bs[i]?) : Reads s h .data (.bytes bs) := by
  have ⟨_, hs, _⟩ := hr
  refine reads_of_ready hr (by rw [hk]; rfl) ((readAccessor_data _ hd).trans (fromIn_ok _ ?_))
  refine readAll_range_ok 3 hl fun i hlt => inRead_of_inAt hi hs ?_
  rw [hbs i hlt, List.getElem?_eq_getElem]

/-- Settles O32: the bytes are read in order, and the first unwritten one decides. -/
theorem readBufferDataReadsDlenBytes : Obligations.ReadBufferDataReadsDlenBytes := by
  refine ⟨fun s h => onlyOn_access .data rfl h s, fun s h sl d hi hr hk hd =>
    ⟨fun bs hl hbs => reads_data hi hr hk hd hl hbs, fun k hlt hnone hbelow => ?_⟩⟩
  have ⟨_, hs, _⟩ := hr
  have hcap : d + 3 ≤ sl.cap := by
    obtain ⟨d', hd', hle⟩ := (slotInv_of_slotAt hi hs).dlen_variable 3 (by rw [hk]; rfl)
    cases hd.symm.trans hd'
    exact hle
  refine access_unwritten hr (by rw [hk]; rfl) ((readAccessor_data _ hd).trans (fromIn_error _ ?_))
  refine readAll_range_error 3 hlt (fun i hik => ?_) (inRead_of_inAt_none hs (by omega) hnone)
  obtain ⟨b, hb⟩ := Option.isSome_iff_exists.mp (hbelow i hik)
  exact ⟨b, inRead_of_inAt hi hs hb⟩

/-- Settles O28: the submission and the completion are effects, so the state stays legal, and IN holds the reply. -/
theorem readBufferDataIsTheReplyAfterTheHeader : Obligations.ReadBufferDataIsTheReplyAfterTheHeader := by
  intro s h sl d bytes hi hr hk hd hl
  have ⟨_, hs, hp⟩ := hr
  have htl : sl.transferLength = 3 + d := transferLength_variable (by rw [hk]; rfl) hd
  obtain ⟨t, hcomplete, hslot, hft, hin⟩ := complete_submitted hr (hl.trans htl.symm)
  have hit : Inv t := effect_keeps_inv (complete_effect hcomplete) (effect_keeps_inv (.submitted h sl hs hp) hi)
  refine ⟨_, t, submit_ready hr, hcomplete, reads_data hit ⟨hft, hslot, rfl⟩ hk hd ?_ fun i hlt => ?_⟩
  · rw [List.length_drop, hl, Nat.add_sub_cancel_left]
  · rw [hin, if_pos (by omega), List.getElem?_drop]

/-! ## The fixed read kinds -/

theorem statusType_ok {L : CmdLayout} (h : layoutOk L = true) : bfTypeOk L.statusType = true ∧ L.statusType.width = 8 := by
  obtain ⟨-, hstatus, -⟩ := typesOk_types (layoutOk_typesOk h)
  obtain ⟨hok, hw, -⟩ := typeHas_iff.mp hstatus
  exact ⟨hok, hw⟩

/-- The two sub-fields of a legal `Status` have three bits each (40_bitfield_codec.md R161). -/
theorem statusType_field {L : CmdLayout} (h : layoutOk L = true) {f : FieldName}
    (hf : f = .commandStatus ∨ f = .chipMode) : ∃ p, fieldPlace L.statusType f = some p ∧ p.width = 3 := by
  obtain ⟨-, hstatus, -⟩ := typesOk_types (layoutOk_typesOk h)
  obtain ⟨-, -, hfields, -⟩ := typeHas_iff.mp hstatus
  have hmem : (f, 3, FieldType.uint) ∈ [(FieldName.commandStatus, 3, FieldType.uint), (.chipMode, 3, .uint)] := by
    rcases hf with rfl | rfl <;> decide
  obtain ⟨p, hp, hw, -⟩ := hfields _ hmem
  exact ⟨p, hp, hw⟩

/-- The bits of a `Status` sub-field, by arithmetic (45_decoders.md R373). -/
theorem statusBits_eq {cfg : Config} (hlay : layoutOk cfg.layout = true) {f : FieldName} {p : FieldPlace}
    (hp : fieldPlace cfg.layout.statusType f = some p) (hw : p.width = 3) (b : Byte) :
    statusBits cfg f b = BitVec.ofNat 8 (b.toNat / 2 ^ p.offset % 8) := by
  obtain ⟨hok, hwidth⟩ := statusType_ok hlay
  rw [statusBits, hp]
  simp only [getBits_bfFromRaw hok hp, getBits_eq, hwidth, hw, Nat.mod_eq_of_lt b.isLt]
  rfl

/-- A byte within the width is not changed by the mask. -/
theorem maskByte_of_lt {w : Nat} {b : Byte} (h : b.toNat < 2 ^ w) : maskByte w b = b :=
  BitVec.eq_of_toNat_eq (by rw [maskByte_toNat, Nat.mod_eq_of_lt h])

theorem maskByte_three_ofNat (n : Nat) : maskByte 3 (BitVec.ofNat 8 (n % 8)) = BitVec.ofNat 8 (n % 8) :=
  maskByte_of_lt (by rw [BitVec.toNat_ofNat]; omega)

theorem chipModeOf_eq {cfg : Config} (hlay : layoutOk cfg.layout = true) {p : FieldPlace}
    (hp : fieldPlace cfg.layout.statusType .chipMode = some p) (hw : p.width = 3) (b : Byte) :
    chipModeOf cfg b = .chipMode (ofCodeChipMode (BitVec.ofNat 8 (b.toNat / 2 ^ p.offset % 8))) := by
  rw [chipModeOf, statusBits_eq hlay hp hw, decEnum, enumWidth, maskByte_three_ofNat, memberOfCode]

theorem commandStatusOf_eq {cfg : Config} (hlay : layoutOk cfg.layout = true) {p : FieldPlace}
    (hp : fieldPlace cfg.layout.statusType .commandStatus = some p) (hw : p.width = 3) (b : Byte) :
    commandStatusOf cfg b = .commandStatus (ofCodeCommandStatus (BitVec.ofNat 8 (b.toNat / 2 ^ p.offset % 8))) := by
  rw [commandStatusOf, statusBits_eq hlay hp hw, decEnum, enumWidth, maskByte_three_ofNat, memberOfCode]

/-- A bitfield of one byte, and of two, decodes to the masked natural (45_decoders.md R370). -/
theorem bitsValue_one (T : BFType) (b : Byte) : bitsValue T [b] = .bits (cleared T b.toNat) := by
  rw [bitsValue, beNat_one, cleared_eq_bfOperand]
  rfl

theorem bitsValue_two (T : BFType) (b c : Byte) : bitsValue T [b, c] = .bits (cleared T (b.toNat * 256 + c.toNat)) := by
  rw [bitsValue, beNat_two, cleared_eq_bfOperand]
  rfl

/-- Settles O33: the status byte, masked, and the members of its two three-bit fields. -/
theorem getStatusDecodesItsSubFields : Obligations.GetStatusDecodesItsSubFields := by
  intro s h sl b hi hr hk hb
  have hlay := configOk_layout hi.config_ok
  obtain ⟨p, hp, hpw⟩ := statusType_field hlay (.inr rfl)
  obtain ⟨q, hq, hqw⟩ := statusType_field hlay (.inl rfl)
  refine ⟨?_, p, q, hp, hq, ?_, ?_⟩
  · rw [← bitsValue_one]
    exact reads_fromIn_one hi hr (by rw [hk]; rfl) rfl hb
  · rw [← chipModeOf_eq hlay hp hpw]
    exact reads_one_of_inAt (fun b => .member (chipModeOf s.config b)) hi hr (by rw [hk]; rfl) rfl hb
  · rw [← commandStatusOf_eq hlay hq hqw]
    exact reads_one_of_inAt (fun b => .member (commandStatusOf s.config b)) hi hr (by rw [hk]; rfl) rfl hb

/-- `packet_type()` is a decoder on a GetPacketType slot (45_decoders.md R376). -/
theorem readAccessor_packetType_in {cfg : Config} {sl : Slot} (hk : sl.kind = .getPacketType) :
    readAccessor cfg .packetType sl = fromIn sl [cfg.layout.packetType] (enumValue cfg .packetType) := by
  rw [readAccessor, if_pos hk]

/-- Settles O34: each decoder masks what it reads at its place. -/
theorem maskedReadKindsDecodeWithoutFail : Obligations.MaskedReadKindsDecodeWithoutFail := by
  intro s h sl b c hi hr
  refine ⟨fun hk hb => ?_, fun hk hb hc => ?_, fun hk hb hc => ?_⟩
  · have hread := reads_fromIn_one hi hr (by rw [hk]; rfl) (readAccessor_packetType_in hk) hb
    rwa [enumValue, theByte_one] at hread
  · rw [← bitsValue_two]
    exact reads_fromIn_two hi hr (by rw [hk]; rfl) rfl hb hc
  · rw [← bitsValue_two]
    exact reads_fromIn_two hi hr (by rw [hk]; rfl) rfl hb hc

theorem natValue_one (b : Byte) : natValue [b] = .nat b.toNat := by rw [natValue, beNat_one]

theorem natValue_two (b c : Byte) : natValue [b, c] = .nat (b.toNat * 256 + c.toNat) := by rw [natValue, beNat_two]

/-- Settles O35: a counter of one byte is the byte, of two bytes their big-endian natural. -/
theorem countersDecodeAsBigEndianNaturals : Obligations.CountersDecodeAsBigEndianNaturals := by
  intro s h sl b c hi hr
  rw [← natValue_one, ← natValue_two]
  exact ⟨fun hk => ⟨reads_fromIn_one hi hr (by rw [hk]; rfl) rfl, reads_fromIn_one hi hr (by rw [hk]; rfl) rfl⟩,
    fun hk => ⟨reads_fromIn_two hi hr (by rw [hk]; rfl) rfl, reads_fromIn_two hi hr (by rw [hk]; rfl) rfl,
      reads_fromIn_two hi hr (by rw [hk]; rfl) rfl⟩⟩

end Sys2Proof.Machine

namespace Sys2Proof.Machine

/-! ## Which bytes an accessor reads

Every accessor applies a pure function to consecutive bytes of one space. `accessorSpan` and `decodesIn` say which; the facts
about all accessors at once follow from where the span lies. -/

/-- Whether an accessor of a slot of kind `k` reads IN, and not OUT. -/
def decodesIn (k : Kind) : Accessor → Bool
  | .packetType => k == .getPacketType
  | .value | .valueAs _ | .data | .status | .chipMode | .commandStatus | .irqStatus | .payloadLengthRx
  | .rxStartBufferPointer | .rssiPkt | .snrPkt | .signalRssiPkt | .opError | .nbPktReceived | .nbPktCrcError
  | .nbPktHeaderErr => true
  | _ => false

/-- The first index an accessor of a slot reads, and the number of bytes. -/
def accessorSpan (L : CmdLayout) (sl : Slot) : Accessor → Nat × Nat
  | .mask | .address => (1, 2)
  | .config | .symbNum | .enable | .offset | .status | .chipMode | .commandStatus => (1, 1)
  | .timeout => (1, 3)
  | .freqWord => (1, 4)
  | .packetType => if sl.kind = .getPacketType then (L.packetType, 1) else (1, 1)
  | .sf => (L.sf, 1)
  | .bw => (L.bw, 1)
  | .cr => (L.cr, 1)
  | .lowDataRateOptimize => (L.lowDataRateOptimize, 1)
  | .preambleLength => (L.preambleLength, 2)
  | .headerType => (L.headerType, 1)
  | .payloadLength => (L.payloadLength, 1)
  | .crcOn => (L.crcOn, 1)
  | .invertIq => (L.invertIq, 1)
  | .power => (L.power, 1)
  | .rampTime => (L.rampTime, 1)
  | .txBase => (L.txBase, 1)
  | .rxBase => (L.rxBase, 1)
  | .irqMask => (L.irqMask, 2)
  | .dio1Mask => (L.dio1Mask, 2)
  | .dio2Mask => (L.dio2Mask, 2)
  | .dio3Mask => (L.dio3Mask, 2)
  | .voltage => (L.voltage, 1)
  | .delay => (L.delay, 3)
  | .rawValue => (3, 1)
  | .value | .valueAs _ | .signalRssiPkt => (4, 1)
  | .dataLength => (1, 0)
  | .payload => (2, sl.dataLength)
  | .data => (3, sl.dataLength)
  | .irqStatus => (L.irqStatus, 2)
  | .payloadLengthRx => (L.payloadLengthRx, 1)
  | .rxStartBufferPointer => (L.rxStartBufferPointer, 1)
  | .rssiPkt => (2, 1)
  | .snrPkt => (3, 1)
  | .opError => (L.opError, 2)
  | .nbPktReceived => (L.nbPktReceived, 2)
  | .nbPktCrcError => (L.nbPktCrcError, 2)
  | .nbPktHeaderErr => (L.nbPktHeaderErr, 2)

/-- A value computed from bytes of IN or of OUT. -/
def fromSpace (inbound : Bool) (sl : Slot) (is : List Nat) (f : List Byte → Value) : Except ReadStop Value :=
  match inbound with
  | true => fromIn sl is f
  | false => fromOut sl is f

/-- What an accessor reads, said of all of them: one function of the bytes of its span, whatever IN holds. -/
theorem readAccessor_eq_fromSpace (cfg : Config) (a : Accessor) (sl : Slot) :
    ∃ f, ∀ m : Memory, readAccessor cfg a { sl with inb := m } =
      fromSpace (decodesIn sl.kind a) { sl with inb := m }
        (List.range' (accessorSpan cfg.layout sl a).1 (accessorSpan cfg.layout sl a).2) f := by
  cases a with
  | config =>
    by_cases hk : sl.kind = .setSleep
    · exact ⟨_, fun _ => if_pos hk⟩
    · exact ⟨_, fun _ => if_neg hk⟩
  | packetType =>
    by_cases hk : sl.kind = .getPacketType
    · refine ⟨enumValue cfg .packetType, fun m => (if_pos hk).trans ?_⟩
      rw [decodesIn, accessorSpan, if_pos hk, hk]
      rfl
    · refine ⟨enumValue cfg .packetType, fun m => (if_neg hk).trans ?_⟩
      rw [decodesIn, accessorSpan, if_neg hk, beq_eq_false_iff_ne.mpr hk]
      rfl
  | dataLength => exact ⟨fun _ => .nat sl.dataLength, fun _ => rfl⟩
  | _ => exact ⟨_, fun _ => rfl⟩

/-- The bytes of a span lie after the opcode and within `n` bytes. -/
def SpanFits (span : Nat × Nat) (n : Nat) : Prop := 1 ≤ span.1 ∧ span.1 + span.2 ≤ n

theorem spanFits_of_fieldsFit {n : Nat} {fields : List (Nat × Nat)} {span : Nat × Nat} (hfit : fieldsFit n fields = true)
    (hmem : span ∈ fields) : SpanFits span n :=
  (fieldsFit_iff.mp hfit).1 span hmem

/-- A span within the least length of an accessor's kinds is within the length of each. -/
theorem spanFits_of_kinds {a : Accessor} {k : Kind} {m n : Nat} {span : Nat × Nat} (hfit : SpanFits span m)
    (hm : ∀ k ∈ accessorKinds a, m ≤ (fixedCap k).getD 0) (ha : accessorApplies a k = true)
    (hc : fixedCap k = some n) : SpanFits span n := by
  have hle := hm k (accessorApplies_iff.mp ha)
  rw [hc] at hle
  exact ⟨hfit.1, hfit.2.trans hle⟩

theorem fixedCap_of_kinds_variable {a : Accessor} {k : Kind} (hvar : ∀ k ∈ accessorKinds a, fixedCap k = none)
    (ha : accessorApplies a k = true) : fixedCap k = none :=
  hvar k (accessorApplies_iff.mp ha)

theorem fixedCap_of_kinds_fixed {a : Accessor} {k : Kind} (hfixed : ∀ k ∈ accessorKinds a, fixedCap k ≠ none)
    (ha : accessorApplies a k = true) : fixedCap k ≠ none :=
  hfixed k (accessorApplies_iff.mp ha)

/-- A kind without a fixed length has a header of at least two bytes, and a kind with one has none (30_encoding.md R110). -/
theorem headerBytes_of_fixedCap_none {k : Kind} (h : fixedCap k = none) :
    ∃ hdr, headerBytes k = some hdr ∧ 2 ≤ hdr := by
  cases k with
  | writeBuffer => exact ⟨2, rfl, by decide⟩
  | readBuffer => exact ⟨3, rfl, by decide⟩
  | _ => cases h

theorem headerBytes_of_fixedCap_isSome {k : Kind} (h : (fixedCap k).isSome = true) : headerBytes k = none := by
  cases k with
  | writeBuffer | readBuffer => cases h
  | _ => rfl

/-- Under a legal layout, an accessor of a fixed slot reads bytes after the opcode and within the kind's length. -/
theorem accessorSpan_fits {L : CmdLayout} (hlay : layoutOk L = true) {sl : Slot} {a : Accessor} {n : Nat}
    (ha : accessorApplies a sl.kind = true) (hc : fixedCap sl.kind = some n) : SpanFits (accessorSpan L sl a) n := by
  obtain ⟨hmod, hpkt, htx, hbase, hdio, htcxo, hptype, hirq, hrx, herr, hstats, -⟩ := (layoutOk_iff L).mp hlay
  cases a with
  | dataLength | offset | payload | data => cases (fixedCap_of_kinds_variable (by decide) ha).symm.trans hc
  | packetType =>
    rcases List.mem_pair.mp (accessorApplies_iff.mp ha) with hk | hk <;> rw [hk] at hc <;> cases hc
    · rw [accessorSpan, hk]
      exact ⟨Nat.le_refl 1, Nat.le_refl 2⟩
    · rw [accessorSpan, if_pos hk]
      exact spanFits_of_fieldsFit hptype (.head _)
  | sf | bw | cr | lowDataRateOptimize =>
    exact spanFits_of_kinds (spanFits_of_fieldsFit hmod (by simp [accessorSpan])) (by decide) ha hc
  | preambleLength | headerType | payloadLength | crcOn | invertIq =>
    exact spanFits_of_kinds (spanFits_of_fieldsFit hpkt (by simp [accessorSpan])) (by decide) ha hc
  | power | rampTime =>
    exact spanFits_of_kinds (spanFits_of_fieldsFit htx (by simp [accessorSpan])) (by decide) ha hc
  | txBase | rxBase =>
    exact spanFits_of_kinds (spanFits_of_fieldsFit hbase (by simp [accessorSpan])) (by decide) ha hc
  | irqMask | dio1Mask | dio2Mask | dio3Mask =>
    exact spanFits_of_kinds (spanFits_of_fieldsFit hdio (by simp [accessorSpan])) (by decide) ha hc
  | voltage | delay =>
    exact spanFits_of_kinds (spanFits_of_fieldsFit htcxo (by simp [accessorSpan])) (by decide) ha hc
  | irqStatus => exact spanFits_of_kinds (spanFits_of_fieldsFit hirq (.head _)) (by decide) ha hc
  | payloadLengthRx | rxStartBufferPointer =>
    exact spanFits_of_kinds (spanFits_of_fieldsFit hrx (by simp [accessorSpan])) (by decide) ha hc
  | opError => exact spanFits_of_kinds (spanFits_of_fieldsFit herr (.head _)) (by decide) ha hc
  | nbPktReceived | nbPktCrcError | nbPktHeaderErr =>
    exact spanFits_of_kinds (spanFits_of_fieldsFit hstats (by simp [accessorSpan])) (by decide) ha hc
  | mask | config | timeout | freqWord | symbNum | enable | address | rawValue | value | valueAs | status | chipMode
  | commandStatus | rssiPkt | snrPkt | signalRssiPkt =>
    refine spanFits_of_kinds (m := _ + _) ⟨?_, Nat.le_refl _⟩ ?_ ha hc
    · simp [accessorSpan]
    · simp [accessorSpan, accessorKinds, fixedCap]

/-- An accessor of a variable slot reads within the header and DLEN bytes. -/
theorem accessorSpan_le_of_variable {L : CmdLayout} {sl : Slot} {a : Accessor} (hi : SlotInv sl)
    (ha : accessorApplies a sl.kind = true) (hc : fixedCap sl.kind = none) :
    (accessorSpan L sl a).1 + (accessorSpan L sl a).2 ≤ sl.cap := by
  obtain ⟨hdr, hh, hdr_le⟩ := headerBytes_of_fixedCap_none hc
  obtain ⟨d, hd, hle⟩ := hi.dlen_variable hdr hh
  have hlen : sl.dataLength = d := by rw [Slot.dataLength, hd, Option.getD_some]
  cases a with
  | dataLength | offset | payload =>
    simp only [accessorSpan]
    omega
  | data =>
    rw [List.mem_singleton.mp (accessorApplies_iff.mp ha)] at hh
    cases hh
    simp only [accessorSpan]
    omega
  | _ => exact absurd hc (fixedCap_of_kinds_fixed (by simp [accessorKinds, fixedCap]) ha)

/-- Under a legal layout, an accessor of a legal slot reads within the slot's space. -/
theorem accessorSpan_le_cap {L : CmdLayout} (hlay : layoutOk L = true) {sl : Slot} {a : Accessor} (hi : SlotInv sl)
    (ha : accessorApplies a sl.kind = true) : (accessorSpan L sl a).1 + (accessorSpan L sl a).2 ≤ sl.cap := by
  cases hc : fixedCap sl.kind with
  | none => exact accessorSpan_le_of_variable hi ha hc
  | some n =>
    rw [hi.cap_fixed n hc]
    exact (accessorSpan_fits hlay ha hc).2

/-- Under a legal layout, no decoder reads IN[0]. -/
theorem one_le_accessorSpan {L : CmdLayout} (hlay : layoutOk L = true) {sl : Slot} {a : Accessor}
    (hd : decodesIn sl.kind a = true) : 1 ≤ (accessorSpan L sl a).1 := by
  obtain ⟨-, -, -, -, -, -, hptype, hirq, hrx, herr, hstats, -⟩ := (layoutOk_iff L).mp hlay
  cases a with
  | packetType =>
    rw [accessorSpan, if_pos (beq_iff_eq.mp hd)]
    exact (spanFits_of_fieldsFit hptype (.head _)).1
  | irqStatus => exact (spanFits_of_fieldsFit hirq (.head _)).1
  | payloadLengthRx => exact (spanFits_of_fieldsFit hrx (.head _)).1
  | rxStartBufferPointer => exact (spanFits_of_fieldsFit hrx (.tail _ (.head _))).1
  | opError => exact (spanFits_of_fieldsFit herr (.head _)).1
  | nbPktReceived => exact (spanFits_of_fieldsFit hstats (.head _)).1
  | nbPktCrcError => exact (spanFits_of_fieldsFit hstats (.tail _ (.head _))).1
  | nbPktHeaderErr => exact (spanFits_of_fieldsFit hstats (.tail _ (.tail _ (.head _)))).1
  | value | valueAs | data | status | chipMode | commandStatus | rssiPkt | snrPkt | signalRssiPkt =>
    exact Nat.le_add_left 1 _
  | _ => cases hd

/-- On the kinds an accessor belongs to, the read-backs are those that do not read IN. -/
theorem decodesIn_eq_not_isReadBack {a : Accessor} {k : Kind} (ha : accessorApplies a k = true) :
    decodesIn k a = !isReadBack k a := by
  cases a with
  | packetType => rcases List.mem_pair.mp (accessorApplies_iff.mp ha) with rfl | rfl <;> rfl
  | _ => rfl

/-- A decoder's span begins at the lowest index that the spec prints for it. -/
theorem accessorSpan_fst_of_firstIndexRead {L : CmdLayout} {sl : Slot} {a : Accessor} {i : Nat}
    (hd : decodesIn sl.kind a = true) (hi : firstIndexRead L a = some i) : (accessorSpan L sl a).1 = i := by
  cases a with
  | packetType =>
    rw [accessorSpan, if_pos (beq_iff_eq.mp hd)]
    exact Option.some.inj hi
  | value | valueAs | data | status | chipMode | commandStatus | irqStatus | payloadLengthRx | rxStartBufferPointer
  | rssiPkt | snrPkt | signalRssiPkt | opError | nbPktReceived | nbPktCrcError | nbPktHeaderErr => exact Option.some.inj hi
  | _ => cases hd

/-- A decoder reads at least one byte, `data` only when DLEN is not 0. -/
theorem accessorSpan_snd_pos {L : CmdLayout} {sl : Slot} {a : Accessor} (hd : decodesIn sl.kind a = true)
    (hdata : a = .data → sl.dataLength ≠ 0) : 0 < (accessorSpan L sl a).2 := by
  cases a with
  | packetType =>
    rw [accessorSpan, if_pos (beq_iff_eq.mp hd)]
    exact Nat.one_pos
  | data => exact Nat.pos_of_ne_zero (hdata rfl)
  | value | valueAs | status | chipMode | commandStatus | irqStatus | payloadLengthRx | rxStartBufferPointer
  | rssiPkt | snrPkt | signalRssiPkt | opError | nbPktReceived | nbPktCrcError | nbPktHeaderErr => exact Nat.succ_pos _
  | _ => cases hd

/-! ## Facts about every accessor -/

theorem readAll_of_forall {rd : Nat → Except ReadStop Byte} {is : List Nat} (h : ∀ i ∈ is, ∃ b, rd i = .ok b) :
    ∃ bs, readAll rd is = .ok bs := by
  induction is with
  | nil => exact ⟨[], rfl⟩
  | cons i is ih =>
    obtain ⟨b, hb⟩ := h i List.mem_cons_self
    obtain ⟨bs, hbs⟩ := ih fun j hj => h j (List.mem_cons_of_mem _ hj)
    exact ⟨b :: bs, by simp only [readAll, hb, hbs]⟩

theorem readAll_congr {rd rd' : Nat → Except ReadStop Byte} {is : List Nat} (h : ∀ i ∈ is, rd i = rd' i) :
    readAll rd is = readAll rd' is := by
  induction is with
  | nil => rfl
  | cons i is ih =>
    rw [readAll, readAll, h i List.mem_cons_self, ih fun j hj => h j (List.mem_cons_of_mem _ hj)]

/-- Settles O37: a read-back's span lies within OUT, so it returns, whatever IN holds. -/
theorem readBacksReadOnlyOut : Obligations.ReadBacksReadOnlyOut := by
  intro s h sl a hi hr ha hback
  have ⟨_, hs, _⟩ := hr
  have hsl := slotInv_of_slotAt hi hs
  have hout : decodesIn sl.kind a = false := by rw [decodesIn_eq_not_isReadBack ha, hback]; rfl
  obtain ⟨f, hf⟩ := readAccessor_eq_fromSpace s.config a sl
  rw [hout] at hf
  have hle := accessorSpan_le_cap (configOk_layout hi.config_ok) hsl ha
  rw [← hsl.out_length] at hle
  have hread : ∀ m : Memory, readAccessor s.config a { sl with inb := m } = .ok _ := fun m =>
    (hf m).trans (fromOut_range (sl := { sl with inb := m }) hle f)
  exact ⟨_, reads_of_ready hr ha (hread sl.inb), hread⟩

/-- Settles O36: a completed fixed slot has every cell of IN, so its decoders return too. -/
theorem everyAccessorOfACompletedFixedSlotReturns : Obligations.EveryAccessorOfACompletedFixedSlotReturns := by
  intro s h sl a hi hr hdone hfixed ha
  have ⟨_, hs, _⟩ := hr
  have hsl := slotInv_of_slotAt hi hs
  have hle := accessorSpan_le_cap (configOk_layout hi.config_ok) hsl ha
  obtain ⟨f, hf⟩ := readAccessor_eq_fromSpace s.config a sl
  cases hd : decodesIn sl.kind a with
  | false =>
    have hback : isReadBack sl.kind a = true := by
      rw [decodesIn_eq_not_isReadBack ha] at hd
      simpa using hd
    obtain ⟨v, hv, -⟩ := readBacksReadOnlyOut s h sl a hi hr ha hback
    exact ⟨v, hv⟩
  | true =>
    rw [hd] at hf
    have hcap : alwaysReceived sl = sl.cap := by
      rw [alwaysReceived, headerBytes_of_fixedCap_isSome hfixed, Option.getD_none]
    have hcell : ∀ i, i < sl.cap → ∃ b, sl.inRead i = .ok b := fun i hlt => by
      obtain ⟨b, hb⟩ := Option.isSome_iff_exists.mp (hsl.done_written hdone i (hcap ▸ hlt))
      exact ⟨b, inRead_of_read_some hlt hb⟩
    obtain ⟨bs, hbs⟩ := readAll_of_forall (rd := sl.inRead)
      (is := List.range' (accessorSpan s.config.layout sl a).1 (accessorSpan s.config.layout sl a).2) fun i hmem =>
        hcell i (by have := (List.mem_range'_1.mp hmem).2; omega)
    exact ⟨f bs, reads_of_ready hr ha ((hf sl.inb).trans (fromIn_ok f hbs))⟩

/-- Settles O38: a slot never transferred has no written cell, so a decoder stops at the first index of its span. -/
theorem decodingBeforeATransferFaults : Obligations.DecodingBeforeATransferFaults := by
  intro s h sl a i hi hr hbuilt ha hback hfirst hdata
  have ⟨_, hs, _⟩ := hr
  have hsl := slotInv_of_slotAt hi hs
  have hd : decodesIn sl.kind a = true := by rw [decodesIn_eq_not_isReadBack ha, hback]; rfl
  have hle := accessorSpan_le_cap (configOk_layout hi.config_ok) hsl ha
  obtain ⟨f, hf⟩ := readAccessor_eq_fromSpace s.config a sl
  rw [hd, accessorSpan_fst_of_firstIndexRead hd hfirst] at hf
  rw [accessorSpan_fst_of_firstIndexRead hd hfirst] at hle
  have hpos : 0 < (accessorSpan s.config.layout sl a).2 := accessorSpan_snd_pos hd fun hadata hzero => by
    subst hadata
    have hk := List.mem_singleton.mp (accessorApplies_iff.mp ha)
    obtain ⟨d, hdlen, -⟩ := hsl.dlen_variable 3 (by rw [hk]; rfl)
    rw [Slot.dataLength, hdlen, Option.getD_some] at hzero
    exact hdata rfl (by rw [hdlen, hzero])
  have hnone : Memory.read sl.inb i = none := by rw [hsl.built_unwritten hbuilt]; rfl
  have hstop : sl.inRead i = .error (.unwritten i) := inRead_of_read_none (by omega) hnone
  refine access_unwritten hr ha ((hf sl.inb).trans (fromIn_error f ?_))
  exact readAll_range_error (k := 0) i hpos (fun j hj => absurd hj (Nat.not_lt_zero j)) hstop

theorem inRead_write_zero (sl : Slot) (b : Byte) {i : Nat} (h : 1 ≤ i) :
    Slot.inRead { sl with inb := Memory.write sl.inb 0 b } i = sl.inRead i := by
  simp only [Slot.inRead, memory_read_write]
  rw [if_neg (Nat.ne_of_gt h)]

/-- Settles O39: a decoder's span begins after IN[0], and a read-back reads OUT. -/
theorem noAccessorDependsOnInboundZero : Obligations.NoAccessorDependsOnInboundZero := by
  intro cfg a sl b hlay
  obtain ⟨f, hf⟩ := readAccessor_eq_fromSpace cfg a sl
  refine (hf _).trans (Eq.trans ?_ (hf sl.inb).symm)
  cases hd : decodesIn sl.kind a with
  | false => rfl
  | true =>
    have hstart := one_le_accessorSpan hlay hd
    have hsame := readAll_congr (rd := Slot.inRead { sl with inb := Memory.write sl.inb 0 b }) (rd' := sl.inRead)
      (is := List.range' (accessorSpan cfg.layout sl a).1 (accessorSpan cfg.layout sl a).2) fun i hmem =>
        inRead_write_zero sl b (hstart.trans (List.mem_range'_1.mp hmem).1)
    simp only [fromSpace, fromIn, hsame]

end Sys2Proof.Machine

namespace Sys2Proof.Machine

/-! ## The bitfield round trip -/

/-- A value of a type has no reserved bit. -/
theorem and_reservedMask_of_isBFValue {T : BFType} {v : Nat} (h : isBFValue T v = true) : v &&& reservedMask T = 0 := by
  rw [isBFValue, Bool.and_eq_true, beq_iff_eq] at h
  exact h.2

/-- Settles O55: `BF.FROM_RAW` gives a value, and no field has a reserved bit, so every field reads as before. -/
theorem fromRawClearsExactlyTheReservedBits : Obligations.FromRawClearsExactlyTheReservedBits := by
  intro T r hT
  have hvalue := isBFValue_bfFromRaw T r
  refine ⟨hvalue, and_reservedMask_of_isBFValue hvalue, fun f => ?_⟩
  cases hf : fieldPlace T f with
  | none => rw [bfGet, bfGet, hf]; rfl
  | some p => rw [bfGet, bfGet, hf, Option.map_some, Option.map_some, getBits_bfFromRaw hT hf]

/-- `BF.WITH` of each assignment in order. -/
def withAll (T : BFType) (v : Nat) (asg : List (FieldName × FieldVal)) : Nat :=
  asg.foldl (fun v fx => bfWith T v fx.1 fx.2) v

theorem withAll_cons (T : BFType) (v : Nat) (fx : FieldName × FieldVal) (asg : List (FieldName × FieldVal)) :
    withAll T v (fx :: asg) = withAll T (bfWith T v fx.1 fx.2) asg := rfl

theorem isBFValue_withAll {T : BFType} (hT : bfTypeOk T = true) {v : Nat} (hv : isBFValue T v = true)
    (asg : List (FieldName × FieldVal)) : isBFValue T (withAll T v asg) = true := by
  induction asg generalizing v with
  | nil => exact hv
  | cons fx asg ih => exact ih (isBFValue_bfWith hT hv fx.1 fx.2)

/-- Assignments to other fields leave a field as it is. -/
theorem bfGet_withAll_of_notMem {T : BFType} (hT : bfTypeOk T = true) {f : FieldName}
    {asg : List (FieldName × FieldVal)} (hf : f ∉ asg.map Prod.fst) (v : Nat) :
    bfGet T (withAll T v asg) f = bfGet T v f := by
  induction asg generalizing v with
  | nil => rfl
  | cons fx asg ih =>
    rw [List.map_cons, List.mem_cons, not_or] at hf
    rw [withAll_cons, ih hf.2, bfGet_bfWith_other hT hf.1]

/-- A fitting value is read back from its field whole (40_bitfield_codec.md R149). -/
theorem natFieldVal_of_fits {T : BFType} (hT : bfTypeOk T = true) {f : FieldName} {p : FieldPlace}
    (hf : fieldPlace T f = some p) {x : FieldVal} (hx : fitsField p x) :
    natFieldVal p.ty (fieldValNat x % 2 ^ p.width) = x := by
  cases x with
  | flag b =>
    have hty : p.ty = .bool := hx
    rw [hty, fieldPlace_bool_width hT hf hty]
    cases b <;> rfl
  | uint n =>
    obtain ⟨hty, hlt⟩ := hx
    rw [hty, fieldValNat, Nat.mod_eq_of_lt hlt, natFieldVal]

/-- With distinct names, each field reads the value assigned to it. -/
theorem bfGet_withAll_of_mem {T : BFType} (hT : bfTypeOk T = true) {asg : List (FieldName × FieldVal)}
    (hn : (asg.map Prod.fst).Nodup) (hfit : ∀ fx ∈ asg, ∃ p, fieldPlace T fx.1 = some p ∧ fitsField p fx.2) (v : Nat)
    {fx : FieldName × FieldVal} (hmem : fx ∈ asg) : bfGet T (withAll T v asg) fx.1 = some fx.2 := by
  induction asg generalizing v with
  | nil => cases hmem
  | cons gy asg ih =>
    rw [List.map_cons, List.nodup_cons] at hn
    rw [withAll_cons]
    rcases List.mem_cons.mp hmem with rfl | hmem
    · obtain ⟨p, hp, hx⟩ := hfit _ List.mem_cons_self
      rw [bfGet_withAll_of_notMem hT hn.1, bfGet_bfWith_same hp, natFieldVal_of_fits hT hp hx]
    · exact ih hn.2 (fun g hg => hfit g (List.mem_cons_of_mem _ hg)) _ hmem

theorem isBFValue_bfZero (T : BFType) : isBFValue T (bfZero T) = true := by
  simp [isBFValue, bfZero]

/-- Settles O54: the assignments build a value, the names of a legal type are distinct, and BF.WITH keeps the other
fields. -/
theorem bitfieldRoundTrip : Obligations.BitfieldRoundTrip := by
  intro T asg hT hperm hfit
  have hvalue := isBFValue_withAll hT (isBFValue_bfZero T) asg
  exact ⟨hvalue, bfFromRaw_of_value hvalue, fun fx hmem =>
    bfGet_withAll_of_mem hT (hperm.nodup_iff.mpr (bfTypeOk_nodup hT)) hfit (bfZero T) hmem⟩

/-! ## The concrete types -/

/-- Every printed field stands at its printed lowest bit, with its printed width. -/
theorem fieldPlace_of_mem_fieldTable :
    ∀ row ∈ fieldTable, (fieldPlace row.1 row.2.1).map (fun p => (p.offset, p.width)) = some row.2.2 := by
  decide

/-- Settles O56: the concrete types and the default layout are closed data, so each part is evaluated. -/
theorem concreteBitfieldTypesHaveTheirMasks : Obligations.ConcreteBitfieldTypesHaveTheirMasks :=
  ⟨⟨by decide, by decide, by decide, by decide⟩, by decide, by decide, by decide, by decide, by decide,
    fieldPlace_of_mem_fieldTable, defaultLayout_ok, defaultConfig_ok, rfl⟩

/-! ## The pure functions at the port -/

/-- In an unfaulted state a pure function returns its value and changes nothing else (40_bitfield_codec.md R140). -/
theorem pure_of_value {s : State} (hf : s.fault = none) {f : PureCall} {v : Value} (hv : pureValue s.config f = v) :
    runHostOp (.pure f) s = .next { s with returned := s.returned ++ [v] } := by
  rw [runHostOp, reqPure, unlessFaulted_of_none hf, hv]
  rfl

/-- `BF.GET` of a field of a legal type, of any natural (40_bitfield_codec.md R145, R150). -/
theorem pureValue_bfGet (cfg : Config) {T : BFType} (hT : bfTypeOk T = true) {f : FieldName} {p : FieldPlace}
    (hp : fieldPlace T f = some p) (v : Nat) : pureValue cfg (.bfGet T v f) = .field (natFieldVal p.ty (getBits v p)) := by
  simp only [pureValue, hp, hT, if_true]

theorem pureValue_bfWith (cfg : Config) {T : BFType} (hT : bfTypeOk T = true) {f : FieldName} {p : FieldPlace}
    (hp : fieldPlace T f = some p) {v : Nat} (hv : isBFValue T v = true) {x : FieldVal} (hx : fieldValOk p.ty x = true) :
    pureValue cfg (.bfWith T v f x) = .bits (bfWith T v f x) := by
  simp only [pureValue, hp, hT, hv, hx, if_true]

/-- Settles O59: every pure function returns its value, and on legal operands no value is a free one. -/
theorem pureFunctionsReturnAndTouchNothing : Obligations.PureFunctionsReturnAndTouchNothing := by
  intro s T r E b m reg w hf
  refine ⟨fun f => ⟨_, pure_of_value hf rfl⟩, fun hT => ⟨pure_of_value hf ?_, pure_of_value hf ?_, fun f p hp =>
      ⟨fun v => pure_of_value hf ?_, ?_, fun v hv => ⟨pure_of_value hf ?_, fun x hx =>
        pure_of_value hf (pureValue_bfWith s.config hT hp hv hx)⟩⟩⟩,
    fun hm => pure_of_value hf ?_, pure_of_value hf rfl,
    fun hr => ⟨pure_of_value hf ?_, fun hw => pure_of_value hf ?_⟩⟩
  · rw [pureValue, if_pos hT, bfZero]
  · rw [pureValue, if_pos hT]
  · rw [pureValue_bfGet s.config hT hp, getBits_eq]
  · rw [pure_of_value hf (pureValue_bfGet s.config hT hp _), pure_of_value hf (pureValue_bfGet s.config hT hp _),
      getBits_bfFromRaw hT hp]
  · rw [pureValue, if_pos (by rw [hT, hv]; rfl), bfToRaw]
  · rw [pureValue, encByte_of_memberOk hm]
  · rw [pureValue, regValue_of_mem hr]
  · rw [pureValue, regByte_of_mem hr hw]

/-! ## The printed codes -/

theorem minEnumWidth_le {ws : EnumWidths} (h : enumWidthsOk ws = true) (E : EnumId) :
    minEnumWidth E ≤ enumWidth ws E := by
  have hmem : E ∈ allEnums := by cases E <;> decide
  rw [enumWidthsOk, List.all_eq_true] at h
  have hE := h E hmem
  rw [Bool.and_eq_true, decide_eq_true_eq] at hE
  exact hE.1

/-- A member whose code fits the width and names it is one at that width. -/
theorem decEnum_of_code {ws : EnumWidths} {m : Member} (hfit : (encEnum m).toNat < 2 ^ enumWidth ws (memberEnum m))
    (hcode : memberOfCode (memberEnum m) (encEnum m) = m) : decEnum ws (memberEnum m) (encEnum m) = m := by
  rw [decEnum, maskByte_of_lt hfit, hcode]

/-- Every printed row: the member's code, that it names the member, and that it fits the least width. -/
theorem enumCodeTable_row : ∀ row ∈ enumCodeTable,
    (encEnum row.1).toNat = row.2 ∧ memberOfCode (memberEnum row.1) (encEnum row.1) = row.1 ∧
      row.2 < 2 ^ minEnumWidth (memberEnum row.1) := by
  decide

/-- At the default widths every code names a printed member. -/
theorem memberOfCode_mem_enumCodeTable (E : EnumId) :
    ∀ n < 2 ^ enumWidth defaultEnumWidths E, memberOfCode E (BitVec.ofNat 8 n) ∈ enumCodeTable.map Prod.fst := by
  cases E <;> decide

/-- Settles O60: a printed code fits the least width, so every legal one; at the default widths the printed codes are all. -/
theorem printedMembersHaveThePrintedCodes : Obligations.PrintedMembersHaveThePrintedCodes := by
  refine ⟨fun ws hws row hrow => ?_, fun m hm => ?_⟩
  · obtain ⟨hnum, hcode, hmin⟩ := enumCodeTable_row row hrow
    have hfit : (encEnum row.1).toNat < 2 ^ enumWidth ws (memberEnum row.1) := by
      rw [hnum]
      exact hmin.trans_le (Nat.pow_le_pow_right (by decide) (minEnumWidth_le hws _))
    have hdec := decEnum_of_code hfit hcode
    refine ⟨hnum, decide_eq_true hdec, ?_⟩
    rw [← hnum, BitVec.ofNat_toNat, BitVec.setWidth_eq, hdec]
  · have hlt := encEnum_lt_of_memberOk hm
    have hmem := memberOfCode_mem_enumCodeTable (memberEnum m) _ hlt
    have hdec := decEnum_encEnum hm
    rw [decEnum, maskByte_of_lt hlt] at hdec
    rwa [BitVec.ofNat_toNat, BitVec.setWidth_eq, hdec] at hmem

end Sys2Proof.Machine
